-- ==== Sys2Proof/Word.lean ====
section
/-! DEFINITION. The word types of VBFP: bytes of RAW and PAY, 64-bit descriptor words (R12, R59). -/

namespace Sys2Proof

/-- One byte of RAW or PAY (R30, R31). -/
abbrev Byte := BitVec 8

/-- One 64-bit descriptor word of DESC (R32, R59). -/
abbrev Word := BitVec 64

end Sys2Proof
end

