-- ==== Sys2Proof/Syntax.lean ====
section
/-! DEFINITION. The descriptor words of VBFP descriptor format 1 as syntax (30_encoding.md R59 to R67): one constructor
for each row of spec/opcode_table.json, operands in the order of the textual notation (R75). Operand fields keep the
width the word gives them, so a term can hold every operand value an encoding can; `WellFormed` says which are legal. -/

namespace Sys2Proof

/-- A descriptor word. -/
inductive Instr
  /-- `PART off, mask, size` (R60). -/
  | part (offset : BitVec 32) (mask : BitVec 8) (size : BitVec 3)
  /-- `FIELD tag, S|U, mul, div` (R62); `signed` is true for S. -/
  | field (tag : BitVec 16) (signed : Bool) (mul : BitVec 16) (div : BitVec 16)
  /-- `END` (R64). -/
  | endList
  /-- `RDU tag, off, size` (R65). -/
  | rdu (tag : BitVec 16) (offset : BitVec 32) (size : BitVec 3)
  /-- `RDI tag, off, size` (R66). -/
  | rdi (tag : BitVec 16) (offset : BitVec 32) (size : BitVec 3)
deriving DecidableEq, Repr

end Sys2Proof
end

