-- ==== Sys2Proof/Decode.lean ====
section
/-! DEFINITION. Decoding a 64-bit descriptor word, total, rejecting by name (R59 to R68), and the encoder written from
the same tables. The decoder checks OP and the reserved bits (sub-codes 1 and 2 of R68, the first checks of every word);
the checks of field values come after them, in the order of each word's own pseudocode, and are in its meaning. -/

namespace Sys2Proof

/-- Why a word is not a descriptor word of the format. -/
inductive DecodeReject
  /-- OP is 0 or 6 to 15 (R67). -/
  | illegalOp
  /-- A reserved bit of the word's format is 1 (R68). -/
  | reservedBits
deriving DecidableEq, Repr

/-- The sub-code of the DescriptorError the word raises (R68). -/
def DecodeReject.sub : DecodeReject → BitVec 8
  | .illegalOp => 1
  | .reservedBits => 2

/-- `w[hi:lo]` with `hi = lo + n - 1` (R12). -/
def slice (w : Word) (lo n : Nat) : BitVec n :=
  w.extractLsb' lo n

/-- The decoder (R59 to R67). -/
def decodeWord (w : Word) : Except DecodeReject Instr :=
  match (slice w 60 4).toNat with
  | 1 =>
    if slice w 43 17 = 0#17 then .ok (.part (slice w 0 32) (slice w 32 8) (slice w 40 3))
    else .error .reservedBits
  | 2 =>
    if slice w 49 11 = 0#11 then
      .ok (.field (slice w 32 16) (w.getLsbD 48) (slice w 0 16) (slice w 16 16))
    else .error .reservedBits
  | 3 => if slice w 0 60 = 0#60 then .ok .endList else .error .reservedBits
  | 4 =>
    if slice w 59 1 = 0#1 ∧ slice w 32 8 = 0#8 then
      .ok (.rdu (slice w 43 16) (slice w 0 32) (slice w 40 3))
    else .error .reservedBits
  | 5 =>
    if slice w 59 1 = 0#1 ∧ slice w 32 8 = 0#8 then
      .ok (.rdi (slice w 43 16) (slice w 0 32) (slice w 40 3))
    else .error .reservedBits
  | _ => .error .illegalOp

/-- The code of the OP field (R59, R67). -/
def Instr.op : Instr → BitVec 4
  | .part _ _ _ => 1#4
  | .field _ _ _ _ => 2#4
  | .endList => 3#4
  | .rdu _ _ _ => 4#4
  | .rdi _ _ _ => 5#4

/-- The encoder, each word written most significant field first from the tables of R60, R62, R64, R65, R66. -/
def encode : Instr → Word
  | .part offset mask size => 1#4 ++ 0#17 ++ size ++ mask ++ offset
  | .field tag signed mul div => 2#4 ++ 0#11 ++ BitVec.ofBool signed ++ tag ++ div ++ mul
  | .endList => 3#4 ++ 0#60
  | .rdu tag offset size => 4#4 ++ 0#1 ++ tag ++ size ++ 0#8 ++ offset
  | .rdi tag offset size => 5#4 ++ 0#1 ++ tag ++ size ++ 0#8 ++ offset

/-- The instruction the decoder reads from a table word of `nbits` bits; the bits above are 0. DESC is addressed by
whole 64-bit words and has no byte order inside VBFP (R38), so the table's bit numbers are the word's own. -/
def decodeTableWord (nbits w : Nat) : Option Instr :=
  match decodeWord (BitVec.ofNat 64 (w % 2 ^ nbits)) with
  | .ok i => some i
  | .error _ => none

end Sys2Proof
end

