-- ==== Sys2Proof/Config.lean ====
section
/-! DEFINITION. What an instance of VBFP fixes (00_scope.md R5 to R11) and the contents the spec leaves unspecified.
Functions and unspecified contents are opaque constants with no body, so no proof can use a value of them. The scalar
parameters are a plain record, `Params`, that the launch state carries (log entry 1). -/

namespace Sys2Proof

/-- Property CK_SBF, "single-bit-flip-detecting" (R7): inverting bit `k` of any one of the three bytes changes the value. -/
def DetectsSingleFlips (f : Byte → Byte → Byte → Byte) : Prop :=
  ∀ (b0 b1 b2 : Byte) (k : Nat), k < 8 →
    f (b0 ^^^ (1#8 <<< k)) b1 b2 ≠ f b0 b1 b2 ∧
    f b0 (b1 ^^^ (1#8 <<< k)) b2 ≠ f b0 b1 b2 ∧
    f b0 b1 (b2 ^^^ (1#8 <<< k)) ≠ f b0 b1 b2

/-- `CK_T`, the spec's own test function (R6); it only shows that the type `FrameCk` has a member. -/
def ckT (b0 b1 b2 : Byte) : Byte := 0xFF#8 - (b0 + b1 + b2)

theorem flip_ne (b : Byte) (k : Nat) (hk : k < 8) : b ^^^ (1#8 <<< k) ≠ b := by
  intro h
  have hz : (1#8 <<< k) = 0#8 := by
    have := congrArg (b ^^^ ·) h
    simpa [← BitVec.xor_assoc] using this
  have : k = 0 ∨ k = 1 ∨ k = 2 ∨ k = 3 ∨ k = 4 ∨ k = 5 ∨ k = 6 ∨ k = 7 := by omega
  rcases this with rfl | rfl | rfl | rfl | rfl | rfl | rfl | rfl <;> exact absurd hz (by decide)

/-- `CK_T` has CK_SBF (R7, last sentence). -/
theorem ckT_detects : DetectsSingleFlips ckT := by
  intro b0 b1 b2 k hk
  have h0 := flip_ne b0 k hk
  have h1 := flip_ne b1 k hk
  have h2 := flip_ne b2 k hk
  simp only [ckT]
  refine ⟨fun h => h0 ?_, fun h => h1 ?_, fun h => h2 ?_⟩ <;> bv_omega

/-- A legal `FRAME_CK` (R6, R7): a total function of three bytes that has CK_SBF. -/
structure FrameCk where
  fn : Byte → Byte → Byte → Byte := ckT
  detects : DetectsSingleFlips fn := by exact ckT_detects
deriving Inhabited

/-- The three checksum functions of an instance (R6, R8, R9). -/
structure Checks where
  frameCk : FrameCk
  hdrCk : Vector Byte 8 → Byte
  trailerCk : List Byte → Byte

/-- The scalar parameters of an instance (R5, R9, R11). -/
structure Params where
  syncByte : Byte
  hasTrailer : Bool
  rawSize : Nat
  descLen : Nat
  resCap : Nat
deriving DecidableEq, Repr

/-- The ranges of R11. -/
def Params.wf (p : Params) : Bool :=
  decide (1 ≤ p.rawSize ∧ p.rawSize ≤ 2 ^ 32 ∧ 1 ≤ p.descLen ∧ p.descLen ≤ 2 ^ 31 ∧
    1 ≤ p.resCap ∧ p.resCap ≤ 2 ^ 16)

namespace Config

/-! ### Fixed by the source and not parameters (R11) -/

abbrev hdrLen : Nat := 9
abbrev frameLen : Nat := 4
abbrev framePay : Nat := 3
abbrev maxFrames : Nat := 255
abbrev payMax : Nat := 765
abbrev accBits : Nat := 48

/-! ### The OPEN parameters (R5 to R11) -/

/-- `SYNC_BYTE` (R5). -/
opaque syncByte : Byte
/-- `HAS_TRAILER` (R9). -/
opaque hasTrailer : Bool
/-- `RAW_SIZE` less 1 (R11: 1 to 2^32). -/
opaque rawSizeLess1 : BitVec 32
/-- `DESC_LEN` less 1 (R11: 1 to 2^31). -/
opaque descLenLess1 : BitVec 31
/-- `RES_CAP` less 1 (R11: 1 to 2^16). -/
opaque resCapLess1 : BitVec 16
/-- `FRAME_CK` with CK_SBF (R6, R7). -/
opaque frameCk : FrameCk
/-- `HDR_CK` (R8). -/
opaque hdrCk : Vector Byte 8 → Byte
/-- `TRAILER_CK` (R9). -/
opaque trailerCk : List Byte → Byte
/-- `REGISTRY` (R10): `none` is `NotFound`, `some b` a word index of DESC. -/
opaque registry : BitVec 16 → BitVec 16 → BitVec 16 → Option (BitVec 32)

/-- The scalar parameters of the instance as one record. -/
def params : Params where
  syncByte := syncByte
  hasTrailer := hasTrailer
  rawSize := rawSizeLess1.toNat + 1
  descLen := descLenLess1.toNat + 1
  resCap := resCapLess1.toNat + 1

/-- The checksum functions of the instance as one record. -/
def checks : Checks where
  frameCk := frameCk
  hdrCk := hdrCk
  trailerCk := trailerCk

/-! ### Unspecified contents (93_implementation_defined.md U1, U2; R30, R32: inputs of the model) -/

/-- What RAW holds at an address the host has not written in this run: the host's, unknown. -/
opaque rawLaunch : Nat → Byte
/-- What DESC holds at an index the host has not written in this run: the host's, unknown. -/
opaque descLaunch : Nat → Word
/-- What PAY holds, after the `n`th reset, at an address ASSEMBLE has not written since: unspecified (U2). -/
opaque payUnwritten : Nat → Nat → Byte

end Config
end Sys2Proof
end

