-- ==== Sys2Proof/Machine/State.lean ====
section
/-! DEFINITION. The architectural state of VBFP (10_state.md R15 to R35), the reasons a step can stop, and the state
after reset (R35, R169). Plain data throughout. -/

namespace Sys2Proof.Machine

/-- PHASE (R18). `busy` is a command in progress: here, a DECODE between two descriptor words (log entry 4). -/
inductive Phase
  | idle
  | assembled
  | done
  | fault
  | busy
deriving DecidableEq, Repr

/-- KIND of a record (R73). -/
inductive Kind
  | value
  | flag
  | read
deriving DecidableEq, Repr

/-- ST of a record (R73). -/
inductive FieldStatus
  | ok
  | absent
deriving DecidableEq, Repr

/-- A record of RES (R73). The packing into bits is no part of VBFP (R73, U9), so the numbers are exact integers. -/
structure Record where
  tag : BitVec 16
  kind : Kind
  st : FieldStatus
  w : Nat
  raw : Int
  quot : Int
  rem : Int
  div : BitVec 16
  flagv : Bool
deriving DecidableEq, Repr

/-- A fatal error (R148): the codes that reach ERR_CODE. -/
inductive Fatal
  | outOfBounds
  | truncatedPacket
  | syncError
  | descriptorError
  | badCommand
  | resultOverflow
deriving DecidableEq, Repr

/-- `F(sub, info)` of the pseudocode's `raise F(sub, info)` (R13, R161). -/
structure Raise where
  fatal : Fatal
  sub : BitVec 8
  info : BitVec 32
deriving DecidableEq, Repr

/-- A memory space: a list of (address, content) pairs, addresses strictly rising, holding the cells written so far. An
address not listed has no content of its own; `Ops` says what reading it gives (log entries 7 and 8). -/
abbrev Memory (α : Type) := List (Nat × α)

/-- A move of the host (R135, R146). -/
inductive HostMove
  /-- A write of `value` to register number `number` (R16, R17, R34). -/
  | writeReg (number : Nat) (value : BitVec 32)
  /-- A write of one byte of RAW (R30). -/
  | writeRaw (addr : Nat) (value : Byte)
  /-- A write of one word of DESC (R32). -/
  | writeDesc (index : Nat) (value : Word)
  /-- The registry step of the procedure RUN (R113, R143). -/
  | consult
  /-- The reset event (R169). -/
  | reset
deriving DecidableEq, Repr

/-- Why a step stops. VBFP's own faults are no such stop: they are next states (R161). -/
inductive Fault
  /-- Raised by `hostMove` when the host writes RAW at or above RAW_SIZE, an address R30 says does not exist. Safe. -/
  | noRawAddress (addr : Nat)
  /-- Raised by `hostMove` when the host writes DESC at or above DESC_LEN, an index R32 says does not exist. Safe. -/
  | noDescIndex (index : Nat)
deriving DecidableEq, Repr

/-- Why a move is not taken. -/
inductive Refusal
  /-- Raised by an arm of `exec` for an instruction that has no meaning yet. Safe. -/
  | notModelled (mnemonic : String)
  /-- Raised by `cmdWrite` and `hostMove` in phase BUSY, where the spec gives the host no move (R146, R173, U6). No
  step raises it: in BUSY a step runs a descriptor word and the host's moves wait. Safe. -/
  | hostMoveWhileBusy
deriving DecidableEq, Repr

/-- The state of VBFP (R15) and of the host agent beside it. -/
@[ext]
structure State where
  /-- The scalar parameters, part of the launch state (R169), written by nothing. -/
  par : Params
  /-- RAW_BASE, RAW_LEN, DESC_BASE (R17). -/
  rawBase : BitVec 32
  rawLen : BitVec 32
  descBase : BitVec 32
  /-- PHASE (R18), STATUS (R19), ERR_CODE and ERR_SUB (R20), ERR_INFO (R21). -/
  phase : Phase
  status : BitVec 8
  errCode : BitVec 8
  errSub : BitVec 8
  errInfo : BitVec 32
  /-- The packet header registers DST, SRC, PCMD, NFR, HCK (R22). -/
  dst : BitVec 16
  src : BitVec 16
  pcmd : BitVec 16
  nfr : BitVec 8
  hck : BitVec 8
  /-- PAY_LEN and CONSUMED (R23), FERR and FERR_COUNT (R24). -/
  payLen : BitVec 10
  consumed : BitVec 32
  ferr : BitVec 255
  ferrCount : BitVec 8
  /-- DPC (R25). -/
  dpc : BitVec 32
  /-- ACC, ACCW, NPARTS (R26), ABS, OOBP, OOB_DPC (R27). -/
  acc : BitVec 48
  accw : BitVec 6
  nparts : BitVec 6
  abs : Bool
  oobp : Bool
  oobDpc : BitVec 32
  /-- RES_COUNT (R28). -/
  resCount : BitVec 17
  /-- The four spaces (R30 to R33). -/
  raw : Memory Byte
  pay : Memory Byte
  desc : Memory Word
  res : Memory Record
  /-- The host agent: its moves to come, next one first (the model's own, log entry 5). -/
  host : List HostMove
  /-- How many resets there have been: it names the unspecified contents of PAY (the model's own, log entry 8). -/
  resets : Nat
deriving DecidableEq, Repr

/-- The state after reset (R35, R169) as the launch state has it: RAW and DESC with nothing listed, the parameters of
the instance, no host move to come. -/
def State.reset : State where
  par := Config.params
  rawBase := 0
  rawLen := 0
  descBase := 0
  phase := .idle
  status := 0
  errCode := 0
  errSub := 0
  errInfo := 0
  dst := 0
  src := 0
  pcmd := 0
  nfr := 0
  hck := 0
  payLen := 0
  consumed := 0
  ferr := 0
  ferrCount := 0
  dpc := 0
  acc := 0
  accw := 0
  nparts := 0
  abs := false
  oobp := false
  oobDpc := 0
  resCount := 0
  raw := []
  pay := []
  desc := []
  res := []
  host := []
  resets := 0

end Sys2Proof.Machine
end

