-- ==== Sys2Proof/Machine/Flags.lean ====
section
/-! DEFINITION. Every flag computation of the spec: the STATUS bits (R19), the FERR flags (R24) and the single-bit flag
rule of a record (R127). -/

namespace Sys2Proof.Machine

/-- The STATUS flags (R19). -/
inductive StatusFlag
  | pckHdr
  | pckTrl
  | fck
  | notFound
  | absent
deriving DecidableEq, Repr

/-- The bit number of a STATUS flag (R19). -/
def StatusFlag.bit : StatusFlag → Nat
  | .pckHdr => 0
  | .pckTrl => 1
  | .fck => 2
  | .notFound => 3
  | .absent => 4

/-- `STATUS.f`. -/
def State.flag (s : State) (f : StatusFlag) : Bool :=
  s.status.getLsbD f.bit

/-- `STATUS.f <- 1`. -/
def State.setFlag (s : State) (f : StatusFlag) : State :=
  { s with status := s.status ||| (1#8 <<< f.bit) }

/-- `STATUS.f <- 0`. -/
def State.clearFlag (s : State) (f : StatusFlag) : State :=
  { s with status := s.status &&& ~~~(1#8 <<< f.bit) }

/-- `FERR[i] <- 1 ; FERR_COUNT <- FERR_COUNT + 1 ; STATUS.FCK <- 1` (R87 step S8). -/
def State.markFrame (s : State) (i : Nat) : State :=
  { s.setFlag .fck with ferr := s.ferr ||| (1#255 <<< i), ferrCount := s.ferrCount + 1 }

/-- FERRW[k]: bit j is FERR[32*k + j]; bit 31 of FERRW[7] reads 0 (R24). -/
def State.ferrw (s : State) (k : Nat) : BitVec 32 :=
  ((s.ferr.setWidth 256) >>> (32 * k)).setWidth 32

/-- A field is a single-bit flag iff W = 1 and MUL = DIV (R127). -/
def isFlag (w : Nat) (mul div : BitVec 16) : Bool :=
  w == 1 && mul == div

end Sys2Proof.Machine
end

