-- ==== Sys2Proof/Machine/Operands.lean ====
section
/-! DEFINITION. Operand assembly and the number functions of the spec's notation (R12, R61, R77 to R80, R106): pure
functions of operand fields, of a byte buffer and of integers; no state. -/

namespace Sys2Proof.Machine

/-- SIZE is one of 1, 2, 4, 6 (R40, R61). -/
def sizeLegal (size : BitVec 3) : Bool :=
  size.toNat == 1 || size.toNat == 2 || size.toNat == 4 || size.toNat == 6

/-- MASK is `((1 << k) - 1) << s` for some `1 ≤ k ≤ 8`, `0 ≤ s ≤ 8 - k` (R61), so it is also non-zero. -/
def maskContiguous (mask : BitVec 8) : Bool :=
  (List.range 8).any fun j =>
    (List.range (8 - j)).any fun sh => mask.toNat == (2 ^ (j + 1) - 1) * 2 ^ sh

/-- The number of set bits (R12). -/
def popcount (mask : BitVec 8) : Nat :=
  (List.range 8).countP mask.getLsbD

/-- The number of zero bits below the lowest set bit of a non-zero mask (R12). -/
def trailingZeros (mask : BitVec 8) : Nat :=
  (List.range 8).findIdx mask.getLsbD

/-- `pw`, the number of bits a part contributes (R106). -/
def partWidth (mask : BitVec 8) (size : BitVec 3) : Nat :=
  if size.toNat = 1 then popcount mask else 8 * size.toNat

/-- The value a part contributes from the unsigned number its bytes hold: mask, then shift right by the mask's
trailing-zero count, for a one-byte part; the whole number for a wide part (R107). -/
def partValue (mask : BitVec 8) (size : BitVec 3) (u : Nat) : Nat :=
  if size.toNat = 1 then (u &&& mask.toNat) >>> trailingZeros mask else u

/-- `sext_W(v)` for a W-bit pattern `v` (R12). -/
def signExtend (w v : Nat) : Int :=
  if v.testBit (w - 1) then (v : Int) - 2 ^ w else v

/-- `tdiv(p, d)`: the quotient truncated toward zero (R12). -/
def tdiv (p : Int) (d : Nat) : Int :=
  Int.tdiv p d

/-- `trem(p, d) = p - d * tdiv(p, d)` (R12). -/
def trem (p : Int) (d : Nat) : Int :=
  p - d * tdiv p d

/-- The little-endian number of the `n` bytes of `buf` at `o` (R13, R37, R79). -/
def leNat (buf : Nat → Byte) (o : Nat) : Nat → Nat
  | 0 => 0
  | n + 1 => leNat buf o n + (buf (o + n)).toNat * 256 ^ n

/-- `readUInt(buf, o, n)` on a buffer of length `len`; `none` is `OutOfBounds` (R77, R78, R79). -/
def readUInt (buf : Nat → Byte) (len o n : Nat) : Option Nat :=
  if o + n > len then none else some (leNat buf o n)

/-- The Byte Reader's own sign rule: correction at 8 and 16 bits only (R80). -/
def readerSign (n u : Nat) : Int :=
  if n = 1 then signExtend 8 u else if n = 2 then signExtend 16 u else u

/-- `readInt(buf, o, n)`; `none` is `OutOfBounds` (R77, R78, R80). -/
def readInt (buf : Nat → Byte) (len o n : Nat) : Option Int :=
  (readUInt buf len o n).map (readerSign n)

end Sys2Proof.Machine
end

