-- ==== Sys2Proof/Machine/Memory.lean ====
section
/-! DEFINITION. The operations on the four spaces (20_memory.md R36 to R42): one generic sparse memory in canonical
form, and what each space reads as. -/

namespace Sys2Proof.Machine

/-- The content listed at `a`, if any. -/
def Memory.get? {α : Type} : Memory α → Nat → Option α
  | [], _ => none
  | (b, v) :: m, a => if a = b then some v else Memory.get? m a

/-- Write `v` at `a`, keeping the addresses strictly rising. -/
def Memory.set {α : Type} : Memory α → Nat → α → Memory α
  | [], a, v => [(a, v)]
  | (b, u) :: m, a, v =>
    if a < b then (a, v) :: (b, u) :: m
    else if a = b then (b, v) :: m
    else (b, u) :: Memory.set m a v

/-- Addresses strictly rising, from `lo` on, all below `bound`. -/
def Memory.wfFrom {α : Type} (bound : Nat) : Nat → Memory α → Bool
  | _, [] => true
  | lo, (b, _) :: m => decide (lo ≤ b) && decide (b < bound) && Memory.wfFrom bound (b + 1) m

/-- The canonical form of a space of `bound` addresses. -/
def Memory.wf {α : Type} (bound : Nat) (m : Memory α) : Bool :=
  Memory.wfFrom bound 0 m

/-- One byte of RAW (R30); what the host has not written in this run is its launch content, unknown. -/
def State.rawByte (s : State) (a : Nat) : Byte :=
  (s.raw.get? a).getD (Config.rawLaunch a)

/-- `raw(k)`: the byte of RAW at RAW_BASE + k (41_frame_assembler.md, first paragraph). -/
def State.rawAt (s : State) (k : Nat) : Byte :=
  s.rawByte (s.rawBase.toNat + k)

/-- One byte of PAY (R31); unspecified where ASSEMBLE has not written since the last reset. -/
def State.payByte (s : State) (a : Nat) : Byte :=
  (s.pay.get? a).getD (Config.payUnwritten s.resets a)

/-- One word of DESC (R32); what the host has not written in this run is its launch content, unknown. -/
def State.descWord (s : State) (i : Nat) : Word :=
  (s.desc.get? i).getD (Config.descLaunch i)

/-- `MemWrite(PAY, a, 1, v)` (R13, R36). -/
def State.writePay (s : State) (a : Nat) (v : Byte) : State :=
  { s with pay := s.pay.set a v }

/-- `readUInt` of the Byte Reader, whose buffer is PAY with length PAY_LEN (R77). -/
def State.readUInt (s : State) (offset : BitVec 32) (n : Nat) : Option Nat :=
  Machine.readUInt s.payByte s.payLen.toNat offset.toNat n

/-- `readInt` of the Byte Reader on PAY (R77). -/
def State.readInt (s : State) (offset : BitVec 32) (n : Nat) : Option Int :=
  Machine.readInt s.payByte s.payLen.toNat offset.toNat n

end Sys2Proof.Machine
end

