-- ==== Sys2Proof/Machine/Ops.lean ====
section
/-! DEFINITION. The operations the meanings share: fault entry (R161) and what leaves a fault (R88, R141, R163), emit
(R128), the moves of DPC and of the field-group registers, fetch (R117). -/

namespace Sys2Proof.Machine

/-- The numeric code of a fatal error (R148). -/
def Fatal.code : Fatal → BitVec 8
  | .outOfBounds => 1
  | .truncatedPacket => 2
  | .syncError => 7
  | .descriptorError => 8
  | .badCommand => 9
  | .resultOverflow => 10

/-- Fault entry, the effect of `raise F(sub, info)` (R161). Nothing else is written. -/
def State.raise (s : State) (r : Raise) : State :=
  { s with errCode := r.fatal.code, errSub := r.sub, errInfo := r.info, resCount := 0, phase := .fault }

/-- Step S0 of ASSEMBLE (R88) and the clear of CLEAR (R141), which is also how a fault is left (R163). -/
def State.clearPacket (s : State) : State :=
  { s with
    status := 0, errCode := 0, errSub := 0, errInfo := 0
    dst := 0, src := 0, pcmd := 0, nfr := 0, hck := 0
    payLen := 0, consumed := 0, ferr := 0, ferrCount := 0
    dpc := 0, acc := 0, accw := 0, nparts := 0, abs := false, oobp := false, oobDpc := 0
    resCount := 0 }

/-- `ACC <- 0 ; ACCW <- 0 ; NPARTS <- 0 ; ABS <- 0 ; OOBP <- 0 ; OOB_DPC <- 0` (R123, R139). -/
def State.clearGroup (s : State) : State :=
  { s with acc := 0, accw := 0, nparts := 0, abs := false, oobp := false, oobDpc := 0 }

/-- `DPC <- DPC + 1` (R25). -/
def State.advance (s : State) : State :=
  { s with dpc := s.dpc + 1 }

/-- `RES[RES_COUNT] <- rec ; RES_COUNT <- RES_COUNT + 1` (R128). -/
def State.append (s : State) (r : Record) : State :=
  { s with res := s.res.set s.resCount.toNat r, resCount := s.resCount + 1 }

/-- `emit(rec)` (R128). -/
def emit (r : Record) (s : State) : Except Raise State :=
  if s.resCount.toNat = s.par.resCap then .error ⟨.resultOverflow, 0, s.dpc⟩
  else .ok (s.append r)

/-- DescriptorError with sub-code `sub` for the word at DPC (R68, R156). -/
def descriptorError (sub : BitVec 8) (s : State) : Raise :=
  ⟨.descriptorError, sub, s.dpc⟩

/-- A descriptor word ends: its effect, or fault entry on the state before the word, which has written nothing (R162). -/
def complete (s : State) : Except Raise State → Host.Outcome State Fault Refusal
  | .ok t => .next t
  | .error r => .next (s.raise r)

/-- Fetch: the word at DPC, if DPC is below DESC_LEN; otherwise Overrun (R116, R117). -/
def fetch (s : State) : Except Raise Word :=
  if s.dpc.toNat ≥ s.par.descLen then .error (descriptorError 10 s)
  else .ok (s.descWord s.dpc.toNat)

end Sys2Proof.Machine
end

