-- ==== Sys2Proof/Machine/Assembler.lean ====
section
/-! DEFINITION. The Frame Assembler: the command ASSEMBLE, step by step (41_frame_assembler.md R86 to R100). The
checksum functions are an argument, so that a statement can hold for every legal choice of them (U13). -/

namespace Sys2Proof.Machine

/-- Step S5: the header registers, 16-bit fields low byte first (R54, R93). -/
def State.latchHeader (s : State) : State :=
  { s with
    dst := s.rawAt 2 ++ s.rawAt 1
    src := s.rawAt 4 ++ s.rawAt 3
    pcmd := s.rawAt 6 ++ s.rawAt 5
    nfr := s.rawAt 7
    hck := s.rawAt 8 }

/-- `raw(0..7)`, the operand of HDR_CK (R8). -/
def State.headerBytes (s : State) : Vector Byte 8 :=
  #v[s.rawAt 0, s.rawAt 1, s.rawAt 2, s.rawAt 3, s.rawAt 4, s.rawAt 5, s.rawAt 6, s.rawAt 7]

/-- Step S6: the header checksum, a warning (R94). -/
def State.checkHeader (ck : Checks) (s : State) : State :=
  if s.hck ≠ ck.hdrCk s.headerBytes then s.setFlag .pckHdr else s

/-- `need` of step S7 (R95). -/
def needBytes (hasTrailer : Bool) (nfr : Nat) : Nat :=
  9 + 4 * nfr + if hasTrailer then 1 else 0

/-- Frame `i` passes its checksum (R56). -/
def State.frameGood (ck : Checks) (s : State) (i : Nat) : Bool :=
  s.rawAt (12 + 4 * i) == ck.frameCk.fn (s.rawAt (9 + 4 * i)) (s.rawAt (10 + 4 * i)) (s.rawAt (11 + 4 * i))

/-- The body of step S8 for frame `i` (R87, R96, R97). -/
def State.takeFrame (ck : Checks) (i : Nat) (s : State) : State :=
  let t := ((s.writePay (3 * i) (s.rawAt (9 + 4 * i))).writePay (3 * i + 1) (s.rawAt (10 + 4 * i))).writePay
    (3 * i + 2) (s.rawAt (11 + 4 * i))
  if s.frameGood ck i then t else t.markFrame i

/-- Step S8: frames 0 to n - 1 in wire order (R96). -/
def State.takeFrames (ck : Checks) : Nat → State → State
  | 0, s => s
  | n + 1, s => (State.takeFrames ck n s).takeFrame ck n

/-- `raw(0 .. 8 + 4*n)`, the operand of TRAILER_CK (R9). -/
def State.packetBytes (s : State) (n : Nat) : List Byte :=
  (List.range (9 + 4 * n)).map s.rawAt

/-- Step S9: the optional trailing checksum, a warning (R98). -/
def State.checkTrailer (ck : Checks) (n : Nat) (s : State) : State :=
  if s.par.hasTrailer = true ∧ s.rawAt (9 + 4 * n) ≠ ck.trailerCk (s.packetBytes n) then s.setFlag .pckTrl else s

/-- Step S10 (R99). -/
def State.finishPacket (n need : Nat) (s : State) : State :=
  { s with payLen := BitVec.ofNat 10 (3 * n), consumed := BitVec.ofNat 32 need, phase := .assembled }

/-- Steps S7 to S10, the header registers being set (R87). -/
def State.takePacket (ck : Checks) (s : State) : State :=
  let n := s.nfr.toNat
  let need := needBytes s.par.hasTrailer n
  if s.rawLen.toNat < need then s.raise ⟨.truncatedPacket, 0, BitVec.ofNat 32 need⟩
  else ((State.takeFrames ck n s).checkTrailer ck n).finishPacket n need

/-- Steps S1 to S10, on the cleared state (R87). -/
def State.takeWindow (ck : Checks) (s : State) : State :=
  if s.rawBase.toNat + s.rawLen.toNat > s.par.rawSize then s.raise ⟨.badCommand, 3, s.rawLen⟩
  else if s.rawLen.toNat = 0 then s.raise ⟨.truncatedPacket, 0, 1⟩
  else if s.rawAt 0 ≠ s.par.syncByte then s.raise ⟨.syncError, 0, (s.rawAt 0).setWidth 32⟩
  else if s.rawLen.toNat < 9 then s.raise ⟨.truncatedPacket, 0, 9⟩
  else (s.latchHeader.checkHeader ck).takePacket ck

/-- ASSEMBLE for the checksum functions `ck` (R87). -/
def assembleWith (ck : Checks) (s : State) : State :=
  s.clearPacket.takeWindow ck

/-- ASSEMBLE of the instance (R86, R138). -/
def assemble (s : State) : State :=
  assembleWith Config.checks s

end Sys2Proof.Machine
end

