-- ==== Sys2Proof/Machine/Commands.lean ====
section
/-! DEFINITION. The host interface (44_host_interface.md R135 to R146): the CMD port, the register map (R16 to R28,
R34), what the host may read, reset (R169), and one move of the host. -/

namespace Sys2Proof.Machine

/-- The initial clear of DECODE (R139); the decode loop runs from here, one step for each descriptor word. -/
def startDecode (s : State) : State :=
  { ((s.clearFlag .notFound).clearFlag .absent).clearGroup with
    resCount := 0, dpc := s.descBase, phase := .busy }

/-- SKIP (R140). -/
def skip (s : State) : State :=
  { (s.clearFlag .absent).setFlag .notFound with resCount := 0, phase := .done }

/-- CLEAR (R141). -/
def clear (s : State) : State :=
  { s.clearPacket with phase := .idle }

/-- BadCommand for command value `c`, ERR_SUB 1 UnknownCommand when `c` is not 1 to 4, 2 WrongPhase otherwise (R142). -/
def badCommand (c : BitVec 32) : Raise :=
  ⟨.badCommand, if 1 ≤ c.toNat ∧ c.toNat ≤ 4 then 2 else 1, c⟩

/-- A write of `c` to CMD, dispatched by `c` and PHASE (R137, R142). -/
def cmdWrite (c : BitVec 32) (s : State) : Host.Outcome State Fault Refusal :=
  if s.phase = .busy then .refused .hostMoveWhileBusy
  else if c = 1#32 then .next (assemble s)
  else if c = 4#32 then .next (clear s)
  else if s.phase = .fault then .next s
  else if s.phase = .idle then .next (s.raise (badCommand c))
  else if c = 2#32 then .next (startDecode s)
  else if c = 3#32 then .next (skip s)
  else .next (s.raise (badCommand c))

/-- A host write of a register: CMD, RAW_BASE, RAW_LEN, DESC_BASE; any other number has no effect (R16, R17, R34). -/
def writeReg (number : Nat) (v : BitVec 32) (s : State) : Host.Outcome State Fault Refusal :=
  match number with
  | 0x00 => cmdWrite v s
  | 0x05 => .next { s with rawBase := v }
  | 0x06 => .next { s with rawLen := v }
  | 0x07 => .next { s with descBase := v }
  | _ => .next s

/-- The code of PHASE (R18). -/
def Phase.code : Phase → BitVec 3
  | .idle => 0
  | .assembled => 1
  | .done => 2
  | .fault => 3
  | .busy => 4

/-- A host read of a register (R16 to R28); CMD and unassigned numbers read 0 (R34). A read changes nothing (R42). -/
def State.readReg (s : State) (number : Nat) : BitVec 32 :=
  match number with
  | 0x01 => s.phase.code.setWidth 32
  | 0x02 => s.status.setWidth 32
  | 0x03 => 0#16 ++ s.errSub ++ s.errCode
  | 0x04 => s.errInfo
  | 0x05 => s.rawBase
  | 0x06 => s.rawLen
  | 0x07 => s.descBase
  | 0x08 => s.src ++ s.dst
  | 0x09 => s.hck ++ s.nfr ++ s.pcmd
  | 0x0A => s.payLen.setWidth 32
  | 0x0B => s.consumed
  | 0x0C => s.ferrCount.setWidth 32
  | 0x0D => s.resCount.setWidth 32
  | 0x0E => s.dpc
  | 0x10 => s.ferrw 0
  | 0x11 => s.ferrw 1
  | 0x12 => s.ferrw 2
  | 0x13 => s.ferrw 3
  | 0x14 => s.ferrw 4
  | 0x15 => s.ferrw 5
  | 0x16 => s.ferrw 6
  | 0x17 => s.ferrw 7
  | _ => 0

/-- A host read of PAY: bytes below PAY_LEN, in phases ASSEMBLED and DONE (R31, R144). -/
def State.hostReadPay (s : State) (a : Nat) : Option Byte :=
  if (s.phase = .assembled ∨ s.phase = .done) ∧ a < s.payLen.toNat then some (s.payByte a) else none

/-- A host read of RES: records below RES_COUNT, in phase DONE (R33, R144). -/
def State.hostReadRes (s : State) (i : Nat) : Option Record :=
  if s.phase = .done ∧ i < s.resCount.toNat then s.res.get? i else none

/-- Reset (R169): the registers take their reset values, PAY and RES unspecified contents, RAW and DESC are untouched. -/
def applyReset (s : State) : State :=
  { State.reset with par := s.par, raw := s.raw, desc := s.desc, host := s.host, resets := s.resets + 1 }

/-- The registry step of RUN (R143): after an ASSEMBLE that did not fault, look the packet's identity up, then SKIP, or
write DESC_BASE and start a DECODE. -/
def consultWith (registry : BitVec 16 → BitVec 16 → BitVec 16 → Option (BitVec 32)) (s : State) :
    Host.Outcome State Fault Refusal :=
  if s.phase = .fault then .next s
  else
    match registry s.dst s.src s.pcmd with
    | none => cmdWrite 3 s
    | some base => cmdWrite 2 { s with descBase := base }

/-- One move of the host (R135, R146). -/
def hostMove (m : HostMove) (s : State) : Host.Outcome State Fault Refusal :=
  if s.phase = .busy then .refused .hostMoveWhileBusy
  else
    match m with
    | .writeReg number v => writeReg number v s
    | .writeRaw a v => if a < s.par.rawSize then .next { s with raw := s.raw.set a v } else .fault (.noRawAddress a)
    | .writeDesc i w => if i < s.par.descLen then .next { s with desc := s.desc.set i w } else .fault (.noDescIndex i)
    | .consult => consultWith Config.registry s
    | .reset => .next (applyReset s)

/-- The host's next move, taken from its list; with none to come VBFP holds its state (R167, R170). -/
def hostStep (s : State) : Host.Outcome State Fault Refusal :=
  match s.host with
  | [] => .next s
  | m :: rest => hostMove m { s with host := rest }

end Sys2Proof.Machine
end

