-- ==== Sys2Proof/Machine/ByteReader.lean ====
section
/-! DEFINITION. The Byte Reader's descriptor words RDU and RDI (40_byte_reader.md R83, R84). -/

namespace Sys2Proof.Machine

/-- The record of a direct read (R74, R83, R84). -/
def readRecord (tag : BitVec 16) (size : BitVec 3) (v : Int) : Record :=
  { tag := tag, kind := .read, st := .ok, w := 8 * size.toNat, raw := v, quot := v, rem := 0, div := 1, flagv := false }

/-- RDU and RDI after the reserved-bit check: BadSize, OpenField, then the read's result `v` (R83, R84, R160). -/
def readWord (tag : BitVec 16) (size : BitVec 3) (v : Option Int) (s : State) : Except Raise State :=
  if sizeLegal size = false then .error (descriptorError 3 s)
  else if s.nparts ≠ 0#6 then .error (descriptorError 9 s)
  else
    match v with
    | none => .error ⟨.outOfBounds, 0, s.dpc⟩
    | some v =>
      match emit (readRecord tag size v) s with
      | .error r => .error r
      | .ok t => .ok t.advance

/-- RDU tag, off, size: read unsigned (R83). -/
def execRdu (tag : BitVec 16) (offset : BitVec 32) (size : BitVec 3) (s : State) : Host.Outcome State Fault Refusal :=
  complete s (readWord tag size ((s.readUInt offset size.toNat).map Int.ofNat) s)

/-- RDI tag, off, size: read signed by the Byte Reader's rule (R84). -/
def execRdi (tag : BitVec 16) (offset : BitVec 32) (size : BitVec 3) (s : State) : Host.Outcome State Fault Refusal :=
  complete s (readWord tag size (s.readInt offset size.toNat) s)

end Sys2Proof.Machine
end

