-- ==== Sys2Proof/Machine/FieldDecoder.lean ====
section
/-! DEFINITION. The Field Decoder's descriptor words PART, FIELD and END (43_field_decoder.md R121, R123, R129). -/

namespace Sys2Proof.Machine

/-- The part's value enters the accumulator, or its range class is latched (R121, R122). -/
def latchPart (offset : BitVec 32) (mask : BitVec 8) (size : BitVec 3) (s : State) : State :=
  if offset.toNat ≥ s.payLen.toNat then { s with abs := true }
  else
    match s.readUInt offset size.toNat with
    | none => { s with oobp := true, oobDpc := if s.oobp then s.oobDpc else s.dpc }
    | some u => { s with acc := s.acc + BitVec.ofNat 48 (partValue mask size u <<< s.accw.toNat) }

/-- `ACCW <- ACCW + pw ; NPARTS <- NPARTS + 1` (R121). -/
def countPart (pw : Nat) (s : State) : State :=
  { s with accw := s.accw + BitVec.ofNat 6 pw, nparts := s.nparts + 1 }

/-- PART after the reserved-bit check (R121). -/
def partWord (offset : BitVec 32) (mask : BitVec 8) (size : BitVec 3) (s : State) : Except Raise State :=
  if sizeLegal size = false then .error (descriptorError 3 s)
  else if size.toNat = 1 ∧ maskContiguous mask = false then .error (descriptorError 4 s)
  else if size.toNat ≠ 1 ∧ mask ≠ 0xFF#8 then .error (descriptorError 5 s)
  else if s.accw.toNat + partWidth mask size > 48 then .error (descriptorError 6 s)
  else .ok (countPart (partWidth mask size) (latchPart offset mask size s)).advance

/-- PART off, mask, size: extract one part and add it to the accumulator (R121). -/
def execPart (offset : BitVec 32) (mask : BitVec 8) (size : BitVec 3) (s : State) :
    Host.Outcome State Fault Refusal :=
  complete s (partWord offset mask size s)

/-- Sign correction of the composed value at the composed width (R124). -/
def signCorrect (signed : Bool) (w acc : Nat) : Int :=
  if signed then signExtend w acc else acc

/-- The record of an absent field (R74, R123). -/
def absentRecord (tag div : BitVec 16) : Record :=
  { tag := tag, kind := .value, st := .absent, w := 0, raw := 0, quot := 0, rem := 0, div := div, flagv := false }

/-- The record of a field all of whose parts are in range: sign correction, multiply, divide, flag (R123 to R127). -/
def fieldRecord (tag : BitVec 16) (signed : Bool) (mul div : BitVec 16) (w acc : Nat) : Record :=
  let raw := signCorrect signed w acc
  let prod := raw * mul.toNat
  let flag := isFlag w mul div
  { tag := tag
    kind := if flag then .flag else .value
    st := .ok
    w := w
    raw := raw
    quot := tdiv prod div.toNat
    rem := trem prod div.toNat
    div := div
    flagv := flag && acc != 0 }

/-- FIELD after the reserved-bit check (R123). -/
def fieldWord (tag : BitVec 16) (signed : Bool) (mul div : BitVec 16) (s : State) : Except Raise State :=
  if s.nparts = 0#6 then .error (descriptorError 7 s)
  else if div = 0#16 then .error (descriptorError 8 s)
  else if s.abs then
    match emit (absentRecord tag div) s with
    | .error r => .error r
    | .ok t => .ok (t.setFlag .absent).clearGroup.advance
  else if s.oobp then .error ⟨.outOfBounds, 0, s.oobDpc⟩
  else
    match emit (fieldRecord tag signed mul div s.accw.toNat s.acc.toNat) s with
    | .error r => .error r
    | .ok t => .ok t.clearGroup.advance

/-- FIELD tag, S|U, mul, div: close the field group, resolve its range outcome, scale, emit one record (R123). -/
def execField (tag : BitVec 16) (signed : Bool) (mul div : BitVec 16) (s : State) :
    Host.Outcome State Fault Refusal :=
  complete s (fieldWord tag signed mul div s)

/-- END after the reserved-bit check (R129). -/
def endWord (s : State) : Except Raise State :=
  if s.nparts ≠ 0#6 then .error (descriptorError 9 s)
  else .ok { s with phase := .done }

/-- END: finish the descriptor list (R129). -/
def execEnd (s : State) : Host.Outcome State Fault Refusal :=
  complete s (endWord s)

end Sys2Proof.Machine
end

