-- ==== Sys2Proof/Machine/Dispatch.lean ====
section
/-! DEFINITION. exec: one arm for each constructor of Instr. -/

namespace Sys2Proof.Machine

def exec (i : Instr) (s : State) : Host.Outcome State Fault Refusal :=
  match i with
  | .part offset mask size => Sys2Proof.Machine.execPart offset mask size s
  | .field tag signed mul div => Sys2Proof.Machine.execField tag signed mul div s
  | .endList => Sys2Proof.Machine.execEnd s
  | .rdu tag offset size => Sys2Proof.Machine.execRdu tag offset size s
  | .rdi tag offset size => Sys2Proof.Machine.execRdi tag offset size s

end Sys2Proof.Machine
end

