-- ==== Sys2Proof/Machine/Step.lean ====
section
/-! DEFINITION. step: in phase BUSY one step of the decode loop (R116), otherwise the host's next move (R135). -/

namespace Sys2Proof.Machine

/-- One step of the decode loop (R116): fetch, decode, execute; a word that is none raises DescriptorError (R68). -/
def decodeStep (s : State) : Host.Outcome State Fault Refusal :=
  match fetch s with
  | .error r => .next (s.raise r)
  | .ok w =>
    match decodeWord w with
    | .error e => .next (s.raise (descriptorError e.sub s))
    | .ok i => exec i s

/-- One step of the machine. -/
def step (s : State) : Host.Outcome State Fault Refusal :=
  match s.phase with
  | .busy => decodeStep s
  | .idle => hostStep s
  | .assembled => hostStep s
  | .done => hostStep s
  | .fault => hostStep s

/-- The index `step` fetches from once a decode is running: DPC, or 0 where DPC is no index of DESC. -/
def State.fetchIndex (s : State) : BitVec 32 :=
  if s.dpc.toNat < s.par.descLen then s.dpc else 0

/-- The state with the table word `w` of `nbits` bits as the descriptor word the next step fetches and runs: the word is
in DESC at DPC and a DECODE is running (log entry 12). -/
def State.withFetchWord (s : State) (nbits w : Nat) : State :=
  { s with
    phase := .busy
    dpc := s.fetchIndex
    desc := s.desc.set s.fetchIndex.toNat (BitVec.ofNat 64 (w % 2 ^ nbits)) }

end Sys2Proof.Machine
end

