-- ==== Sys2Proof/Machine/Command.lean ====
section
/-! DEFINITION. The untimed view of the host interface (R136): a command as one atomic transition, and the host
procedure RUN (R143). -/

namespace Sys2Proof.Machine

/-- Repeat the decode loop's step while PHASE is BUSY, at most `n` times (R116, R118, R139). -/
def settle : Nat → State → State
  | 0, s => s
  | n + 1, s =>
    match s.phase with
    | .busy =>
      match decodeStep s with
      | .next t => settle n t
      | .fault _ => s
      | .refused _ => s
    | .idle => s
    | .assembled => s
    | .done => s
    | .fault => s

/-- The bound of R118 on the steps of one DECODE from `base`. -/
def decodeFuel (descLen base : Nat) : Nat :=
  descLen - base + 1

/-- DECODE as one transition (R136, R139). -/
def decodeCommand (s : State) : State :=
  settle (decodeFuel s.par.descLen s.descBase.toNat) (startDecode s)

/-- A CMD write as one transition (R136, R137). In phase BUSY the host has no such move (R146, U6), and the state is left as
it is: DESIGN CHOICE, unsafe (log entry 20). -/
def command (c : BitVec 32) (s : State) : State :=
  match cmdWrite c s with
  | .next t => settle (decodeFuel t.par.descLen t.dpc.toNat) t
  | .fault _ => s
  | .refused _ => s

/-- What RUN returns (R143). -/
inductive RunResult
  | failure (errCode errSub : BitVec 8) (errInfo : BitVec 32)
  | success (dst src pcmd : BitVec 16) (nfr : BitVec 8) (assembleStatus ferrCount : BitVec 8) (ferr : BitVec 255)
      (status : BitVec 8) (records : List (Option Record))
deriving DecidableEq, Repr

/-- `RES[0 .. RES_COUNT-1]` as the host reads it. -/
def State.records (s : State) : List (Option Record) :=
  (List.range s.resCount.toNat).map s.hostReadRes

/-- `Failure(ERR_CODE, ERR_SUB, ERR_INFO)`. -/
def State.failure (s : State) : RunResult :=
  .failure s.errCode s.errSub s.errInfo

/-- RUN after ASSEMBLE has given `s` (R143). -/
def runFrom (registry : BitVec 16 → BitVec 16 → BitVec 16 → Option (BitVec 32)) (s : State) : State × RunResult :=
  if s.phase = .fault then (s, s.failure)
  else
    let t := match registry s.dst s.src s.pcmd with
      | none => command 3 s
      | some base => command 2 { s with descBase := base }
    if t.phase = .fault then (t, t.failure)
    else (t, .success s.dst s.src s.pcmd s.nfr s.status s.ferrCount s.ferr t.status t.records)

/-- RUN(window, REGISTRY), the host procedure (R143), for the checksum functions `ck`. In phase BUSY the host has no such
move (R146, U6); PHASE is not tested here, and RUN does there what it does in every other phase: DESIGN CHOICE, unsafe (log
entry 20). -/
def runWith (ck : Checks) (registry : BitVec 16 → BitVec 16 → BitVec 16 → Option (BitVec 32)) (base len : BitVec 32)
    (s : State) : State × RunResult :=
  runFrom registry (assembleWith ck { s with rawBase := base, rawLen := len })

/-- RUN of the instance (R143). -/
def run (base len : BitVec 32) (s : State) : State × RunResult :=
  runWith Config.checks Config.registry base len s

end Sys2Proof.Machine
end

