-- ==== Sys2Proof/WellFormed.lean ====
section
/-! DEFINITION. Which descriptor words and which descriptor lists are well-formed (R61, R63, R68, R70). -/

namespace Sys2Proof

/-- Legal SIZE and MASK of a PART (R61): one byte with a non-zero contiguous mask, or 2, 4 or 6 bytes with mask 0xFF. -/
def partLegal (mask : BitVec 8) (size : BitVec 3) : Bool :=
  Machine.sizeLegal size &&
    (if size.toNat = 1 then Machine.maskContiguous mask else mask == 0xFF#8)

/-- The checks of R68 that look at one word alone. -/
def Instr.wf : Instr → Bool
  | .part _ mask size => partLegal mask size
  | .field _ _ _ div => div != 0#16
  | .endList => true
  | .rdu _ _ size => Machine.sizeLegal size
  | .rdi _ _ size => Machine.sizeLegal size

/-- R70 read from inside a list: `n` PART words of the field group in progress have contributed `w` bits. The words to
come complete zero or more items and one END, every word legal, no group wider than 48 bits. -/
def listWfFrom : Nat → Nat → List Instr → Bool
  | _, _, [] => false
  | n, w, .part offset mask size :: rest =>
    (Instr.part offset mask size).wf && decide (w + Machine.partWidth mask size ≤ 48) &&
      listWfFrom (n + 1) (w + Machine.partWidth mask size) rest
  | n, _, .field tag signed mul div :: rest =>
    (Instr.field tag signed mul div).wf && decide (0 < n) && listWfFrom 0 0 rest
  | n, _, .endList :: rest => decide (n = 0) && rest.isEmpty
  | n, _, .rdu tag offset size :: rest =>
    (Instr.rdu tag offset size).wf && decide (n = 0) && listWfFrom 0 0 rest
  | n, _, .rdi tag offset size :: rest =>
    (Instr.rdi tag offset size).wf && decide (n = 0) && listWfFrom 0 0 rest

/-- A well-formed descriptor list (R70). -/
def listWf (l : List Instr) : Bool :=
  listWfFrom 0 0 l

end Sys2Proof
end

