-- ==== Sys2Proof/Machine/FieldModel.lean ====
section
/-! DEFINITION. The mathematics of a field, independent of descriptor words (42_field_spec_registry.md R105 to R112), how
a field is written as descriptor words (R71), the abbreviations of R76 and the textual notation of R75. -/

namespace Sys2Proof.Machine

/-- FieldPart: the triple (off, mask, size) of a PART word (R105). -/
structure FieldPart where
  offset : BitVec 32
  mask : BitVec 8
  size : BitVec 3
deriving DecidableEq, Repr

/-- FieldSpec: (parts, signed, mul, div, tag) (R105). -/
structure FieldSpec where
  parts : List FieldPart
  signed : Bool
  mul : BitVec 16
  div : BitVec 16
  tag : BitVec 16
deriving DecidableEq, Repr

/-- `pw(part)` (R106). -/
def FieldPart.pw (p : FieldPart) : Nat :=
  partWidth p.mask p.size

/-- `pv(part, P)` for a payload `P` (R107). -/
def FieldPart.pv (p : FieldPart) (P : Nat → Byte) : Nat :=
  partValue p.mask p.size (leNat P p.offset.toNat p.size.toNat)

/-- The three range classes of a part against a payload of length `len` (R122). -/
def FieldPart.isAbsent (p : FieldPart) (len : Nat) : Bool :=
  decide (len ≤ p.offset.toNat)

def FieldPart.inRange (p : FieldPart) (len : Nat) : Bool :=
  decide (p.offset.toNat + p.size.toNat ≤ len)

def FieldPart.straddles (p : FieldPart) (len : Nat) : Bool :=
  decide (p.offset.toNat < len) && decide (len < p.offset.toNat + p.size.toNat)

/-- `W`, the sum of the parts' widths (R108). -/
def composedWidth : List FieldPart → Nat
  | [] => 0
  | p :: ps => p.pw + composedWidth ps

/-- `comp`, the parts' values shifted by the cumulative width of the parts before them, `cum` for the first (R108). -/
def composeFrom (P : Nat → Byte) : Nat → List FieldPart → Nat
  | _, [] => 0
  | cum, p :: ps => p.pv P <<< cum + composeFrom P (cum + p.pw) ps

/-- `comp` of a part list (R108). -/
def compose (P : Nat → Byte) (ps : List FieldPart) : Nat :=
  composeFrom P 0 ps

/-- The PART word of a part (R71). -/
def FieldPart.word (p : FieldPart) : Instr :=
  .part p.offset p.mask p.size

/-- The FIELD word of a field (R71). -/
def FieldSpec.word (f : FieldSpec) : Instr :=
  .field f.tag f.signed f.mul f.div

/-- A FieldSpec as a field group: its PART words in order, then one FIELD word (R71). -/
def FieldSpec.group (f : FieldSpec) : List Instr :=
  f.parts.map FieldPart.word ++ [f.word]

/-- A registry entry as a descriptor list: the field groups in order, then END (R71). -/
def descriptorList (fs : List FieldSpec) : List Instr :=
  fs.flatMap FieldSpec.group ++ [.endList]

/-- A field that can be written as a well-formed field group (R70, R105, R110). -/
def FieldSpec.wf (f : FieldSpec) : Bool :=
  !f.parts.isEmpty && f.parts.all (fun p => partLegal p.mask p.size) &&
    decide (composedWidth f.parts ≤ 48) && f.div != 0#16

/-! ### The abbreviations of R76 -/

/-- One whole part of `size` bytes. -/
def wholePart (signed : Bool) (size : BitVec 3) (tag : BitVec 16) (offset : BitVec 32) (mul div : BitVec 16) :
    List Instr :=
  [.part offset 0xFF#8 size, .field tag signed mul div]

def pseudoU8 (tag : BitVec 16) (offset : BitVec 32) (mul div : BitVec 16) : List Instr :=
  wholePart false 1 tag offset mul div

def pseudoU16 (tag : BitVec 16) (offset : BitVec 32) (mul div : BitVec 16) : List Instr :=
  wholePart false 2 tag offset mul div

def pseudoU32 (tag : BitVec 16) (offset : BitVec 32) (mul div : BitVec 16) : List Instr :=
  wholePart false 4 tag offset mul div

def pseudoU48 (tag : BitVec 16) (offset : BitVec 32) (mul div : BitVec 16) : List Instr :=
  wholePart false 6 tag offset mul div

def pseudoS8 (tag : BitVec 16) (offset : BitVec 32) (mul div : BitVec 16) : List Instr :=
  wholePart true 1 tag offset mul div

def pseudoS16 (tag : BitVec 16) (offset : BitVec 32) (mul div : BitVec 16) : List Instr :=
  wholePart true 2 tag offset mul div

def pseudoBits (tag : BitVec 16) (offset : BitVec 32) (mask : BitVec 8) (mul div : BitVec 16) : List Instr :=
  [.part offset mask 1, .field tag false mul div]

def pseudoFlag (tag : BitVec 16) (offset : BitVec 32) (bit : BitVec 3) : List Instr :=
  [.part offset (1#8 <<< bit.toNat) 1, .field tag false 1 1]

/-! ### The textual notation of R75, numbers in decimal -/

def commaJoin : List Nat → String
  | [] => ""
  | [n] => toString n
  | n :: ns => toString n ++ ", " ++ commaJoin ns

def instrText : Instr → String
  | .part offset mask size => "PART " ++ commaJoin [offset.toNat, mask.toNat, size.toNat]
  | .field tag signed mul div =>
    "FIELD " ++ toString tag.toNat ++ (if signed then ", S, " else ", U, ") ++ commaJoin [mul.toNat, div.toNat]
  | .endList => "END"
  | .rdu tag offset size => "RDU " ++ commaJoin [tag.toNat, offset.toNat, size.toNat]
  | .rdi tag offset size => "RDI " ++ commaJoin [tag.toNat, offset.toNat, size.toNat]

end Sys2Proof.Machine
end

