-- ==== Sys2Proof/Safety.lean ====
section
/-! DEFINITION. What a good state of VBFP is, in the terms the statements use: the invariants the spec states of its
registers and memories, each kept by every step, and the state fault entry leaves. -/

namespace Sys2Proof.Machine

/-- The state fault entry leaves (R161), written out. -/
def State.faulted (s : State) (code sub : BitVec 8) (info : BitVec 32) : State :=
  { s with errCode := code, errSub := sub, errInfo := info, resCount := 0, phase := .fault }

/-- The four spaces are in canonical form inside their sizes (R30 to R33), RES_COUNT is in its range (R28), and the
parameters are legal (R11). -/
structure State.MemoryOk (s : State) : Prop where
  par : s.par.wf = true
  raw : s.raw.wf s.par.rawSize = true
  pay : s.pay.wf Config.payMax = true
  desc : s.desc.wf s.par.descLen = true
  res : s.res.wf s.par.resCap = true
  count : s.resCount.toNat ≤ s.par.resCap

/-- The invariants of the field-group registers between descriptor words (R26, R27). -/
structure State.DecoderOk (s : State) : Prop where
  accLt : s.acc.toNat < 2 ^ s.accw.toNat
  accwLe : s.accw.toNat ≤ 48
  npartsLe : s.nparts.toNat ≤ s.accw.toNat
  clean : s.nparts = 0#6 → s.accw = 0#6 ∧ s.abs = false ∧ s.oobp = false
  latch : s.oobp = false → s.oobDpc = 0#32

/-- ERR_CODE, ERR_SUB, ERR_INFO and RES_COUNT in and out of phase FAULT (R20, R21, R148, R161). -/
structure State.FaultRecordOk (s : State) : Prop where
  quiet : s.phase ≠ .fault → s.errCode = 0#8 ∧ s.errSub = 0#8 ∧ s.errInfo = 0#32
  code : s.phase = .fault →
    s.errCode = 1#8 ∨ s.errCode = 2#8 ∨ s.errCode = 7#8 ∨ s.errCode = 8#8 ∨ s.errCode = 9#8 ∨ s.errCode = 10#8
  sub : s.phase = .fault →
    (s.errCode = 8#8 → 1 ≤ s.errSub.toNat ∧ s.errSub.toNat ≤ 10) ∧
    (s.errCode = 9#8 → 1 ≤ s.errSub.toNat ∧ s.errSub.toNat ≤ 3) ∧
    (s.errCode ≠ 8#8 → s.errCode ≠ 9#8 → s.errSub = 0#8)
  emptied : s.phase = .fault → s.resCount = 0#17

/-- The packet's registers (R18, R19, R22, R23, R24, R144). -/
structure State.PacketOk (s : State) : Prop where
  len : s.payLen.toNat = 0 ∨ s.payLen.toNat = 3 * s.nfr.toNat
  assembled : s.phase = .assembled ∨ s.phase = .done ∨ s.phase = .busy →
    s.payLen.toNat = 3 * s.nfr.toNat ∧ s.consumed.toNat = needBytes s.par.hasTrailer s.nfr.toNat
  idle : s.phase = .idle →
    s.status = 0#8 ∧ s.dst = 0#16 ∧ s.src = 0#16 ∧ s.pcmd = 0#16 ∧ s.nfr = 0#8 ∧ s.hck = 0#8 ∧ s.payLen = 0#10 ∧
      s.consumed = 0#32 ∧ s.dpc = 0#32 ∧ s.resCount = 0#17
  listed : ∀ a, a < s.payLen.toNat → (s.pay.get? a).isSome = true
  ferrHigh : ∀ i, s.nfr.toNat ≤ i → s.ferr.getLsbD i = false
  ferrCount : s.ferrCount.toNat = (List.range 255).countP s.ferr.getLsbD
  fck : s.flag .fck = (s.ferrCount != 0#8)
  reserved : s.status.toNat < 32
  trailer : s.flag .pckTrl = true → s.par.hasTrailer = true
  notFound : s.flag .notFound = true → s.resCount = 0#17 ∧ (s.phase = .done ∨ s.phase = .fault)

/-- The ranges and meanings of a record's members (R73, R74, R127). -/
structure Record.Ok (r : Record) : Prop where
  absent : r.st = .absent →
    r.kind = .value ∧ r.w = 0 ∧ r.raw = 0 ∧ r.quot = 0 ∧ r.rem = 0 ∧ r.flagv = false
  width : r.st = .ok → 1 ≤ r.w ∧ r.w ≤ 48
  rawRange : -(2 ^ 47) ≤ r.raw ∧ r.raw < 2 ^ 48
  quotRange : -(2 ^ 64) < r.quot ∧ r.quot < 2 ^ 64
  divPos : r.div ≠ 0#16
  remLt : -(r.div.toNat : Int) < r.rem ∧ r.rem < r.div.toNat
  remSign : (0 < r.raw → 0 ≤ r.rem) ∧ (r.raw < 0 → r.rem ≤ 0)
  read : r.kind = .read → r.st = .ok ∧ r.quot = r.raw ∧ r.rem = 0 ∧ r.div = 1#16
  flag : r.kind = .flag → r.st = .ok ∧ r.w = 1 ∧ (r.flagv = true ↔ r.raw ≠ 0)
  noFlag : r.kind ≠ .flag → r.flagv = false

/-- The result list (R19, R28, R33, R73). -/
structure State.ResultOk (s : State) : Prop where
  records : ∀ i, i < s.resCount.toNat → ∃ r, s.res.get? i = some r ∧ r.Ok
  absentFlag : s.phase ≠ .fault →
    (s.flag .absent = true ↔ ∃ i r, i < s.resCount.toNat ∧ s.res.get? i = some r ∧ r.st = .absent)

/-- The invariant of the machine. -/
structure State.Inv (s : State) : Prop where
  memory : s.MemoryOk
  decoder : s.DecoderOk
  faultRecord : s.FaultRecordOk
  packet : s.PacketOk
  result : s.ResultOk

/-- Words of DESC from index `i` on hold the encodings of `l`, all inside DESC. -/
def State.holdsList (s : State) (i : Nat) (l : List Instr) : Prop :=
  i + l.length ≤ s.par.descLen ∧ ∀ k (h : k < l.length), s.descWord (i + k) = encode l[k]

/-- No field group is open (R26, R27). -/
def State.groupClosed (s : State) : Prop :=
  s.acc = 0#48 ∧ s.accw = 0#6 ∧ s.nparts = 0#6 ∧ s.abs = false ∧ s.oobp = false ∧ s.oobDpc = 0#32

end Sys2Proof.Machine
end

