-- ==== Sys2Proof/Certificates/Slice0/Obligations.lean ====
section
/-! DEFINITION. The statements for the provers, from the spec's numbered rules. -/

open Sys2Proof Sys2Proof.Machine

/-! ### Encoding -/

/-- Decoding an encoded instruction gives it back, every operand at every value the encoding admits (R59 to R66). -/
def Obligations.DecodeOfEncode : Prop :=
  ∀ i : Instr, decodeWord (encode i) = .ok i

/-- A word that decodes is the encoding of what it decodes to: each word has one meaning (R59 to R67). -/
def Obligations.EncodeOfDecode : Prop :=
  ∀ (w : Word) (i : Instr), decodeWord w = .ok i → encode i = w

/-- The opcode map (R67). -/
def Obligations.OpAloneSelects : Prop :=
  (∀ w : Word, decodeWord w = .error .illegalOp ↔ w.toNat / 2 ^ 60 = 0 ∨ 6 ≤ w.toNat / 2 ^ 60) ∧
  (∀ (w : Word) (i : Instr), decodeWord w = .ok i →
    match i with
    | .part _ _ _ => w.toNat / 2 ^ 60 = 1
    | .field _ _ _ _ => w.toNat / 2 ^ 60 = 2
    | .endList => w.toNat / 2 ^ 60 = 3
    | .rdu _ _ _ => w.toNat / 2 ^ 60 = 4
    | .rdi _ _ _ => w.toNat / 2 ^ 60 = 5) ∧
  decodeWord 0x0000000000000000#64 = .error .illegalOp ∧ decodeWord 0xFFFFFFFFFFFFFFFF#64 = .error .illegalOp

/-- The reserved bits of each format (R60, R62, R64, R65, R66) and that a 1 there is ReservedBits (R68). -/
def Obligations.ReservedBitsRejected : Prop :=
  ∀ w : Word, decodeWord w = .error .reservedBits ↔
    (w.toNat / 2 ^ 60 = 1 ∧ w.toNat / 2 ^ 43 % 2 ^ 17 ≠ 0) ∨
    (w.toNat / 2 ^ 60 = 2 ∧ w.toNat / 2 ^ 49 % 2 ^ 11 ≠ 0) ∨
    (w.toNat / 2 ^ 60 = 3 ∧ w.toNat % 2 ^ 60 ≠ 0) ∨
    ((w.toNat / 2 ^ 60 = 4 ∨ w.toNat / 2 ^ 60 = 5) ∧
      (w.toNat / 2 ^ 59 % 2 ≠ 0 ∨ w.toNat / 2 ^ 32 % 2 ^ 8 ≠ 0))

/-- Where each operand stands in its word (R60, R62, R65, R66). -/
def Obligations.OperandsAreWordFields : Prop :=
  ∀ (w : Word) (i : Instr), decodeWord w = .ok i →
    match i with
    | .part offset mask size =>
      offset.toNat = w.toNat % 2 ^ 32 ∧ mask.toNat = w.toNat / 2 ^ 32 % 2 ^ 8 ∧ size.toNat = w.toNat / 2 ^ 40 % 2 ^ 3
    | .field tag signed mul div =>
      mul.toNat = w.toNat % 2 ^ 16 ∧ div.toNat = w.toNat / 2 ^ 16 % 2 ^ 16 ∧ tag.toNat = w.toNat / 2 ^ 32 % 2 ^ 16 ∧
        (signed = true ↔ w.toNat / 2 ^ 48 % 2 = 1)
    | .endList => w.toNat = 3 * 2 ^ 60
    | .rdu tag offset size =>
      offset.toNat = w.toNat % 2 ^ 32 ∧ size.toNat = w.toNat / 2 ^ 40 % 2 ^ 3 ∧ tag.toNat = w.toNat / 2 ^ 43 % 2 ^ 16
    | .rdi tag offset size =>
      offset.toNat = w.toNat % 2 ^ 32 ∧ size.toNat = w.toNat / 2 ^ 40 % 2 ^ 3 ∧ tag.toNat = w.toNat / 2 ^ 43 % 2 ^ 16

/-- Words the spec writes out (R64, R75, and programs P1 and P5 of 95_test_vectors.md). -/
def Obligations.SampleWordsDecode : Prop :=
  decodeWord 0x100002FF00000000#64 = .ok (.part 0#32 0xFF#8 2#3) ∧
  decodeWord 0x20010001000A0001#64 = .ok (.field 1#16 true 1#16 10#16) ∧
  decodeWord 0x3000000000000000#64 = .ok .endList ∧
  decodeWord 0x40010A0000000000#64 = .ok (.rdu 0x21#16 0#32 2#3) ∧
  decodeWord 0x5001520000000004#64 = .ok (.rdi 0x2A#16 4#32 2#3)

/-! ### One step of the decode loop -/

/-- In phase BUSY a step runs the word at DPC (R116). The phase of a running DECODE is the model's (log entry 4). -/
def Obligations.StepRunsDecodedWord : Prop :=
  ∀ (s : State) (i : Instr), s.phase = .busy → s.dpc.toNat < s.par.descLen →
    decodeWord (s.descWord s.dpc.toNat) = .ok i → step s = exec i s

/-- No word at DPC, or a word that is none of the format, raises DescriptorError 10, 1 or 2 (R68, R116, R117). -/
def Obligations.IllegalWordFaults : Prop :=
  ∀ s : State, s.phase = .busy →
    (s.par.descLen ≤ s.dpc.toNat → step s = .next (s.faulted 8 10 s.dpc)) ∧
    (s.dpc.toNat < s.par.descLen → decodeWord (s.descWord s.dpc.toNat) = .error .illegalOp →
      step s = .next (s.faulted 8 1 s.dpc)) ∧
    (s.dpc.toNat < s.par.descLen → decodeWord (s.descWord s.dpc.toNat) = .error .reservedBits →
      step s = .next (s.faulted 8 2 s.dpc))

/-- `withFetchWord` places a word so that the next step runs it (the model's own; log entry 12). -/
def Obligations.FetchWordRunsNext : Prop :=
  ∀ (s : State) (i : Instr), 0 < s.par.descLen →
    step (s.withFetchWord 64 (encode i).toNat) = exec i (s.withFetchWord 64 (encode i).toNat)

/-! ### PART -/

/-- A contiguous mask `((1 << k) - 1) << sh` has width k, shift sh and selects bits sh to sh + k - 1; a mask is accepted
only if it has that form (R61, R106, R107). -/
def Obligations.MaskSelectsBits : Prop :=
  (∀ k sh : Nat, 1 ≤ k → sh + k ≤ 8 →
    maskContiguous (BitVec.ofNat 8 ((2 ^ k - 1) * 2 ^ sh)) = true ∧
    partWidth (BitVec.ofNat 8 ((2 ^ k - 1) * 2 ^ sh)) 1 = k ∧
    ∀ b : Byte, partValue (BitVec.ofNat 8 ((2 ^ k - 1) * 2 ^ sh)) 1 b.toNat = b.toNat / 2 ^ sh % 2 ^ k) ∧
  (∀ mask : BitVec 8, maskContiguous mask = true →
    ∃ k sh : Nat, 1 ≤ k ∧ sh + k ≤ 8 ∧ mask.toNat = (2 ^ k - 1) * 2 ^ sh)

/-- A legal PART whose bytes lie inside the payload adds its value at the cumulative bit offset and counts itself; it
changes nothing else (R121, R122 in range). -/
def Obligations.PartInRangeAccumulates : Prop :=
  ∀ (p : FieldPart) (s : State), s.DecoderOk → partLegal p.mask p.size = true → s.accw.toNat + p.pw ≤ 48 →
    p.offset.toNat + p.size.toNat ≤ s.payLen.toNat →
    ∃ t, exec (.part p.offset p.mask p.size) s = .next t ∧
      t.acc.toNat = s.acc.toNat + p.pv s.payByte * 2 ^ s.accw.toNat ∧
      t.accw.toNat = s.accw.toNat + p.pw ∧
      t.nparts.toNat = s.nparts.toNat + 1 ∧
      t.dpc = s.dpc + 1 ∧
      t = { s with acc := t.acc, accw := t.accw, nparts := t.nparts, dpc := t.dpc }

/-- A legal PART out of range latches ABS (offset at or beyond PAY_LEN) or OOBP (it starts inside and ends outside), keeps
the first straddling DPC, and still counts itself; it changes nothing else (R121, R122). -/
def Obligations.PartOutOfRangeLatches : Prop :=
  ∀ (p : FieldPart) (s : State), s.DecoderOk → partLegal p.mask p.size = true → s.accw.toNat + p.pw ≤ 48 →
    s.payLen.toNat < p.offset.toNat + p.size.toNat →
    ∃ t, exec (.part p.offset p.mask p.size) s = .next t ∧
      t.accw.toNat = s.accw.toNat + p.pw ∧
      t.nparts.toNat = s.nparts.toNat + 1 ∧
      (s.payLen.toNat ≤ p.offset.toNat →
        t = { s with abs := true, accw := t.accw, nparts := t.nparts, dpc := s.dpc + 1 }) ∧
      (p.offset.toNat < s.payLen.toNat →
        t = { s with
          oobp := true, oobDpc := (if s.oobp = true then s.oobDpc else s.dpc)
          accw := t.accw, nparts := t.nparts, dpc := s.dpc + 1 })

/-- The faults of PART: BadSize, BadMask, WideMask, WidthOverflow, each with the faulting word's DPC (R68, R121, R160). -/
def Obligations.IllFormedPartFaults : Prop :=
  ∀ (p : FieldPart) (s : State),
    (¬(p.size.toNat = 1 ∨ p.size.toNat = 2 ∨ p.size.toNat = 4 ∨ p.size.toNat = 6) →
      exec (.part p.offset p.mask p.size) s = .next (s.faulted 8 3 s.dpc)) ∧
    (p.size.toNat = 1 → (¬∃ k sh : Nat, 1 ≤ k ∧ sh + k ≤ 8 ∧ p.mask.toNat = (2 ^ k - 1) * 2 ^ sh) →
      exec (.part p.offset p.mask p.size) s = .next (s.faulted 8 4 s.dpc)) ∧
    (p.size.toNat = 2 ∨ p.size.toNat = 4 ∨ p.size.toNat = 6 → p.mask ≠ 0xFF#8 →
      exec (.part p.offset p.mask p.size) s = .next (s.faulted 8 5 s.dpc)) ∧
    (partLegal p.mask p.size = true → 48 < s.accw.toNat + p.pw →
      exec (.part p.offset p.mask p.size) s = .next (s.faulted 8 6 s.dpc))

/-! ### FIELD -/

/-- FIELD of a group all of whose parts were in range: the record's members by the rules of sign correction, scaling and
flags, the group's registers cleared, DPC advanced, nothing else changed (R123 to R128). -/
def Obligations.FieldEmitsValue : Prop :=
  ∀ (tag : BitVec 16) (signed : Bool) (mul div : BitVec 16) (s : State), s.DecoderOk → s.par.wf = true →
    s.nparts ≠ 0#6 → div ≠ 0#16 → s.abs = false → s.oobp = false → s.resCount.toNat < s.par.resCap →
    ∃ t r, exec (.field tag signed mul div) s = .next t ∧
      t.res.get? s.resCount.toNat = some r ∧ r.tag = tag ∧ r.st = .ok ∧ r.w = s.accw.toNat ∧ r.div = div ∧
      r.raw = (if signed = true ∧ 2 ^ (s.accw.toNat - 1) ≤ s.acc.toNat then (s.acc.toNat : Int) - 2 ^ s.accw.toNat
        else s.acc.toNat) ∧
      r.quot * div.toNat + r.rem = r.raw * mul.toNat ∧
      -(div.toNat : Int) < r.rem ∧ r.rem < div.toNat ∧
      (0 ≤ r.raw * mul.toNat → 0 ≤ r.rem) ∧ (r.raw * mul.toNat ≤ 0 → r.rem ≤ 0) ∧
      r.kind = (if s.accw.toNat = 1 ∧ mul = div then .flag else .value) ∧
      (r.flagv = true ↔ s.accw.toNat = 1 ∧ mul = div ∧ s.acc ≠ 0#48) ∧
      t.resCount.toNat = s.resCount.toNat + 1 ∧
      (∀ j, j ≠ s.resCount.toNat → t.res.get? j = s.res.get? j) ∧
      t = { s with
        res := t.res, resCount := t.resCount
        acc := 0, accw := 0, nparts := 0, abs := false, oobp := false, oobDpc := 0
        dpc := s.dpc + 1 }

/-- FIELD of a group with an absent part: one ABSENT record, STATUS.ABSENT set, the group's registers cleared, DPC
advanced, nothing else changed; a straddling part beside it makes no difference (R74, R123, R128, R154). -/
def Obligations.FieldEmitsAbsent : Prop :=
  ∀ (tag : BitVec 16) (signed : Bool) (mul div : BitVec 16) (s : State), s.par.wf = true →
    s.nparts ≠ 0#6 → div ≠ 0#16 → s.abs = true → s.resCount.toNat < s.par.resCap →
    ∃ t, exec (.field tag signed mul div) s = .next t ∧
      t.res.get? s.resCount.toNat = some ⟨tag, .value, .absent, 0, 0, 0, 0, div, false⟩ ∧
      t.resCount.toNat = s.resCount.toNat + 1 ∧
      (∀ j, j ≠ s.resCount.toNat → t.res.get? j = s.res.get? j) ∧
      (∀ b, t.status.getLsbD b = (s.status.getLsbD b || b == 4)) ∧
      t = { s with
        res := t.res, resCount := t.resCount, status := t.status
        acc := 0, accw := 0, nparts := 0, abs := false, oobp := false, oobDpc := 0
        dpc := s.dpc + 1 }

/-- The faults of FIELD in their order: EmptyField, ZeroDivisor, OutOfBounds unless absent, ResultOverflow (R68, R123,
R128, R160). -/
def Obligations.FieldFaults : Prop :=
  ∀ (tag : BitVec 16) (signed : Bool) (mul div : BitVec 16) (s : State),
    (s.nparts = 0#6 → exec (.field tag signed mul div) s = .next (s.faulted 8 7 s.dpc)) ∧
    (s.nparts ≠ 0#6 → div = 0#16 → exec (.field tag signed mul div) s = .next (s.faulted 8 8 s.dpc)) ∧
    (s.nparts ≠ 0#6 → div ≠ 0#16 → s.abs = false → s.oobp = true →
      exec (.field tag signed mul div) s = .next (s.faulted 1 0 s.oobDpc)) ∧
    (s.nparts ≠ 0#6 → div ≠ 0#16 → (s.abs = true ∨ s.oobp = false) → s.resCount.toNat = s.par.resCap →
      exec (.field tag signed mul div) s = .next (s.faulted 10 0 s.dpc))

/-- Sign correction at the composed width, whatever it is (R124). -/
def Obligations.SignAtComposedWidth : Prop :=
  ∀ w acc : Nat, 1 ≤ w → w ≤ 48 → acc < 2 ^ w →
    signCorrect false w acc = acc ∧
    (acc < 2 ^ (w - 1) → signCorrect true w acc = acc) ∧
    (2 ^ (w - 1) ≤ acc → signCorrect true w acc = (acc : Int) - 2 ^ w) ∧
    -(2 ^ (w - 1)) ≤ signCorrect true w acc ∧ signCorrect true w acc < 2 ^ (w - 1)

/-- The multiply-divide pipeline is exact (R125): the product fits, and quotient and remainder are those of truncation. -/
def Obligations.ScalerIsExact : Prop :=
  ∀ (raw : Int) (mul div : BitVec 16), -(2 ^ 47) ≤ raw → raw ≤ 2 ^ 48 - 1 → div ≠ 0#16 →
    -(2 ^ 64) < raw * mul.toNat ∧ raw * mul.toNat < 2 ^ 64 ∧
    raw * mul.toNat = tdiv (raw * mul.toNat) div.toNat * div.toNat + trem (raw * mul.toNat) div.toNat ∧
    -(div.toNat : Int) < trem (raw * mul.toNat) div.toNat ∧ trem (raw * mul.toNat) div.toNat < div.toNat ∧
    (0 < raw → 0 ≤ tdiv (raw * mul.toNat) div.toNat ∧ 0 ≤ trem (raw * mul.toNat) div.toNat) ∧
    (raw < 0 → tdiv (raw * mul.toNat) div.toNat ≤ 0 ∧ trem (raw * mul.toNat) div.toNat ≤ 0) ∧
    (raw = 0 ∨ mul = 0#16 → tdiv (raw * mul.toNat) div.toNat = 0 ∧ trem (raw * mul.toNat) div.toNat = 0)

/-! ### END, RDU, RDI -/

/-- END with no open field group ends the DECODE, leaving DPC at the END word and everything else unchanged (R129). -/
def Obligations.EndFinishes : Prop :=
  ∀ s : State, s.nparts = 0#6 → exec .endList s = .next { s with phase := .done }

/-- A word with OP = 3 at DPC (R129). That a running DECODE is in phase BUSY and a step runs the word at DPC is the model's
(log entry 4). -/
def Obligations.EndWordAtDpc : Prop :=
  ∀ s : State, s.phase = .busy → s.dpc.toNat < s.par.descLen → (s.descWord s.dpc.toNat).toNat / 2 ^ 60 = 3 →
    ((s.descWord s.dpc.toNat).toNat % 2 ^ 60 ≠ 0 → step s = .next (s.faulted 8 2 s.dpc)) ∧
    ((s.descWord s.dpc.toNat).toNat % 2 ^ 60 = 0 → s.nparts ≠ 0#6 → step s = .next (s.faulted 8 9 s.dpc)) ∧
    ((s.descWord s.dpc.toNat).toNat % 2 ^ 60 = 0 → s.nparts = 0#6 → step s = .next { s with phase := .done })

/-- RDU in range, no group open, room in RES: one READ record with the unsigned little-endian number, DPC advanced,
nothing else changed (R83). -/
def Obligations.RduEmitsUnsigned : Prop :=
  ∀ (tag : BitVec 16) (offset : BitVec 32) (size : BitVec 3) (s : State), s.par.wf = true →
    size.toNat = 1 ∨ size.toNat = 2 ∨ size.toNat = 4 ∨ size.toNat = 6 → s.nparts = 0#6 →
    offset.toNat + size.toNat ≤ s.payLen.toNat → s.resCount.toNat < s.par.resCap →
    ∃ (t : State) (v : Nat), exec (.rdu tag offset size) s = .next t ∧
      v = ((List.range size.toNat).map fun i => (s.payByte (offset.toNat + i)).toNat * 256 ^ i).sum ∧
      t.res.get? s.resCount.toNat = some ⟨tag, .read, .ok, 8 * size.toNat, v, v, 0, 1, false⟩ ∧
      t.resCount.toNat = s.resCount.toNat + 1 ∧
      (∀ j, j ≠ s.resCount.toNat → t.res.get? j = s.res.get? j) ∧
      t = { s with res := t.res, resCount := t.resCount, dpc := s.dpc + 1 }

/-- RDI likewise, with the Byte Reader's sign rule: corrected at 8 and 16 bits only (R80, R84). -/
def Obligations.RdiEmitsSigned : Prop :=
  ∀ (tag : BitVec 16) (offset : BitVec 32) (size : BitVec 3) (s : State), s.par.wf = true →
    size.toNat = 1 ∨ size.toNat = 2 ∨ size.toNat = 4 ∨ size.toNat = 6 → s.nparts = 0#6 →
    offset.toNat + size.toNat ≤ s.payLen.toNat → s.resCount.toNat < s.par.resCap →
    ∃ (t : State) (u : Nat) (v : Int), exec (.rdi tag offset size) s = .next t ∧
      u = ((List.range size.toNat).map fun i => (s.payByte (offset.toNat + i)).toNat * 256 ^ i).sum ∧
      v = (if size.toNat = 1 ∧ 128 ≤ u then (u : Int) - 256
        else if size.toNat = 2 ∧ 32768 ≤ u then (u : Int) - 65536 else u) ∧
      t.res.get? s.resCount.toNat = some ⟨tag, .read, .ok, 8 * size.toNat, v, v, 0, 1, false⟩ ∧
      t.resCount.toNat = s.resCount.toNat + 1 ∧
      (∀ j, j ≠ s.resCount.toNat → t.res.get? j = s.res.get? j) ∧
      t = { s with res := t.res, resCount := t.resCount, dpc := s.dpc + 1 }

/-- The faults of END, RDU and RDI in their order: BadSize, OpenField, OutOfBounds, ResultOverflow (R68, R83, R84, R129,
R160). -/
def Obligations.ReadAndEndFaults : Prop :=
  ∀ (tag : BitVec 16) (offset : BitVec 32) (size : BitVec 3) (s : State),
    (s.nparts ≠ 0#6 → exec .endList s = .next (s.faulted 8 9 s.dpc)) ∧
    ∀ i : Instr, i = .rdu tag offset size ∨ i = .rdi tag offset size →
      (sizeLegal size = false → exec i s = .next (s.faulted 8 3 s.dpc)) ∧
      (sizeLegal size = true → s.nparts ≠ 0#6 → exec i s = .next (s.faulted 8 9 s.dpc)) ∧
      (sizeLegal size = true → s.nparts = 0#6 → s.payLen.toNat < offset.toNat + size.toNat →
        exec i s = .next (s.faulted 1 0 s.dpc)) ∧
      (sizeLegal size = true → s.nparts = 0#6 → offset.toNat + size.toNat ≤ s.payLen.toNat →
        s.resCount.toNat = s.par.resCap → exec i s = .next (s.faulted 10 0 s.dpc))

/-! ### Frames and faults of all descriptor words -/

/-- What no descriptor word changes, whatever its outcome: RAW, PAY and DESC byte by byte and word by word, the packet
registers, the host's registers; STATUS but for ABSENT; RES but for the record at RES_COUNT (R34, R36, R120). -/
def Obligations.WordFrame : Prop :=
  ∀ (i : Instr) (s t : State), exec i s = .next t →
    (∀ a, t.rawByte a = s.rawByte a) ∧ (∀ a, t.payByte a = s.payByte a) ∧ (∀ a, t.descWord a = s.descWord a) ∧
    (∀ j, j ≠ s.resCount.toNat → t.res.get? j = s.res.get? j) ∧
    (i = .endList ∨ (∃ o m z, i = .part o m z) → t.res = s.res) ∧
    (∀ b, b ≠ 4 → t.status.getLsbD b = s.status.getLsbD b) ∧
    ((∀ tag sg mul div, i ≠ .field tag sg mul div) → t.status = s.status) ∧
    (t.phase ≠ .fault → t.errCode = s.errCode ∧ t.errSub = s.errSub ∧ t.errInfo = s.errInfo) ∧
    t.par = s.par ∧ t.rawBase = s.rawBase ∧ t.rawLen = s.rawLen ∧ t.descBase = s.descBase ∧
    t.dst = s.dst ∧ t.src = s.src ∧ t.pcmd = s.pcmd ∧ t.nfr = s.nfr ∧ t.hck = s.hck ∧
    t.payLen = s.payLen ∧ t.consumed = s.consumed ∧ t.ferr = s.ferr ∧ t.ferrCount = s.ferrCount ∧
    t.host = s.host ∧ t.resets = s.resets

/-- Faults are precise: a faulting word writes nothing but what fault entry writes; ERR_INFO is its DPC, or for a
straddling group the latched PART's (R161, R162). -/
def Obligations.FaultsArePrecise : Prop :=
  ∀ (i : Instr) (s t : State), exec i s = .next t → s.phase ≠ .fault → t.phase = .fault →
    ∃ (code sub : BitVec 8) (info : BitVec 32), t = s.faulted code sub info ∧
      (info = s.dpc ∨ (code = 1#8 ∧ info = s.oobDpc ∧ ∃ tag sg mul div, i = .field tag sg mul div))

/-! ### The Byte Reader -/

/-- readUInt (R79). -/
def Obligations.ReadUIntIsLittleEndian : Prop :=
  ∀ (buf : Nat → Byte) (len o n : Nat), n = 1 ∨ n = 2 ∨ n = 4 ∨ n = 6 → o + n ≤ len →
    ∃ u, readUInt buf len o n = some u ∧
      u = ((List.range n).map fun i => (buf (o + i)).toNat * 256 ^ i).sum ∧
      u ≤ 256 ^ n - 1 ∧
      (n = 2 → u = (buf (o + 1)).toNat * 256 + (buf o).toNat)

/-- OutOfBounds of both functions (R78). -/
def Obligations.ReadOutOfBounds : Prop :=
  ∀ (buf : Nat → Byte) (len o n : Nat), n = 1 ∨ n = 2 ∨ n = 4 ∨ n = 6 →
    (readUInt buf len o n = none ↔ len < o + n) ∧ (readInt buf len o n = none ↔ len < o + n) ∧
    (len < n ∨ len ≤ o → readUInt buf len o n = none ∧ readInt buf len o n = none) ∧
    (o + n = len → readUInt buf len o n ≠ none ∧ readInt buf len o n ≠ none)

/-- readInt (R80). -/
def Obligations.ReadIntSignRule : Prop :=
  ∀ (buf : Nat → Byte) (len o n u : Nat), n = 1 ∨ n = 2 ∨ n = 4 ∨ n = 6 → readUInt buf len o n = some u →
    ∃ v : Int, readInt buf len o n = some v ∧
      (n = 1 → v = (if 128 ≤ u then (u : Int) - 256 else u) ∧ -128 ≤ v ∧ v ≤ 127) ∧
      (n = 2 → v = (if 32768 ≤ u then (u : Int) - 65536 else u) ∧ -32768 ≤ v ∧ v ≤ 32767) ∧
      (n = 4 ∨ n = 6 → v = u)

/-- The laws of the Byte Reader (R85). -/
def Obligations.ByteReaderLaws : Prop :=
  ∀ (buf : Nat → Byte) (len o : Nat),
    (∀ n u, readUInt buf len o n = some u → u < 256 ^ n) ∧
    (∀ u, readUInt buf len o 2 = some u →
      ∃ a b, readUInt buf len o 1 = some a ∧ readUInt buf len (o + 1) 1 = some b ∧ u = a + 256 * b) ∧
    (∀ u, readUInt buf len o 4 = some u →
      ∃ a b, readUInt buf len o 2 = some a ∧ readUInt buf len (o + 2) 2 = some b ∧ u = a + 65536 * b) ∧
    (∀ u, readUInt buf len o 6 = some u →
      ∃ a b, readUInt buf len o 4 = some a ∧ readUInt buf len (o + 4) 2 = some b ∧ u = a + 2 ^ 32 * b) ∧
    (∀ n u v, n = 1 ∨ n = 2 ∨ n = 4 ∨ n = 6 → readUInt buf len o n = some u → readInt buf len o n = some v →
      (∃ k : Int, v = u + k * 256 ^ n) ∧
      (n = 4 ∨ n = 6 ∨ (buf (o + n - 1)).toNat < 128 → v = u)) ∧
    (∀ n, readUInt buf len o n = none ↔ readInt buf len o n = none)

/-! ### Composition -/

/-- Composition is bitwise: the shifted terms are disjoint, the sum is their OR and below 2^W; whole parts (R109). -/
def Obligations.CompositionIsBitwise : Prop :=
  (∀ (P : Nat → Byte) (cum : Nat) (p : FieldPart) (ps : List FieldPart),
    (∀ q ∈ p :: ps, partLegal q.mask q.size = true) →
    composeFrom P cum (p :: ps) = (p.pv P <<< cum) ||| composeFrom P (cum + p.pw) ps ∧
    (p.pv P <<< cum) &&& composeFrom P (cum + p.pw) ps = 0 ∧
    compose P (p :: ps) < 2 ^ composedWidth (p :: ps)) ∧
  (∀ (P : Nat → Byte) (off : BitVec 32) (size : BitVec 3), sizeLegal size = true →
    compose P [⟨off, 0xFF#8, size⟩] = leNat P off.toNat size.toNat ∧
    composedWidth [⟨off, 0xFF#8, size⟩] = 8 * size.toNat) ∧
  (∀ (P : Nat → Byte) (off : BitVec 32), off.toNat + 1 < 2 ^ 32 →
    compose P [⟨off, 0xFF#8, 1⟩, ⟨off + 1, 0xFF#8, 1⟩] = compose P [⟨off, 0xFF#8, 2⟩])

/-- Round trip: a payload whose selected bits hold the W bits of x composes, sign-corrects and scales to x (R133). -/
def Obligations.FieldRoundTrip : Prop :=
  ∀ (f : FieldSpec) (P : Nat → Byte) (x : Int), f.wf = true →
    (f.signed = true → -(2 ^ (composedWidth f.parts - 1)) ≤ x ∧ x < 2 ^ (composedWidth f.parts - 1)) →
    (f.signed = false → 0 ≤ x ∧ x < 2 ^ composedWidth f.parts) →
    (∀ k (h : k < f.parts.length),
      ((f.parts[k]).pv P : Int) = x / 2 ^ composedWidth (f.parts.take k) % 2 ^ (f.parts[k]).pw) →
    (fieldRecord f.tag f.signed f.mul f.div (composedWidth f.parts) (compose P f.parts)).raw = x ∧
    (fieldRecord f.tag f.signed f.mul f.div (composedWidth f.parts) (compose P f.parts)).quot * f.div.toNat +
      (fieldRecord f.tag f.signed f.mul f.div (composedWidth f.parts) (compose P f.parts)).rem = x * f.mul.toNat

/-! ### Field groups and lists in DESC -/

/-- Running a field group all of whose parts are in range emits one record: the composed value, sign-corrected and scaled
(R71, R108, R130). The run of steps in phase BUSY is the model's (log entry 4). -/
def Obligations.FieldGroupEmitsComposedValue : Prop :=
  ∀ (f : FieldSpec) (s : State), f.wf = true → s.phase = .busy → s.groupClosed → s.par.wf = true →
    s.holdsList s.dpc.toNat f.group → s.resCount.toNat < s.par.resCap →
    (∀ p ∈ f.parts, p.offset.toNat + p.size.toNat ≤ s.payLen.toNat) →
    ∃ t, core.run f.group.length s = .next t ∧
      t.res.get? s.resCount.toNat =
        some (fieldRecord f.tag f.signed f.mul f.div (composedWidth f.parts) (compose s.payByte f.parts)) ∧
      (∀ j, j ≠ s.resCount.toNat → t.res.get? j = s.res.get? j) ∧
      t.resCount.toNat = s.resCount.toNat + 1 ∧
      t.dpc.toNat = s.dpc.toNat + f.group.length ∧
      t = { s with res := t.res, resCount := t.resCount, dpc := t.dpc }

/-- Running a field group with an absent part, wherever it stands and whatever the others are, emits one ABSENT record and
goes on with the accumulator clean; STATUS.ABSENT (bit 4) is set and no other STATUS bit changes (R130, R131). The run of
steps in phase BUSY is the model's (log entry 4). -/
def Obligations.FieldGroupAbsent : Prop :=
  ∀ (f : FieldSpec) (s : State), f.wf = true → s.phase = .busy → s.groupClosed → s.par.wf = true →
    s.holdsList s.dpc.toNat f.group → s.resCount.toNat < s.par.resCap →
    (∃ p ∈ f.parts, s.payLen.toNat ≤ p.offset.toNat) →
    ∃ t, core.run f.group.length s = .next t ∧
      t.res.get? s.resCount.toNat = some ⟨f.tag, .value, .absent, 0, 0, 0, 0, f.div, false⟩ ∧
      (∀ j, j ≠ s.resCount.toNat → t.res.get? j = s.res.get? j) ∧
      t.resCount.toNat = s.resCount.toNat + 1 ∧
      t.dpc.toNat = s.dpc.toNat + f.group.length ∧
      (∀ b, t.status.getLsbD b = (s.status.getLsbD b || b == 4)) ∧
      t = { s with res := t.res, resCount := t.resCount, dpc := t.dpc, status := t.status }

/-- Running a field group with a straddling part and no absent part ends the DECODE in OutOfBounds at the FIELD word, with
ERR_INFO the index of the first straddling PART and RES emptied (R130, R149). The run of steps in phase BUSY is the model's
(log entry 4). -/
def Obligations.FieldGroupStraddles : Prop :=
  ∀ (f : FieldSpec) (s : State) (k : Nat) (h : k < f.parts.length), f.wf = true → s.phase = .busy → s.groupClosed →
    s.par.wf = true → s.holdsList s.dpc.toNat f.group →
    (∀ p ∈ f.parts, p.offset.toNat < s.payLen.toNat) →
    s.payLen.toNat < (f.parts[k]).offset.toNat + (f.parts[k]).size.toNat →
    (∀ p ∈ f.parts.take k, p.offset.toNat + p.size.toNat ≤ s.payLen.toNat) →
    ∃ t, core.run f.group.length s = .next t ∧ t.phase = .fault ∧ t.errCode = 1#8 ∧ t.errSub = 0#8 ∧
      t.errInfo.toNat = s.dpc.toNat + k ∧ t.dpc.toNat = s.dpc.toNat + f.parts.length ∧ t.resCount = 0#17 ∧
      t.status = s.status ∧ t.payLen = s.payLen

/-- A DECODE of a well-formed list never raises DescriptorError (R70). The run of steps in phase BUSY is the model's (log
entry 4). -/
def Obligations.WellFormedListNoDescriptorError : Prop :=
  ∀ (l : List Instr) (s : State), listWf l = true → s.phase = .busy → s.groupClosed → s.par.wf = true → s.host = [] →
    s.holdsList s.dpc.toNat l →
    ∀ (n : Nat) (t : State), core.run n s = .next t → t.phase = .fault → t.errCode ≠ 8#8

/-- Every DECODE ends: each step faults, ends the list or adds 1 to DPC, so there is a bound on the steps (R118).
That PHASE is BUSY between two words is the model's (log entry 4). -/
def Obligations.EveryDecodeEnds : Prop :=
  ∀ s : State, s.phase = .busy → s.par.wf = true →
    (∃ t, step s = .next t ∧ (t.phase = .fault ∨ t.phase = .done ∨
      (t.phase = .busy ∧ t.dpc.toNat = s.dpc.toNat + 1)) ∧ (s.par.descLen ≤ s.dpc.toNat → t.phase = .fault)) ∧
    ∃ (n : Nat) (t : State), 1 ≤ n ∧ n ≤ s.par.descLen - s.dpc.toNat + 1 ∧ core.run n s = .next t ∧
      (t.phase = .done ∨ t.phase = .fault)

/-- DECODE as one transition is the run of steps from the CMD write until PHASE leaves BUSY, and leaves BUSY (R136, R139).
That the machine steps word by word in phase BUSY is the model's choice (log entry 4). -/
def Obligations.AtomicDecodeIsRunOfSteps : Prop :=
  ∀ (s : State) (rest : List HostMove), s.phase = .assembled ∨ s.phase = .done → s.par.wf = true →
    s.host = .writeReg 0 2 :: rest →
    ((decodeCommand { s with host := rest }).phase = .done ∨ (decodeCommand { s with host := rest }).phase = .fault) ∧
    ∃ n, n ≤ s.par.descLen - s.descBase.toNat + 2 ∧ core.run n s = .next (decodeCommand { s with host := rest })

/-- DECODE is a function of DESC_BASE, the words from DESC_BASE to the first END or fault (where DPC is left), PAY below
PAY_LEN, PAY_LEN, RES_CAP and DESC_LEN: two states alike in these give the same outcome, records, NOTFOUND and ABSENT
(R132). A DECODE that faults gives the same error registers, one that does not leaves them alone. -/
def Obligations.DecodeReadsPayloadAlone : Prop :=
  ∀ s s' : State, s.par.descLen = s'.par.descLen → s.par.resCap = s'.par.resCap → s.par.wf = true →
    s.descBase = s'.descBase → s.payLen = s'.payLen →
    (∀ i, s.descBase.toNat ≤ i → i ≤ (decodeCommand s).dpc.toNat → i < s.par.descLen → s.descWord i = s'.descWord i) →
    (∀ a, a < s.payLen.toNat → s.payByte a = s'.payByte a) →
    (decodeCommand s).phase = (decodeCommand s').phase ∧
    (decodeCommand s).dpc = (decodeCommand s').dpc ∧
    (decodeCommand s).resCount = (decodeCommand s').resCount ∧
    (∀ i, i < (decodeCommand s).resCount.toNat → (decodeCommand s).res.get? i = (decodeCommand s').res.get? i) ∧
    (∀ b, b = 3 ∨ b = 4 → (decodeCommand s).status.getLsbD b = (decodeCommand s').status.getLsbD b) ∧
    ((decodeCommand s).phase = .fault →
      (decodeCommand s).errCode = (decodeCommand s').errCode ∧
      (decodeCommand s).errSub = (decodeCommand s').errSub ∧
      (decodeCommand s).errInfo = (decodeCommand s').errInfo) ∧
    ((decodeCommand s).phase ≠ .fault →
      (decodeCommand s).errCode = s.errCode ∧ (decodeCommand s').errCode = s'.errCode ∧
      (decodeCommand s).errSub = s.errSub ∧ (decodeCommand s').errSub = s'.errSub ∧
      (decodeCommand s).errInfo = s.errInfo ∧ (decodeCommand s').errInfo = s'.errInfo)

/-! ### ASSEMBLE -/

/-- The faults of ASSEMBLE in the order of its steps, for all checksum functions, each with the whole state it leaves: the
cleared state and fault entry, and for truncated frames also the header registers, byte by byte, and PCK_HDR (bit 0 of
STATUS) (R88 to R95, R150, R160). -/
def Obligations.AssembleFaults : Prop :=
  ∀ (ck : Checks) (s : State),
    (s.par.rawSize < s.rawBase.toNat + s.rawLen.toNat →
      assembleWith ck s = s.clearPacket.faulted 9 3 s.rawLen) ∧
    (s.rawBase.toNat + s.rawLen.toNat ≤ s.par.rawSize →
      (s.rawLen = 0#32 → assembleWith ck s = s.clearPacket.faulted 2 0 1) ∧
      (s.rawLen ≠ 0#32 → s.rawAt 0 ≠ s.par.syncByte →
        assembleWith ck s = s.clearPacket.faulted 7 0 ((s.rawAt 0).setWidth 32)) ∧
      (s.rawLen ≠ 0#32 → s.rawAt 0 = s.par.syncByte → s.rawLen.toNat < 9 →
        assembleWith ck s = s.clearPacket.faulted 2 0 9) ∧
      (s.rawAt 0 = s.par.syncByte → 9 ≤ s.rawLen.toNat →
        s.rawLen.toNat < 9 + 4 * (s.rawAt 7).toNat + (if s.par.hasTrailer = true then 1 else 0) →
        ∃ t, assembleWith ck s = t ∧
          t.errInfo.toNat = 9 + 4 * (s.rawAt 7).toNat + (if s.par.hasTrailer = true then 1 else 0) ∧
          t.dst.toNat = (s.rawAt 1).toNat + 256 * (s.rawAt 2).toNat ∧
          t.src.toNat = (s.rawAt 3).toNat + 256 * (s.rawAt 4).toNat ∧
          t.pcmd.toNat = (s.rawAt 5).toNat + 256 * (s.rawAt 6).toNat ∧
          t = { s.clearPacket with
            phase := .fault, errCode := 2, errSub := 0, errInfo := t.errInfo
            dst := t.dst, src := t.src, pcmd := t.pcmd, nfr := s.rawAt 7, hck := s.rawAt 8
            status := if s.rawAt 8 = ck.hdrCk s.headerBytes then 0#8 else 1#8 }))

/-- ASSEMBLE of a window that holds a packet: header, payload, lengths and every warning, for all checksum functions; what
it leaves alone (R44, R54, R93 to R101). The STATUS bits are given by number (R19): 0 PCK_HDR, 1 PCK_TRL, 2 FCK. That PAY
above PAY_LEN keeps what it held is the model's (log entry 8). -/
def Obligations.AssembleDeframes : Prop :=
  ∀ (ck : Checks) (s : State), s.rawBase.toNat + s.rawLen.toNat ≤ s.par.rawSize → s.rawAt 0 = s.par.syncByte →
    9 + 4 * (s.rawAt 7).toNat + (if s.par.hasTrailer = true then 1 else 0) ≤ s.rawLen.toNat →
    ∃ t, assembleWith ck s = t ∧ t.phase = .assembled ∧
      t.dst.toNat = (s.rawAt 1).toNat + 256 * (s.rawAt 2).toNat ∧
      t.src.toNat = (s.rawAt 3).toNat + 256 * (s.rawAt 4).toNat ∧
      t.pcmd.toNat = (s.rawAt 5).toNat + 256 * (s.rawAt 6).toNat ∧
      t.nfr = s.rawAt 7 ∧ t.hck = s.rawAt 8 ∧
      t.payLen.toNat = 3 * (s.rawAt 7).toNat ∧
      t.consumed.toNat = 9 + 4 * (s.rawAt 7).toNat + (if s.par.hasTrailer = true then 1 else 0) ∧
      (∀ i j, i < (s.rawAt 7).toNat → j < 3 → t.payByte (3 * i + j) = s.rawAt (9 + 4 * i + j)) ∧
      (∀ a, 3 * (s.rawAt 7).toNat ≤ a → t.payByte a = s.payByte a) ∧
      (∀ i, t.ferr.getLsbD i = true ↔ i < (s.rawAt 7).toNat ∧
        s.rawAt (12 + 4 * i) ≠
          ck.frameCk.fn (s.rawAt (9 + 4 * i)) (s.rawAt (10 + 4 * i)) (s.rawAt (11 + 4 * i))) ∧
      t.ferrCount.toNat = (List.range 255).countP t.ferr.getLsbD ∧
      (t.status.getLsbD 0 = true ↔ s.rawAt 8 ≠ ck.hdrCk s.headerBytes) ∧
      (t.status.getLsbD 2 = true ↔ ∃ i, t.ferr.getLsbD i = true) ∧
      (t.status.getLsbD 1 = true ↔ s.par.hasTrailer = true ∧
        s.rawAt (9 + 4 * (s.rawAt 7).toNat) ≠ ck.trailerCk ((List.range (9 + 4 * (s.rawAt 7).toNat)).map s.rawAt)) ∧
      (∀ b, 3 ≤ b → t.status.getLsbD b = false) ∧
      t = { s.clearPacket with
        phase := .assembled, status := t.status, dst := t.dst, src := t.src, pcmd := t.pcmd, nfr := t.nfr, hck := t.hck
        payLen := t.payLen, consumed := t.consumed, ferr := t.ferr, ferrCount := t.ferrCount, pay := t.pay }

/-- The checksum law: one flipped bit in one byte of a good frame makes that frame fail (R102). -/
def Obligations.FlippedBitFailsFrame : Prop :=
  ∀ (ck : Checks) (s s' : State) (i j k : Nat),
    (assembleWith ck s).phase = .assembled → (assembleWith ck s').phase = .assembled →
    i < (assembleWith ck s).nfr.toNat → j < 4 → k < 8 →
    s'.rawAt (9 + 4 * i + j) = s.rawAt (9 + 4 * i + j) ^^^ (1#8 <<< k) →
    (∀ m, m ≠ 9 + 4 * i + j → s'.rawAt m = s.rawAt m) →
    (assembleWith ck s).ferr.getLsbD i = false → (assembleWith ck s').ferr.getLsbD i = true

/-- ASSEMBLE depends on the window and the parameters alone: nothing of the state before it survives but RAW_BASE,
RAW_LEN and DESC_BASE (R103). -/
def Obligations.AssembleForgetsThePast : Prop :=
  ∀ (ck : Checks) (s s' : State), s.par = s'.par → s.rawBase = s'.rawBase → s.rawLen = s'.rawLen →
    (∀ k, k < s.rawLen.toNat → s.rawAt k = s'.rawAt k) →
    (∀ a, a < (assembleWith ck s).payLen.toNat → (assembleWith ck s).payByte a = (assembleWith ck s').payByte a) ∧
    assembleWith ck s = { assembleWith ck s' with
      descBase := s.descBase, raw := s.raw, pay := (assembleWith ck s).pay, desc := s.desc, res := s.res
      host := s.host, resets := s.resets }

/-! ### Host moves -/

/-- BadCommand: a CMD write that is not accepted (R137, R142). -/
def Obligations.RejectedCommands : Prop :=
  ∀ (s : State) (c : BitVec 32) (rest : List HostMove), s.host = .writeReg 0 c :: rest → c ≠ 1#32 → c ≠ 4#32 →
    (s.phase = .fault → step s = .next { s with host := rest }) ∧
    (s.phase = .idle ∨ s.phase = .assembled ∨ s.phase = .done → c ≠ 2#32 → c ≠ 3#32 →
      step s = .next ({ s with host := rest }.faulted 9 1 c)) ∧
    (s.phase = .idle → c = 2#32 ∨ c = 3#32 → step s = .next ({ s with host := rest }.faulted 9 2 c))

/-- The accepted commands: ASSEMBLE and CLEAR in every phase but BUSY, DECODE in ASSEMBLED and DONE, with DECODE's initial
clear and CLEAR's effect written out (R137, R138, R139, R141). That the state right after a write of DECODE, before its
first word, is one of the machine and shows BUSY is the model's (log entry 4). -/
def Obligations.AcceptedCommands : Prop :=
  ∀ (s : State) (rest : List HostMove), s.phase ≠ .busy →
    (s.host = .writeReg 0 1 :: rest → step s = .next (assemble { s with host := rest }) ∧
      ((assemble { s with host := rest }).phase = .assembled ∨ (assemble { s with host := rest }).phase = .fault)) ∧
    (s.host = .writeReg 0 4 :: rest →
      step s = .next { State.reset with
        par := s.par, rawBase := s.rawBase, rawLen := s.rawLen, descBase := s.descBase
        raw := s.raw, pay := s.pay, desc := s.desc, res := s.res, host := rest, resets := s.resets }) ∧
    (s.phase = .assembled ∨ s.phase = .done → s.host = .writeReg 0 2 :: rest →
      ∃ t, step s = .next t ∧ (∀ b, t.status.getLsbD b = (s.status.getLsbD b && b != 3 && b != 4)) ∧
        t = { s with
          host := rest, status := t.status, resCount := 0, phase := .busy, dpc := s.descBase
          acc := 0, accw := 0, nparts := 0, abs := false, oobp := false, oobDpc := 0 })

/-- SKIP (R140). -/
def Obligations.SkipReportsNotFound : Prop :=
  ∀ (s : State) (rest : List HostMove), s.phase = .assembled ∨ s.phase = .done → s.host = .writeReg 0 3 :: rest →
    ∃ t, step s = .next t ∧ (∀ b, t.status.getLsbD b = ((s.status.getLsbD b && b != 4) || b == 3)) ∧
      t = { s with host := rest, resCount := 0, status := t.status, phase := .done }

/-- Host writes of registers: RAW_BASE, RAW_LEN, DESC_BASE take the value, every other number but CMD has no effect
(R17, R34). -/
def Obligations.HostRegisterWrites : Prop :=
  ∀ (s : State) (number : Nat) (v : BitVec 32) (rest : List HostMove), s.phase ≠ .busy →
    s.host = .writeReg number v :: rest →
    (number = 0x05 → step s = .next { s with host := rest, rawBase := v }) ∧
    (number = 0x06 → step s = .next { s with host := rest, rawLen := v }) ∧
    (number = 0x07 → step s = .next { s with host := rest, descBase := v }) ∧
    (number ≠ 0x00 → number ≠ 0x05 → number ≠ 0x06 → number ≠ 0x07 → step s = .next { s with host := rest })

/-- The register map as the host reads it, PHASE by its five codes (R16 to R28, R34), and PAY and RES as the host reads
them: PAY below PAY_LEN in ASSEMBLED and DONE, RES below RES_COUNT in DONE, each such entry a record where the result list
is well-formed (R31, R33, R144). That a read of PAY or RES outside that gives none is the model's (log entry 14). -/
def Obligations.HostRegisterReads : Prop :=
  ∀ s : State,
    (∀ n, n = 0x00 ∨ n = 0x0F ∨ 0x18 ≤ n → s.readReg n = 0#32) ∧
    (s.phase = .idle → s.readReg 0x01 = 0#32) ∧ (s.phase = .assembled → s.readReg 0x01 = 1#32) ∧
    (s.phase = .done → s.readReg 0x01 = 2#32) ∧ (s.phase = .fault → s.readReg 0x01 = 3#32) ∧
    (s.phase = .busy → s.readReg 0x01 = 4#32) ∧
    (s.readReg 0x02).toNat = s.status.toNat ∧
    (s.readReg 0x03).toNat = s.errCode.toNat + 2 ^ 8 * s.errSub.toNat ∧
    s.readReg 0x04 = s.errInfo ∧ s.readReg 0x05 = s.rawBase ∧ s.readReg 0x06 = s.rawLen ∧
    s.readReg 0x07 = s.descBase ∧
    (s.readReg 0x08).toNat = s.dst.toNat + 2 ^ 16 * s.src.toNat ∧
    (s.readReg 0x09).toNat = s.pcmd.toNat + 2 ^ 16 * s.nfr.toNat + 2 ^ 24 * s.hck.toNat ∧
    (s.readReg 0x0A).toNat = s.payLen.toNat ∧ s.readReg 0x0B = s.consumed ∧
    (s.readReg 0x0C).toNat = s.ferrCount.toNat ∧ (s.readReg 0x0D).toNat = s.resCount.toNat ∧
    s.readReg 0x0E = s.dpc ∧
    (∀ k j, k < 8 → j < 32 → (s.readReg (0x10 + k)).getLsbD j = s.ferr.getLsbD (32 * k + j)) ∧
    (s.readReg 0x17).getLsbD 31 = false ∧
    (∀ a, s.phase = .assembled ∨ s.phase = .done → a < s.payLen.toNat → s.hostReadPay a = some (s.payByte a)) ∧
    (∀ a, (s.phase ≠ .assembled ∧ s.phase ≠ .done) ∨ s.payLen.toNat ≤ a → s.hostReadPay a = none) ∧
    (∀ i, s.phase = .done → i < s.resCount.toNat →
      s.hostReadRes i = s.res.get? i ∧ (s.ResultOk → ∃ r, s.hostReadRes i = some r ∧ r.Ok)) ∧
    (∀ i, s.phase ≠ .done ∨ s.resCount.toNat ≤ i → s.hostReadRes i = none)

/-- Host writes of RAW and DESC change the one cell named; an address the space does not have is a fault of the model
(R30, R32; the fault is the model's, log entry 9). -/
def Obligations.HostMemoryWrites : Prop :=
  ∀ (s : State) (a : Nat) (v : Byte) (w : Word) (rest : List HostMove), s.phase ≠ .busy →
    (s.host = .writeRaw a v :: rest → a < s.par.rawSize →
      ∃ t, step s = .next t ∧ t.rawByte a = v ∧ (∀ b, b ≠ a → t.rawByte b = s.rawByte b) ∧
        t = { s with host := rest, raw := t.raw }) ∧
    (s.host = .writeRaw a v :: rest → s.par.rawSize ≤ a → step s = .fault (.noRawAddress a)) ∧
    (s.host = .writeDesc a w :: rest → a < s.par.descLen →
      ∃ t, step s = .next t ∧ t.descWord a = w ∧ (∀ b, b ≠ a → t.descWord b = s.descWord b) ∧
        t = { s with host := rest, desc := t.desc }) ∧
    (s.host = .writeDesc a w :: rest → s.par.descLen ≤ a → step s = .fault (.noDescIndex a))

/-- Host moves and VBFP do not interleave inside a command: in BUSY the host's moves wait; outside BUSY with no host move
the machine holds its state (R135, R136, R167, R170). The list of moves is the model's (log entry 5). -/
def Obligations.HostWaitsForCommands : Prop :=
  (∀ s t : State, s.phase = .busy → step s = .next t → t.host = s.host) ∧
  (∀ s : State, s.phase ≠ .busy → s.host = [] → step s = .next s)

/-- FAULT is left only by ASSEMBLE, CLEAR or reset, and each clears the error registers (R163); an ASSEMBLE that faults
again stays in FAULT. The registry step of RUN does nothing there (R143). -/
def Obligations.FaultIsLeftOnlyByClearing : Prop :=
  ∀ s t : State, s.phase = .fault → step s = .next t → t.phase ≠ .fault →
    (∃ rest, s.host = .writeReg 0 1 :: rest ∨ s.host = .writeReg 0 4 :: rest ∨ s.host = .reset :: rest) ∧
    t.errCode = 0#8 ∧ t.errSub = 0#8 ∧ t.errInfo = 0#32

/-- RUN returns either a failure reason and no records, or success with every record, each present and legal, STATUS.ABSENT
(bit 4) telling whether one is ABSENT, and on a registry miss NOTFOUND (bit 3) and no records (R143, R165), for all
checksum functions and registries. That RUN started in phase BUSY does the same is the model's (log entry 20). -/
def Obligations.RunFailsOrSucceedsWhole : Prop :=
  ∀ (ck : Checks) (registry : BitVec 16 → BitVec 16 → BitVec 16 → Option (BitVec 32)) (base len : BitVec 32) (s : State),
    s.par.wf = true →
    ∃ a t res, a = assembleWith ck { s with rawBase := base, rawLen := len } ∧ runWith ck registry base len s = (t, res) ∧
      ((t.phase = .fault ∧ t.resCount = 0#17 ∧ res = .failure t.errCode t.errSub t.errInfo) ∨
       (a.phase = .assembled ∧ t.phase = .done ∧
        res = .success a.dst a.src a.pcmd a.nfr a.status a.ferrCount a.ferr t.status t.records ∧
        (∃ rs : List Record, t.records = rs.map some ∧ rs.length = t.resCount.toNat ∧ (∀ r ∈ rs, r.Ok) ∧
          (t.status.getLsbD 4 = true ↔ ∃ r ∈ rs, r.st = .absent)) ∧
        (registry a.dst a.src a.pcmd = none → t.records = [] ∧ t.status.getLsbD 3 = true)))

/-! ### Reset -/

/-- The reset state: every register the spec lists is zero and PHASE is IDLE (R35, R169). That RAW and DESC list nothing is
the model's launch state (log entry 7), and so is that the parameters are some legal ones (log entry 1). -/
def Obligations.ResetRegisters : Prop :=
  State.reset.phase = .idle ∧
  (∀ n, n ≤ 0x17 → State.reset.readReg n = 0#32) ∧
  (∀ i, State.reset.ferr.getLsbD i = false) ∧ State.reset.groupClosed ∧
  State.reset.raw = [] ∧ State.reset.desc = [] ∧ State.reset.par.wf = true

/-- The reset event against CLEAR: both zero the same registers, and reset also RAW_BASE, RAW_LEN and DESC_BASE (R171).
That reset is a host move that keeps the moves to come is the model's (log entry 15), and so is how PAY and RES become
unspecified: empty lists and one more reset counted (log entry 8). -/
def Obligations.ResetDiffersFromClear : Prop :=
  ∀ (s t u : State) (rest rest' : List HostMove), s.phase ≠ .busy →
    step { s with host := .reset :: rest } = .next t → step { s with host := .writeReg 0 4 :: rest' } = .next u →
    t = { u with rawBase := 0, rawLen := 0, descBase := 0, pay := [], res := [], host := rest, resets := s.resets + 1 } ∧
    t.phase = .idle ∧ u.phase = .idle ∧ u.rawBase = s.rawBase ∧ u.rawLen = s.rawLen ∧ u.descBase = s.descBase ∧
    t.raw = s.raw ∧ t.desc = s.desc

/-! ### Invariants -/

/-- The invariant holds at reset (R35, R169), with the model's launch contents of the spaces and the parameters (log
entries 1, 7, 8). -/
def Obligations.ResetMeetsInvariant : Prop :=
  State.reset.Inv

/-- Every step keeps the four spaces in canonical form inside their sizes and RES_COUNT in its range (R28, R30 to R33). -/
def Obligations.StepKeepsMemoryOk : Prop :=
  ∀ s t : State, s.MemoryOk → step s = .next t → t.MemoryOk

/-- Every step keeps ACC < 2^ACCW, ACCW ≤ 48, NPARTS ≤ ACCW and the latches clean between groups (R26, R27). -/
def Obligations.StepKeepsDecoderOk : Prop :=
  ∀ s t : State, s.DecoderOk → step s = .next t → t.DecoderOk

/-- Every step keeps the error registers zero outside FAULT and legal inside it, with RES emptied (R20, R21, R148, R161). -/
def Obligations.StepKeepsFaultRecordOk : Prop :=
  ∀ s t : State, s.FaultRecordOk → step s = .next t → t.FaultRecordOk

/-- Every step keeps the packet registers consistent: lengths, frame flags, STATUS (R18, R19, R22 to R24, R144). -/
def Obligations.StepKeepsPacketOk : Prop :=
  ∀ s t : State, s.PacketOk → step s = .next t → t.PacketOk

/-- Every step keeps the result list well-formed and STATUS.ABSENT its summary (R19, R28, R33, R73, R74). -/
def Obligations.StepKeepsResultOk : Prop :=
  ∀ s t : State, s.MemoryOk → s.DecoderOk → s.ResultOk → step s = .next t → t.ResultOk

/-- No step changes a parameter of the instance (R15, 00_scope.md section 3). -/
def Obligations.StepKeepsParameters : Prop :=
  ∀ s t : State, step s = .next t → t.par = s.par
end

