-- ==== Sys2Proof/Laws/Memory.lean ====
section
/-! SUPPORT. The laws of the sparse memory: read after write, the canonical form is kept and determines the memory. -/

namespace Sys2Proof.Machine

variable {α : Type}

@[simp] theorem Memory.get?_nil (a : Nat) : Memory.get? ([] : Memory α) a = none := rfl

/-- A read of the address just written gives the value written. -/
@[simp] theorem Memory.get?_set_self (m : Memory α) (a : Nat) (v : α) : (m.set a v).get? a = some v := by
  induction m with
  | nil => simp [Memory.set, Memory.get?]
  | cons c m ih =>
    obtain ⟨b, u⟩ := c
    simp only [Memory.set]
    split
    · simp [Memory.get?]
    · split
      · simp_all [Memory.get?]
      · simp_all [Memory.get?]

/-- A write leaves every other address alone. -/
theorem Memory.get?_set_of_ne (m : Memory α) {a b : Nat} (v : α) (h : b ≠ a) : (m.set a v).get? b = m.get? b := by
  induction m with
  | nil => simp [Memory.set, Memory.get?, h]
  | cons c m ih =>
    obtain ⟨x, u⟩ := c
    simp only [Memory.set]
    split
    · simp [Memory.get?, h]
    · split
      · subst_vars; simp [Memory.get?, h]
      · simp [Memory.get?, ih]

theorem Memory.get?_set (m : Memory α) (a b : Nat) (v : α) :
    (m.set a v).get? b = if b = a then some v else m.get? b := by
  split
  · next h => subst h; simp
  · next h => exact Memory.get?_set_of_ne m v h

@[simp] theorem Memory.wf_nil (bound : Nat) : Memory.wf bound ([] : Memory α) = true := rfl

theorem Memory.wfFrom_mono {bound lo lo' : Nat} {m : Memory α} (hl : lo' ≤ lo) (h : Memory.wfFrom bound lo m = true) :
    Memory.wfFrom bound lo' m = true := by
  cases m with
  | nil => rfl
  | cons c m =>
    simp only [Memory.wfFrom, Bool.and_eq_true, decide_eq_true_eq] at h ⊢
    exact ⟨⟨by omega, h.1.2⟩, h.2⟩

theorem Memory.wfFrom_set {bound lo : Nat} {m : Memory α} {a : Nat} (v : α) (hlo : lo ≤ a) (ha : a < bound)
    (h : Memory.wfFrom bound lo m = true) : Memory.wfFrom bound lo (m.set a v) = true := by
  induction m generalizing lo with
  | nil => simp [Memory.set, Memory.wfFrom, hlo, ha]
  | cons c m ih =>
    obtain ⟨b, u⟩ := c
    simp only [Memory.wfFrom, Bool.and_eq_true, decide_eq_true_eq] at h
    simp only [Memory.set]
    split
    · simp only [Memory.wfFrom, Bool.and_eq_true, decide_eq_true_eq]
      exact ⟨⟨hlo, ha⟩, ⟨by omega, h.1.2⟩, h.2⟩
    · split
      · simp only [Memory.wfFrom, Bool.and_eq_true, decide_eq_true_eq]
        exact h
      · simp only [Memory.wfFrom, Bool.and_eq_true, decide_eq_true_eq]
        exact ⟨h.1, ih (by omega) h.2⟩

/-- A write inside the space keeps the canonical form. -/
theorem Memory.wf_set {bound : Nat} {m : Memory α} {a : Nat} (v : α) (ha : a < bound) (h : m.wf bound = true) :
    (m.set a v).wf bound = true :=
  Memory.wfFrom_set v (Nat.zero_le a) ha h

theorem Memory.get?_eq_none_of_lt {bound lo : Nat} {m : Memory α} {a : Nat} (h : Memory.wfFrom bound lo m = true)
    (ha : a < lo) : m.get? a = none := by
  induction m generalizing lo with
  | nil => rfl
  | cons c m ih =>
    obtain ⟨b, u⟩ := c
    simp only [Memory.wfFrom, Bool.and_eq_true, decide_eq_true_eq] at h
    simp only [Memory.get?]
    rw [if_neg (by omega), ih h.2 (by omega)]

/-- Two memories in canonical form that read alike are equal. -/
theorem Memory.ext_of_wfFrom {bound lo lo' : Nat} {m m' : Memory α} (h : Memory.wfFrom bound lo m = true)
    (h' : Memory.wfFrom bound lo' m' = true) (hg : ∀ a, m.get? a = m'.get? a) : m = m' := by
  induction m generalizing m' lo lo' with
  | nil =>
    cases m' with
    | nil => rfl
    | cons c m' =>
      obtain ⟨b, u⟩ := c
      have := hg b
      simp [Memory.get?] at this
  | cons c m ih =>
    obtain ⟨b, u⟩ := c
    simp only [Memory.wfFrom, Bool.and_eq_true, decide_eq_true_eq] at h
    cases m' with
    | nil =>
      have := hg b
      simp [Memory.get?] at this
    | cons c' m' =>
      obtain ⟨b', u'⟩ := c'
      simp only [Memory.wfFrom, Bool.and_eq_true, decide_eq_true_eq] at h'
      have hb : b = b' := by
        have h1 := hg b
        have h2 := hg b'
        simp only [Memory.get?] at h1 h2
        by_contra hne
        rw [if_pos trivial, if_neg hne] at h1
        rw [if_pos trivial, if_neg (Ne.symm hne)] at h2
        rcases Nat.lt_or_gt_of_ne hne with hlt | hgt
        · rw [Memory.get?_eq_none_of_lt h'.2 (by omega)] at h1
          cases h1
        · rw [Memory.get?_eq_none_of_lt h.2 (by omega)] at h2
          cases h2
      subst hb
      have hu : u = u' := by
        have := hg b
        simpa [Memory.get?] using this
      subst hu
      rw [ih h.2 h'.2]
      intro a
      by_cases hab : a = b
      · subst hab
        rw [Memory.get?_eq_none_of_lt h.2 (by omega), Memory.get?_eq_none_of_lt h'.2 (by omega)]
      · have := hg a
        simpa [Memory.get?, hab] using this

/-- Equal memories are equal data. -/
theorem Memory.ext_of_wf {bound : Nat} {m m' : Memory α} (h : m.wf bound = true) (h' : m'.wf bound = true)
    (hg : ∀ a, m.get? a = m'.get? a) : m = m' :=
  Memory.ext_of_wfFrom h h' hg

/-- A byte of PAY after one byte write. -/
theorem State.payByte_writePay (s : State) (a b : Nat) (v : Byte) :
    (s.writePay a v).payByte b = if b = a then v else s.payByte b := by
  simp only [State.payByte, State.writePay, Memory.get?_set]
  split <;> simp_all

@[simp] theorem State.rawByte_writePay (s : State) (a b : Nat) (v : Byte) : (s.writePay a v).rawByte b = s.rawByte b := rfl

@[simp] theorem State.rawAt_writePay (s : State) (a k : Nat) (v : Byte) : (s.writePay a v).rawAt k = s.rawAt k := rfl

end Sys2Proof.Machine
end

