-- ==== Sys2Proof/Laws/State.lean ====
section
/-! SUPPORT. One lemma for each field of State under each named update, true by rfl, so that no proof unfolds a record
update; then the fields each update under a condition leaves alone. -/

namespace Sys2Proof.Machine

/-! ### `State.raise` -/

@[simp] theorem State.raise_par (s : State) (r : Raise) : (s.raise r).par = s.par := rfl
@[simp] theorem State.raise_rawBase (s : State) (r : Raise) : (s.raise r).rawBase = s.rawBase := rfl
@[simp] theorem State.raise_rawLen (s : State) (r : Raise) : (s.raise r).rawLen = s.rawLen := rfl
@[simp] theorem State.raise_descBase (s : State) (r : Raise) : (s.raise r).descBase = s.descBase := rfl
@[simp] theorem State.raise_phase (s : State) (r : Raise) : (s.raise r).phase = .fault := rfl
@[simp] theorem State.raise_status (s : State) (r : Raise) : (s.raise r).status = s.status := rfl
@[simp] theorem State.raise_errCode (s : State) (r : Raise) : (s.raise r).errCode = r.fatal.code := rfl
@[simp] theorem State.raise_errSub (s : State) (r : Raise) : (s.raise r).errSub = r.sub := rfl
@[simp] theorem State.raise_errInfo (s : State) (r : Raise) : (s.raise r).errInfo = r.info := rfl
@[simp] theorem State.raise_dst (s : State) (r : Raise) : (s.raise r).dst = s.dst := rfl
@[simp] theorem State.raise_src (s : State) (r : Raise) : (s.raise r).src = s.src := rfl
@[simp] theorem State.raise_pcmd (s : State) (r : Raise) : (s.raise r).pcmd = s.pcmd := rfl
@[simp] theorem State.raise_nfr (s : State) (r : Raise) : (s.raise r).nfr = s.nfr := rfl
@[simp] theorem State.raise_hck (s : State) (r : Raise) : (s.raise r).hck = s.hck := rfl
@[simp] theorem State.raise_payLen (s : State) (r : Raise) : (s.raise r).payLen = s.payLen := rfl
@[simp] theorem State.raise_consumed (s : State) (r : Raise) : (s.raise r).consumed = s.consumed := rfl
@[simp] theorem State.raise_ferr (s : State) (r : Raise) : (s.raise r).ferr = s.ferr := rfl
@[simp] theorem State.raise_ferrCount (s : State) (r : Raise) : (s.raise r).ferrCount = s.ferrCount := rfl
@[simp] theorem State.raise_dpc (s : State) (r : Raise) : (s.raise r).dpc = s.dpc := rfl
@[simp] theorem State.raise_acc (s : State) (r : Raise) : (s.raise r).acc = s.acc := rfl
@[simp] theorem State.raise_accw (s : State) (r : Raise) : (s.raise r).accw = s.accw := rfl
@[simp] theorem State.raise_nparts (s : State) (r : Raise) : (s.raise r).nparts = s.nparts := rfl
@[simp] theorem State.raise_abs (s : State) (r : Raise) : (s.raise r).abs = s.abs := rfl
@[simp] theorem State.raise_oobp (s : State) (r : Raise) : (s.raise r).oobp = s.oobp := rfl
@[simp] theorem State.raise_oobDpc (s : State) (r : Raise) : (s.raise r).oobDpc = s.oobDpc := rfl
@[simp] theorem State.raise_resCount (s : State) (r : Raise) : (s.raise r).resCount = 0 := rfl
@[simp] theorem State.raise_raw (s : State) (r : Raise) : (s.raise r).raw = s.raw := rfl
@[simp] theorem State.raise_pay (s : State) (r : Raise) : (s.raise r).pay = s.pay := rfl
@[simp] theorem State.raise_desc (s : State) (r : Raise) : (s.raise r).desc = s.desc := rfl
@[simp] theorem State.raise_res (s : State) (r : Raise) : (s.raise r).res = s.res := rfl
@[simp] theorem State.raise_host (s : State) (r : Raise) : (s.raise r).host = s.host := rfl
@[simp] theorem State.raise_resets (s : State) (r : Raise) : (s.raise r).resets = s.resets := rfl

/-! ### `State.clearPacket` -/

@[simp] theorem State.clearPacket_par (s : State) : (s.clearPacket).par = s.par := rfl
@[simp] theorem State.clearPacket_rawBase (s : State) : (s.clearPacket).rawBase = s.rawBase := rfl
@[simp] theorem State.clearPacket_rawLen (s : State) : (s.clearPacket).rawLen = s.rawLen := rfl
@[simp] theorem State.clearPacket_descBase (s : State) : (s.clearPacket).descBase = s.descBase := rfl
@[simp] theorem State.clearPacket_phase (s : State) : (s.clearPacket).phase = s.phase := rfl
@[simp] theorem State.clearPacket_status (s : State) : (s.clearPacket).status = 0 := rfl
@[simp] theorem State.clearPacket_errCode (s : State) : (s.clearPacket).errCode = 0 := rfl
@[simp] theorem State.clearPacket_errSub (s : State) : (s.clearPacket).errSub = 0 := rfl
@[simp] theorem State.clearPacket_errInfo (s : State) : (s.clearPacket).errInfo = 0 := rfl
@[simp] theorem State.clearPacket_dst (s : State) : (s.clearPacket).dst = 0 := rfl
@[simp] theorem State.clearPacket_src (s : State) : (s.clearPacket).src = 0 := rfl
@[simp] theorem State.clearPacket_pcmd (s : State) : (s.clearPacket).pcmd = 0 := rfl
@[simp] theorem State.clearPacket_nfr (s : State) : (s.clearPacket).nfr = 0 := rfl
@[simp] theorem State.clearPacket_hck (s : State) : (s.clearPacket).hck = 0 := rfl
@[simp] theorem State.clearPacket_payLen (s : State) : (s.clearPacket).payLen = 0 := rfl
@[simp] theorem State.clearPacket_consumed (s : State) : (s.clearPacket).consumed = 0 := rfl
@[simp] theorem State.clearPacket_ferr (s : State) : (s.clearPacket).ferr = 0 := rfl
@[simp] theorem State.clearPacket_ferrCount (s : State) : (s.clearPacket).ferrCount = 0 := rfl
@[simp] theorem State.clearPacket_dpc (s : State) : (s.clearPacket).dpc = 0 := rfl
@[simp] theorem State.clearPacket_acc (s : State) : (s.clearPacket).acc = 0 := rfl
@[simp] theorem State.clearPacket_accw (s : State) : (s.clearPacket).accw = 0 := rfl
@[simp] theorem State.clearPacket_nparts (s : State) : (s.clearPacket).nparts = 0 := rfl
@[simp] theorem State.clearPacket_abs (s : State) : (s.clearPacket).abs = false := rfl
@[simp] theorem State.clearPacket_oobp (s : State) : (s.clearPacket).oobp = false := rfl
@[simp] theorem State.clearPacket_oobDpc (s : State) : (s.clearPacket).oobDpc = 0 := rfl
@[simp] theorem State.clearPacket_resCount (s : State) : (s.clearPacket).resCount = 0 := rfl
@[simp] theorem State.clearPacket_raw (s : State) : (s.clearPacket).raw = s.raw := rfl
@[simp] theorem State.clearPacket_pay (s : State) : (s.clearPacket).pay = s.pay := rfl
@[simp] theorem State.clearPacket_desc (s : State) : (s.clearPacket).desc = s.desc := rfl
@[simp] theorem State.clearPacket_res (s : State) : (s.clearPacket).res = s.res := rfl
@[simp] theorem State.clearPacket_host (s : State) : (s.clearPacket).host = s.host := rfl
@[simp] theorem State.clearPacket_resets (s : State) : (s.clearPacket).resets = s.resets := rfl

/-! ### `State.clearGroup` -/

@[simp] theorem State.clearGroup_par (s : State) : (s.clearGroup).par = s.par := rfl
@[simp] theorem State.clearGroup_rawBase (s : State) : (s.clearGroup).rawBase = s.rawBase := rfl
@[simp] theorem State.clearGroup_rawLen (s : State) : (s.clearGroup).rawLen = s.rawLen := rfl
@[simp] theorem State.clearGroup_descBase (s : State) : (s.clearGroup).descBase = s.descBase := rfl
@[simp] theorem State.clearGroup_phase (s : State) : (s.clearGroup).phase = s.phase := rfl
@[simp] theorem State.clearGroup_status (s : State) : (s.clearGroup).status = s.status := rfl
@[simp] theorem State.clearGroup_errCode (s : State) : (s.clearGroup).errCode = s.errCode := rfl
@[simp] theorem State.clearGroup_errSub (s : State) : (s.clearGroup).errSub = s.errSub := rfl
@[simp] theorem State.clearGroup_errInfo (s : State) : (s.clearGroup).errInfo = s.errInfo := rfl
@[simp] theorem State.clearGroup_dst (s : State) : (s.clearGroup).dst = s.dst := rfl
@[simp] theorem State.clearGroup_src (s : State) : (s.clearGroup).src = s.src := rfl
@[simp] theorem State.clearGroup_pcmd (s : State) : (s.clearGroup).pcmd = s.pcmd := rfl
@[simp] theorem State.clearGroup_nfr (s : State) : (s.clearGroup).nfr = s.nfr := rfl
@[simp] theorem State.clearGroup_hck (s : State) : (s.clearGroup).hck = s.hck := rfl
@[simp] theorem State.clearGroup_payLen (s : State) : (s.clearGroup).payLen = s.payLen := rfl
@[simp] theorem State.clearGroup_consumed (s : State) : (s.clearGroup).consumed = s.consumed := rfl
@[simp] theorem State.clearGroup_ferr (s : State) : (s.clearGroup).ferr = s.ferr := rfl
@[simp] theorem State.clearGroup_ferrCount (s : State) : (s.clearGroup).ferrCount = s.ferrCount := rfl
@[simp] theorem State.clearGroup_dpc (s : State) : (s.clearGroup).dpc = s.dpc := rfl
@[simp] theorem State.clearGroup_acc (s : State) : (s.clearGroup).acc = 0 := rfl
@[simp] theorem State.clearGroup_accw (s : State) : (s.clearGroup).accw = 0 := rfl
@[simp] theorem State.clearGroup_nparts (s : State) : (s.clearGroup).nparts = 0 := rfl
@[simp] theorem State.clearGroup_abs (s : State) : (s.clearGroup).abs = false := rfl
@[simp] theorem State.clearGroup_oobp (s : State) : (s.clearGroup).oobp = false := rfl
@[simp] theorem State.clearGroup_oobDpc (s : State) : (s.clearGroup).oobDpc = 0 := rfl
@[simp] theorem State.clearGroup_resCount (s : State) : (s.clearGroup).resCount = s.resCount := rfl
@[simp] theorem State.clearGroup_raw (s : State) : (s.clearGroup).raw = s.raw := rfl
@[simp] theorem State.clearGroup_pay (s : State) : (s.clearGroup).pay = s.pay := rfl
@[simp] theorem State.clearGroup_desc (s : State) : (s.clearGroup).desc = s.desc := rfl
@[simp] theorem State.clearGroup_res (s : State) : (s.clearGroup).res = s.res := rfl
@[simp] theorem State.clearGroup_host (s : State) : (s.clearGroup).host = s.host := rfl
@[simp] theorem State.clearGroup_resets (s : State) : (s.clearGroup).resets = s.resets := rfl

/-! ### `State.advance` -/

@[simp] theorem State.advance_par (s : State) : (s.advance).par = s.par := rfl
@[simp] theorem State.advance_rawBase (s : State) : (s.advance).rawBase = s.rawBase := rfl
@[simp] theorem State.advance_rawLen (s : State) : (s.advance).rawLen = s.rawLen := rfl
@[simp] theorem State.advance_descBase (s : State) : (s.advance).descBase = s.descBase := rfl
@[simp] theorem State.advance_phase (s : State) : (s.advance).phase = s.phase := rfl
@[simp] theorem State.advance_status (s : State) : (s.advance).status = s.status := rfl
@[simp] theorem State.advance_errCode (s : State) : (s.advance).errCode = s.errCode := rfl
@[simp] theorem State.advance_errSub (s : State) : (s.advance).errSub = s.errSub := rfl
@[simp] theorem State.advance_errInfo (s : State) : (s.advance).errInfo = s.errInfo := rfl
@[simp] theorem State.advance_dst (s : State) : (s.advance).dst = s.dst := rfl
@[simp] theorem State.advance_src (s : State) : (s.advance).src = s.src := rfl
@[simp] theorem State.advance_pcmd (s : State) : (s.advance).pcmd = s.pcmd := rfl
@[simp] theorem State.advance_nfr (s : State) : (s.advance).nfr = s.nfr := rfl
@[simp] theorem State.advance_hck (s : State) : (s.advance).hck = s.hck := rfl
@[simp] theorem State.advance_payLen (s : State) : (s.advance).payLen = s.payLen := rfl
@[simp] theorem State.advance_consumed (s : State) : (s.advance).consumed = s.consumed := rfl
@[simp] theorem State.advance_ferr (s : State) : (s.advance).ferr = s.ferr := rfl
@[simp] theorem State.advance_ferrCount (s : State) : (s.advance).ferrCount = s.ferrCount := rfl
@[simp] theorem State.advance_dpc (s : State) : (s.advance).dpc = s.dpc + 1 := rfl
@[simp] theorem State.advance_acc (s : State) : (s.advance).acc = s.acc := rfl
@[simp] theorem State.advance_accw (s : State) : (s.advance).accw = s.accw := rfl
@[simp] theorem State.advance_nparts (s : State) : (s.advance).nparts = s.nparts := rfl
@[simp] theorem State.advance_abs (s : State) : (s.advance).abs = s.abs := rfl
@[simp] theorem State.advance_oobp (s : State) : (s.advance).oobp = s.oobp := rfl
@[simp] theorem State.advance_oobDpc (s : State) : (s.advance).oobDpc = s.oobDpc := rfl
@[simp] theorem State.advance_resCount (s : State) : (s.advance).resCount = s.resCount := rfl
@[simp] theorem State.advance_raw (s : State) : (s.advance).raw = s.raw := rfl
@[simp] theorem State.advance_pay (s : State) : (s.advance).pay = s.pay := rfl
@[simp] theorem State.advance_desc (s : State) : (s.advance).desc = s.desc := rfl
@[simp] theorem State.advance_res (s : State) : (s.advance).res = s.res := rfl
@[simp] theorem State.advance_host (s : State) : (s.advance).host = s.host := rfl
@[simp] theorem State.advance_resets (s : State) : (s.advance).resets = s.resets := rfl

/-! ### `State.append` -/

@[simp] theorem State.append_par (s : State) (r : Record) : (s.append r).par = s.par := rfl
@[simp] theorem State.append_rawBase (s : State) (r : Record) : (s.append r).rawBase = s.rawBase := rfl
@[simp] theorem State.append_rawLen (s : State) (r : Record) : (s.append r).rawLen = s.rawLen := rfl
@[simp] theorem State.append_descBase (s : State) (r : Record) : (s.append r).descBase = s.descBase := rfl
@[simp] theorem State.append_phase (s : State) (r : Record) : (s.append r).phase = s.phase := rfl
@[simp] theorem State.append_status (s : State) (r : Record) : (s.append r).status = s.status := rfl
@[simp] theorem State.append_errCode (s : State) (r : Record) : (s.append r).errCode = s.errCode := rfl
@[simp] theorem State.append_errSub (s : State) (r : Record) : (s.append r).errSub = s.errSub := rfl
@[simp] theorem State.append_errInfo (s : State) (r : Record) : (s.append r).errInfo = s.errInfo := rfl
@[simp] theorem State.append_dst (s : State) (r : Record) : (s.append r).dst = s.dst := rfl
@[simp] theorem State.append_src (s : State) (r : Record) : (s.append r).src = s.src := rfl
@[simp] theorem State.append_pcmd (s : State) (r : Record) : (s.append r).pcmd = s.pcmd := rfl
@[simp] theorem State.append_nfr (s : State) (r : Record) : (s.append r).nfr = s.nfr := rfl
@[simp] theorem State.append_hck (s : State) (r : Record) : (s.append r).hck = s.hck := rfl
@[simp] theorem State.append_payLen (s : State) (r : Record) : (s.append r).payLen = s.payLen := rfl
@[simp] theorem State.append_consumed (s : State) (r : Record) : (s.append r).consumed = s.consumed := rfl
@[simp] theorem State.append_ferr (s : State) (r : Record) : (s.append r).ferr = s.ferr := rfl
@[simp] theorem State.append_ferrCount (s : State) (r : Record) : (s.append r).ferrCount = s.ferrCount := rfl
@[simp] theorem State.append_dpc (s : State) (r : Record) : (s.append r).dpc = s.dpc := rfl
@[simp] theorem State.append_acc (s : State) (r : Record) : (s.append r).acc = s.acc := rfl
@[simp] theorem State.append_accw (s : State) (r : Record) : (s.append r).accw = s.accw := rfl
@[simp] theorem State.append_nparts (s : State) (r : Record) : (s.append r).nparts = s.nparts := rfl
@[simp] theorem State.append_abs (s : State) (r : Record) : (s.append r).abs = s.abs := rfl
@[simp] theorem State.append_oobp (s : State) (r : Record) : (s.append r).oobp = s.oobp := rfl
@[simp] theorem State.append_oobDpc (s : State) (r : Record) : (s.append r).oobDpc = s.oobDpc := rfl
@[simp] theorem State.append_resCount (s : State) (r : Record) : (s.append r).resCount = s.resCount + 1 := rfl
@[simp] theorem State.append_raw (s : State) (r : Record) : (s.append r).raw = s.raw := rfl
@[simp] theorem State.append_pay (s : State) (r : Record) : (s.append r).pay = s.pay := rfl
@[simp] theorem State.append_desc (s : State) (r : Record) : (s.append r).desc = s.desc := rfl
@[simp] theorem State.append_res (s : State) (r : Record) : (s.append r).res = s.res.set s.resCount.toNat r := rfl
@[simp] theorem State.append_host (s : State) (r : Record) : (s.append r).host = s.host := rfl
@[simp] theorem State.append_resets (s : State) (r : Record) : (s.append r).resets = s.resets := rfl

/-! ### `State.setFlag` -/

@[simp] theorem State.setFlag_par (s : State) (f : StatusFlag) : (s.setFlag f).par = s.par := rfl
@[simp] theorem State.setFlag_rawBase (s : State) (f : StatusFlag) : (s.setFlag f).rawBase = s.rawBase := rfl
@[simp] theorem State.setFlag_rawLen (s : State) (f : StatusFlag) : (s.setFlag f).rawLen = s.rawLen := rfl
@[simp] theorem State.setFlag_descBase (s : State) (f : StatusFlag) : (s.setFlag f).descBase = s.descBase := rfl
@[simp] theorem State.setFlag_phase (s : State) (f : StatusFlag) : (s.setFlag f).phase = s.phase := rfl
@[simp] theorem State.setFlag_status (s : State) (f : StatusFlag) : (s.setFlag f).status = s.status ||| (1#8 <<< f.bit) := rfl
@[simp] theorem State.setFlag_errCode (s : State) (f : StatusFlag) : (s.setFlag f).errCode = s.errCode := rfl
@[simp] theorem State.setFlag_errSub (s : State) (f : StatusFlag) : (s.setFlag f).errSub = s.errSub := rfl
@[simp] theorem State.setFlag_errInfo (s : State) (f : StatusFlag) : (s.setFlag f).errInfo = s.errInfo := rfl
@[simp] theorem State.setFlag_dst (s : State) (f : StatusFlag) : (s.setFlag f).dst = s.dst := rfl
@[simp] theorem State.setFlag_src (s : State) (f : StatusFlag) : (s.setFlag f).src = s.src := rfl
@[simp] theorem State.setFlag_pcmd (s : State) (f : StatusFlag) : (s.setFlag f).pcmd = s.pcmd := rfl
@[simp] theorem State.setFlag_nfr (s : State) (f : StatusFlag) : (s.setFlag f).nfr = s.nfr := rfl
@[simp] theorem State.setFlag_hck (s : State) (f : StatusFlag) : (s.setFlag f).hck = s.hck := rfl
@[simp] theorem State.setFlag_payLen (s : State) (f : StatusFlag) : (s.setFlag f).payLen = s.payLen := rfl
@[simp] theorem State.setFlag_consumed (s : State) (f : StatusFlag) : (s.setFlag f).consumed = s.consumed := rfl
@[simp] theorem State.setFlag_ferr (s : State) (f : StatusFlag) : (s.setFlag f).ferr = s.ferr := rfl
@[simp] theorem State.setFlag_ferrCount (s : State) (f : StatusFlag) : (s.setFlag f).ferrCount = s.ferrCount := rfl
@[simp] theorem State.setFlag_dpc (s : State) (f : StatusFlag) : (s.setFlag f).dpc = s.dpc := rfl
@[simp] theorem State.setFlag_acc (s : State) (f : StatusFlag) : (s.setFlag f).acc = s.acc := rfl
@[simp] theorem State.setFlag_accw (s : State) (f : StatusFlag) : (s.setFlag f).accw = s.accw := rfl
@[simp] theorem State.setFlag_nparts (s : State) (f : StatusFlag) : (s.setFlag f).nparts = s.nparts := rfl
@[simp] theorem State.setFlag_abs (s : State) (f : StatusFlag) : (s.setFlag f).abs = s.abs := rfl
@[simp] theorem State.setFlag_oobp (s : State) (f : StatusFlag) : (s.setFlag f).oobp = s.oobp := rfl
@[simp] theorem State.setFlag_oobDpc (s : State) (f : StatusFlag) : (s.setFlag f).oobDpc = s.oobDpc := rfl
@[simp] theorem State.setFlag_resCount (s : State) (f : StatusFlag) : (s.setFlag f).resCount = s.resCount := rfl
@[simp] theorem State.setFlag_raw (s : State) (f : StatusFlag) : (s.setFlag f).raw = s.raw := rfl
@[simp] theorem State.setFlag_pay (s : State) (f : StatusFlag) : (s.setFlag f).pay = s.pay := rfl
@[simp] theorem State.setFlag_desc (s : State) (f : StatusFlag) : (s.setFlag f).desc = s.desc := rfl
@[simp] theorem State.setFlag_res (s : State) (f : StatusFlag) : (s.setFlag f).res = s.res := rfl
@[simp] theorem State.setFlag_host (s : State) (f : StatusFlag) : (s.setFlag f).host = s.host := rfl
@[simp] theorem State.setFlag_resets (s : State) (f : StatusFlag) : (s.setFlag f).resets = s.resets := rfl

/-! ### `State.clearFlag` -/

@[simp] theorem State.clearFlag_par (s : State) (f : StatusFlag) : (s.clearFlag f).par = s.par := rfl
@[simp] theorem State.clearFlag_rawBase (s : State) (f : StatusFlag) : (s.clearFlag f).rawBase = s.rawBase := rfl
@[simp] theorem State.clearFlag_rawLen (s : State) (f : StatusFlag) : (s.clearFlag f).rawLen = s.rawLen := rfl
@[simp] theorem State.clearFlag_descBase (s : State) (f : StatusFlag) : (s.clearFlag f).descBase = s.descBase := rfl
@[simp] theorem State.clearFlag_phase (s : State) (f : StatusFlag) : (s.clearFlag f).phase = s.phase := rfl
@[simp] theorem State.clearFlag_status (s : State) (f : StatusFlag) : (s.clearFlag f).status = s.status &&& ~~~(1#8 <<< f.bit) := rfl
@[simp] theorem State.clearFlag_errCode (s : State) (f : StatusFlag) : (s.clearFlag f).errCode = s.errCode := rfl
@[simp] theorem State.clearFlag_errSub (s : State) (f : StatusFlag) : (s.clearFlag f).errSub = s.errSub := rfl
@[simp] theorem State.clearFlag_errInfo (s : State) (f : StatusFlag) : (s.clearFlag f).errInfo = s.errInfo := rfl
@[simp] theorem State.clearFlag_dst (s : State) (f : StatusFlag) : (s.clearFlag f).dst = s.dst := rfl
@[simp] theorem State.clearFlag_src (s : State) (f : StatusFlag) : (s.clearFlag f).src = s.src := rfl
@[simp] theorem State.clearFlag_pcmd (s : State) (f : StatusFlag) : (s.clearFlag f).pcmd = s.pcmd := rfl
@[simp] theorem State.clearFlag_nfr (s : State) (f : StatusFlag) : (s.clearFlag f).nfr = s.nfr := rfl
@[simp] theorem State.clearFlag_hck (s : State) (f : StatusFlag) : (s.clearFlag f).hck = s.hck := rfl
@[simp] theorem State.clearFlag_payLen (s : State) (f : StatusFlag) : (s.clearFlag f).payLen = s.payLen := rfl
@[simp] theorem State.clearFlag_consumed (s : State) (f : StatusFlag) : (s.clearFlag f).consumed = s.consumed := rfl
@[simp] theorem State.clearFlag_ferr (s : State) (f : StatusFlag) : (s.clearFlag f).ferr = s.ferr := rfl
@[simp] theorem State.clearFlag_ferrCount (s : State) (f : StatusFlag) : (s.clearFlag f).ferrCount = s.ferrCount := rfl
@[simp] theorem State.clearFlag_dpc (s : State) (f : StatusFlag) : (s.clearFlag f).dpc = s.dpc := rfl
@[simp] theorem State.clearFlag_acc (s : State) (f : StatusFlag) : (s.clearFlag f).acc = s.acc := rfl
@[simp] theorem State.clearFlag_accw (s : State) (f : StatusFlag) : (s.clearFlag f).accw = s.accw := rfl
@[simp] theorem State.clearFlag_nparts (s : State) (f : StatusFlag) : (s.clearFlag f).nparts = s.nparts := rfl
@[simp] theorem State.clearFlag_abs (s : State) (f : StatusFlag) : (s.clearFlag f).abs = s.abs := rfl
@[simp] theorem State.clearFlag_oobp (s : State) (f : StatusFlag) : (s.clearFlag f).oobp = s.oobp := rfl
@[simp] theorem State.clearFlag_oobDpc (s : State) (f : StatusFlag) : (s.clearFlag f).oobDpc = s.oobDpc := rfl
@[simp] theorem State.clearFlag_resCount (s : State) (f : StatusFlag) : (s.clearFlag f).resCount = s.resCount := rfl
@[simp] theorem State.clearFlag_raw (s : State) (f : StatusFlag) : (s.clearFlag f).raw = s.raw := rfl
@[simp] theorem State.clearFlag_pay (s : State) (f : StatusFlag) : (s.clearFlag f).pay = s.pay := rfl
@[simp] theorem State.clearFlag_desc (s : State) (f : StatusFlag) : (s.clearFlag f).desc = s.desc := rfl
@[simp] theorem State.clearFlag_res (s : State) (f : StatusFlag) : (s.clearFlag f).res = s.res := rfl
@[simp] theorem State.clearFlag_host (s : State) (f : StatusFlag) : (s.clearFlag f).host = s.host := rfl
@[simp] theorem State.clearFlag_resets (s : State) (f : StatusFlag) : (s.clearFlag f).resets = s.resets := rfl

/-! ### `State.markFrame` -/

@[simp] theorem State.markFrame_par (s : State) (i : Nat) : (s.markFrame i).par = s.par := rfl
@[simp] theorem State.markFrame_rawBase (s : State) (i : Nat) : (s.markFrame i).rawBase = s.rawBase := rfl
@[simp] theorem State.markFrame_rawLen (s : State) (i : Nat) : (s.markFrame i).rawLen = s.rawLen := rfl
@[simp] theorem State.markFrame_descBase (s : State) (i : Nat) : (s.markFrame i).descBase = s.descBase := rfl
@[simp] theorem State.markFrame_phase (s : State) (i : Nat) : (s.markFrame i).phase = s.phase := rfl
@[simp] theorem State.markFrame_status (s : State) (i : Nat) : (s.markFrame i).status = s.status ||| (1#8 <<< StatusFlag.fck.bit) := rfl
@[simp] theorem State.markFrame_errCode (s : State) (i : Nat) : (s.markFrame i).errCode = s.errCode := rfl
@[simp] theorem State.markFrame_errSub (s : State) (i : Nat) : (s.markFrame i).errSub = s.errSub := rfl
@[simp] theorem State.markFrame_errInfo (s : State) (i : Nat) : (s.markFrame i).errInfo = s.errInfo := rfl
@[simp] theorem State.markFrame_dst (s : State) (i : Nat) : (s.markFrame i).dst = s.dst := rfl
@[simp] theorem State.markFrame_src (s : State) (i : Nat) : (s.markFrame i).src = s.src := rfl
@[simp] theorem State.markFrame_pcmd (s : State) (i : Nat) : (s.markFrame i).pcmd = s.pcmd := rfl
@[simp] theorem State.markFrame_nfr (s : State) (i : Nat) : (s.markFrame i).nfr = s.nfr := rfl
@[simp] theorem State.markFrame_hck (s : State) (i : Nat) : (s.markFrame i).hck = s.hck := rfl
@[simp] theorem State.markFrame_payLen (s : State) (i : Nat) : (s.markFrame i).payLen = s.payLen := rfl
@[simp] theorem State.markFrame_consumed (s : State) (i : Nat) : (s.markFrame i).consumed = s.consumed := rfl
@[simp] theorem State.markFrame_ferr (s : State) (i : Nat) : (s.markFrame i).ferr = s.ferr ||| (1#255 <<< i) := rfl
@[simp] theorem State.markFrame_ferrCount (s : State) (i : Nat) : (s.markFrame i).ferrCount = s.ferrCount + 1 := rfl
@[simp] theorem State.markFrame_dpc (s : State) (i : Nat) : (s.markFrame i).dpc = s.dpc := rfl
@[simp] theorem State.markFrame_acc (s : State) (i : Nat) : (s.markFrame i).acc = s.acc := rfl
@[simp] theorem State.markFrame_accw (s : State) (i : Nat) : (s.markFrame i).accw = s.accw := rfl
@[simp] theorem State.markFrame_nparts (s : State) (i : Nat) : (s.markFrame i).nparts = s.nparts := rfl
@[simp] theorem State.markFrame_abs (s : State) (i : Nat) : (s.markFrame i).abs = s.abs := rfl
@[simp] theorem State.markFrame_oobp (s : State) (i : Nat) : (s.markFrame i).oobp = s.oobp := rfl
@[simp] theorem State.markFrame_oobDpc (s : State) (i : Nat) : (s.markFrame i).oobDpc = s.oobDpc := rfl
@[simp] theorem State.markFrame_resCount (s : State) (i : Nat) : (s.markFrame i).resCount = s.resCount := rfl
@[simp] theorem State.markFrame_raw (s : State) (i : Nat) : (s.markFrame i).raw = s.raw := rfl
@[simp] theorem State.markFrame_pay (s : State) (i : Nat) : (s.markFrame i).pay = s.pay := rfl
@[simp] theorem State.markFrame_desc (s : State) (i : Nat) : (s.markFrame i).desc = s.desc := rfl
@[simp] theorem State.markFrame_res (s : State) (i : Nat) : (s.markFrame i).res = s.res := rfl
@[simp] theorem State.markFrame_host (s : State) (i : Nat) : (s.markFrame i).host = s.host := rfl
@[simp] theorem State.markFrame_resets (s : State) (i : Nat) : (s.markFrame i).resets = s.resets := rfl

/-! ### `State.writePay` -/

@[simp] theorem State.writePay_par (s : State) (a : Nat) (v : Byte) : (s.writePay a v).par = s.par := rfl
@[simp] theorem State.writePay_rawBase (s : State) (a : Nat) (v : Byte) : (s.writePay a v).rawBase = s.rawBase := rfl
@[simp] theorem State.writePay_rawLen (s : State) (a : Nat) (v : Byte) : (s.writePay a v).rawLen = s.rawLen := rfl
@[simp] theorem State.writePay_descBase (s : State) (a : Nat) (v : Byte) : (s.writePay a v).descBase = s.descBase := rfl
@[simp] theorem State.writePay_phase (s : State) (a : Nat) (v : Byte) : (s.writePay a v).phase = s.phase := rfl
@[simp] theorem State.writePay_status (s : State) (a : Nat) (v : Byte) : (s.writePay a v).status = s.status := rfl
@[simp] theorem State.writePay_errCode (s : State) (a : Nat) (v : Byte) : (s.writePay a v).errCode = s.errCode := rfl
@[simp] theorem State.writePay_errSub (s : State) (a : Nat) (v : Byte) : (s.writePay a v).errSub = s.errSub := rfl
@[simp] theorem State.writePay_errInfo (s : State) (a : Nat) (v : Byte) : (s.writePay a v).errInfo = s.errInfo := rfl
@[simp] theorem State.writePay_dst (s : State) (a : Nat) (v : Byte) : (s.writePay a v).dst = s.dst := rfl
@[simp] theorem State.writePay_src (s : State) (a : Nat) (v : Byte) : (s.writePay a v).src = s.src := rfl
@[simp] theorem State.writePay_pcmd (s : State) (a : Nat) (v : Byte) : (s.writePay a v).pcmd = s.pcmd := rfl
@[simp] theorem State.writePay_nfr (s : State) (a : Nat) (v : Byte) : (s.writePay a v).nfr = s.nfr := rfl
@[simp] theorem State.writePay_hck (s : State) (a : Nat) (v : Byte) : (s.writePay a v).hck = s.hck := rfl
@[simp] theorem State.writePay_payLen (s : State) (a : Nat) (v : Byte) : (s.writePay a v).payLen = s.payLen := rfl
@[simp] theorem State.writePay_consumed (s : State) (a : Nat) (v : Byte) : (s.writePay a v).consumed = s.consumed := rfl
@[simp] theorem State.writePay_ferr (s : State) (a : Nat) (v : Byte) : (s.writePay a v).ferr = s.ferr := rfl
@[simp] theorem State.writePay_ferrCount (s : State) (a : Nat) (v : Byte) : (s.writePay a v).ferrCount = s.ferrCount := rfl
@[simp] theorem State.writePay_dpc (s : State) (a : Nat) (v : Byte) : (s.writePay a v).dpc = s.dpc := rfl
@[simp] theorem State.writePay_acc (s : State) (a : Nat) (v : Byte) : (s.writePay a v).acc = s.acc := rfl
@[simp] theorem State.writePay_accw (s : State) (a : Nat) (v : Byte) : (s.writePay a v).accw = s.accw := rfl
@[simp] theorem State.writePay_nparts (s : State) (a : Nat) (v : Byte) : (s.writePay a v).nparts = s.nparts := rfl
@[simp] theorem State.writePay_abs (s : State) (a : Nat) (v : Byte) : (s.writePay a v).abs = s.abs := rfl
@[simp] theorem State.writePay_oobp (s : State) (a : Nat) (v : Byte) : (s.writePay a v).oobp = s.oobp := rfl
@[simp] theorem State.writePay_oobDpc (s : State) (a : Nat) (v : Byte) : (s.writePay a v).oobDpc = s.oobDpc := rfl
@[simp] theorem State.writePay_resCount (s : State) (a : Nat) (v : Byte) : (s.writePay a v).resCount = s.resCount := rfl
@[simp] theorem State.writePay_raw (s : State) (a : Nat) (v : Byte) : (s.writePay a v).raw = s.raw := rfl
@[simp] theorem State.writePay_pay (s : State) (a : Nat) (v : Byte) : (s.writePay a v).pay = s.pay.set a v := rfl
@[simp] theorem State.writePay_desc (s : State) (a : Nat) (v : Byte) : (s.writePay a v).desc = s.desc := rfl
@[simp] theorem State.writePay_res (s : State) (a : Nat) (v : Byte) : (s.writePay a v).res = s.res := rfl
@[simp] theorem State.writePay_host (s : State) (a : Nat) (v : Byte) : (s.writePay a v).host = s.host := rfl
@[simp] theorem State.writePay_resets (s : State) (a : Nat) (v : Byte) : (s.writePay a v).resets = s.resets := rfl

/-! ### `State.finishPacket` -/

@[simp] theorem State.finishPacket_par (s : State) (n need : Nat) : (State.finishPacket n need s).par = s.par := rfl
@[simp] theorem State.finishPacket_rawBase (s : State) (n need : Nat) : (State.finishPacket n need s).rawBase = s.rawBase := rfl
@[simp] theorem State.finishPacket_rawLen (s : State) (n need : Nat) : (State.finishPacket n need s).rawLen = s.rawLen := rfl
@[simp] theorem State.finishPacket_descBase (s : State) (n need : Nat) : (State.finishPacket n need s).descBase = s.descBase := rfl
@[simp] theorem State.finishPacket_phase (s : State) (n need : Nat) : (State.finishPacket n need s).phase = .assembled := rfl
@[simp] theorem State.finishPacket_status (s : State) (n need : Nat) : (State.finishPacket n need s).status = s.status := rfl
@[simp] theorem State.finishPacket_errCode (s : State) (n need : Nat) : (State.finishPacket n need s).errCode = s.errCode := rfl
@[simp] theorem State.finishPacket_errSub (s : State) (n need : Nat) : (State.finishPacket n need s).errSub = s.errSub := rfl
@[simp] theorem State.finishPacket_errInfo (s : State) (n need : Nat) : (State.finishPacket n need s).errInfo = s.errInfo := rfl
@[simp] theorem State.finishPacket_dst (s : State) (n need : Nat) : (State.finishPacket n need s).dst = s.dst := rfl
@[simp] theorem State.finishPacket_src (s : State) (n need : Nat) : (State.finishPacket n need s).src = s.src := rfl
@[simp] theorem State.finishPacket_pcmd (s : State) (n need : Nat) : (State.finishPacket n need s).pcmd = s.pcmd := rfl
@[simp] theorem State.finishPacket_nfr (s : State) (n need : Nat) : (State.finishPacket n need s).nfr = s.nfr := rfl
@[simp] theorem State.finishPacket_hck (s : State) (n need : Nat) : (State.finishPacket n need s).hck = s.hck := rfl
@[simp] theorem State.finishPacket_payLen (s : State) (n need : Nat) : (State.finishPacket n need s).payLen = BitVec.ofNat 10 (3 * n) := rfl
@[simp] theorem State.finishPacket_consumed (s : State) (n need : Nat) : (State.finishPacket n need s).consumed = BitVec.ofNat 32 need := rfl
@[simp] theorem State.finishPacket_ferr (s : State) (n need : Nat) : (State.finishPacket n need s).ferr = s.ferr := rfl
@[simp] theorem State.finishPacket_ferrCount (s : State) (n need : Nat) : (State.finishPacket n need s).ferrCount = s.ferrCount := rfl
@[simp] theorem State.finishPacket_dpc (s : State) (n need : Nat) : (State.finishPacket n need s).dpc = s.dpc := rfl
@[simp] theorem State.finishPacket_acc (s : State) (n need : Nat) : (State.finishPacket n need s).acc = s.acc := rfl
@[simp] theorem State.finishPacket_accw (s : State) (n need : Nat) : (State.finishPacket n need s).accw = s.accw := rfl
@[simp] theorem State.finishPacket_nparts (s : State) (n need : Nat) : (State.finishPacket n need s).nparts = s.nparts := rfl
@[simp] theorem State.finishPacket_abs (s : State) (n need : Nat) : (State.finishPacket n need s).abs = s.abs := rfl
@[simp] theorem State.finishPacket_oobp (s : State) (n need : Nat) : (State.finishPacket n need s).oobp = s.oobp := rfl
@[simp] theorem State.finishPacket_oobDpc (s : State) (n need : Nat) : (State.finishPacket n need s).oobDpc = s.oobDpc := rfl
@[simp] theorem State.finishPacket_resCount (s : State) (n need : Nat) : (State.finishPacket n need s).resCount = s.resCount := rfl
@[simp] theorem State.finishPacket_raw (s : State) (n need : Nat) : (State.finishPacket n need s).raw = s.raw := rfl
@[simp] theorem State.finishPacket_pay (s : State) (n need : Nat) : (State.finishPacket n need s).pay = s.pay := rfl
@[simp] theorem State.finishPacket_desc (s : State) (n need : Nat) : (State.finishPacket n need s).desc = s.desc := rfl
@[simp] theorem State.finishPacket_res (s : State) (n need : Nat) : (State.finishPacket n need s).res = s.res := rfl
@[simp] theorem State.finishPacket_host (s : State) (n need : Nat) : (State.finishPacket n need s).host = s.host := rfl
@[simp] theorem State.finishPacket_resets (s : State) (n need : Nat) : (State.finishPacket n need s).resets = s.resets := rfl

/-! ### `State.latchHeader` -/

@[simp] theorem State.latchHeader_par (s : State) : (s.latchHeader).par = s.par := rfl
@[simp] theorem State.latchHeader_rawBase (s : State) : (s.latchHeader).rawBase = s.rawBase := rfl
@[simp] theorem State.latchHeader_rawLen (s : State) : (s.latchHeader).rawLen = s.rawLen := rfl
@[simp] theorem State.latchHeader_descBase (s : State) : (s.latchHeader).descBase = s.descBase := rfl
@[simp] theorem State.latchHeader_phase (s : State) : (s.latchHeader).phase = s.phase := rfl
@[simp] theorem State.latchHeader_status (s : State) : (s.latchHeader).status = s.status := rfl
@[simp] theorem State.latchHeader_errCode (s : State) : (s.latchHeader).errCode = s.errCode := rfl
@[simp] theorem State.latchHeader_errSub (s : State) : (s.latchHeader).errSub = s.errSub := rfl
@[simp] theorem State.latchHeader_errInfo (s : State) : (s.latchHeader).errInfo = s.errInfo := rfl
@[simp] theorem State.latchHeader_dst (s : State) : (s.latchHeader).dst = s.rawAt 2 ++ s.rawAt 1 := rfl
@[simp] theorem State.latchHeader_src (s : State) : (s.latchHeader).src = s.rawAt 4 ++ s.rawAt 3 := rfl
@[simp] theorem State.latchHeader_pcmd (s : State) : (s.latchHeader).pcmd = s.rawAt 6 ++ s.rawAt 5 := rfl
@[simp] theorem State.latchHeader_nfr (s : State) : (s.latchHeader).nfr = s.rawAt 7 := rfl
@[simp] theorem State.latchHeader_hck (s : State) : (s.latchHeader).hck = s.rawAt 8 := rfl
@[simp] theorem State.latchHeader_payLen (s : State) : (s.latchHeader).payLen = s.payLen := rfl
@[simp] theorem State.latchHeader_consumed (s : State) : (s.latchHeader).consumed = s.consumed := rfl
@[simp] theorem State.latchHeader_ferr (s : State) : (s.latchHeader).ferr = s.ferr := rfl
@[simp] theorem State.latchHeader_ferrCount (s : State) : (s.latchHeader).ferrCount = s.ferrCount := rfl
@[simp] theorem State.latchHeader_dpc (s : State) : (s.latchHeader).dpc = s.dpc := rfl
@[simp] theorem State.latchHeader_acc (s : State) : (s.latchHeader).acc = s.acc := rfl
@[simp] theorem State.latchHeader_accw (s : State) : (s.latchHeader).accw = s.accw := rfl
@[simp] theorem State.latchHeader_nparts (s : State) : (s.latchHeader).nparts = s.nparts := rfl
@[simp] theorem State.latchHeader_abs (s : State) : (s.latchHeader).abs = s.abs := rfl
@[simp] theorem State.latchHeader_oobp (s : State) : (s.latchHeader).oobp = s.oobp := rfl
@[simp] theorem State.latchHeader_oobDpc (s : State) : (s.latchHeader).oobDpc = s.oobDpc := rfl
@[simp] theorem State.latchHeader_resCount (s : State) : (s.latchHeader).resCount = s.resCount := rfl
@[simp] theorem State.latchHeader_raw (s : State) : (s.latchHeader).raw = s.raw := rfl
@[simp] theorem State.latchHeader_pay (s : State) : (s.latchHeader).pay = s.pay := rfl
@[simp] theorem State.latchHeader_desc (s : State) : (s.latchHeader).desc = s.desc := rfl
@[simp] theorem State.latchHeader_res (s : State) : (s.latchHeader).res = s.res := rfl
@[simp] theorem State.latchHeader_host (s : State) : (s.latchHeader).host = s.host := rfl
@[simp] theorem State.latchHeader_resets (s : State) : (s.latchHeader).resets = s.resets := rfl

/-! ### `State.countPart` -/

@[simp] theorem State.countPart_par (s : State) (pw : Nat) : (countPart pw s).par = s.par := rfl
@[simp] theorem State.countPart_rawBase (s : State) (pw : Nat) : (countPart pw s).rawBase = s.rawBase := rfl
@[simp] theorem State.countPart_rawLen (s : State) (pw : Nat) : (countPart pw s).rawLen = s.rawLen := rfl
@[simp] theorem State.countPart_descBase (s : State) (pw : Nat) : (countPart pw s).descBase = s.descBase := rfl
@[simp] theorem State.countPart_phase (s : State) (pw : Nat) : (countPart pw s).phase = s.phase := rfl
@[simp] theorem State.countPart_status (s : State) (pw : Nat) : (countPart pw s).status = s.status := rfl
@[simp] theorem State.countPart_errCode (s : State) (pw : Nat) : (countPart pw s).errCode = s.errCode := rfl
@[simp] theorem State.countPart_errSub (s : State) (pw : Nat) : (countPart pw s).errSub = s.errSub := rfl
@[simp] theorem State.countPart_errInfo (s : State) (pw : Nat) : (countPart pw s).errInfo = s.errInfo := rfl
@[simp] theorem State.countPart_dst (s : State) (pw : Nat) : (countPart pw s).dst = s.dst := rfl
@[simp] theorem State.countPart_src (s : State) (pw : Nat) : (countPart pw s).src = s.src := rfl
@[simp] theorem State.countPart_pcmd (s : State) (pw : Nat) : (countPart pw s).pcmd = s.pcmd := rfl
@[simp] theorem State.countPart_nfr (s : State) (pw : Nat) : (countPart pw s).nfr = s.nfr := rfl
@[simp] theorem State.countPart_hck (s : State) (pw : Nat) : (countPart pw s).hck = s.hck := rfl
@[simp] theorem State.countPart_payLen (s : State) (pw : Nat) : (countPart pw s).payLen = s.payLen := rfl
@[simp] theorem State.countPart_consumed (s : State) (pw : Nat) : (countPart pw s).consumed = s.consumed := rfl
@[simp] theorem State.countPart_ferr (s : State) (pw : Nat) : (countPart pw s).ferr = s.ferr := rfl
@[simp] theorem State.countPart_ferrCount (s : State) (pw : Nat) : (countPart pw s).ferrCount = s.ferrCount := rfl
@[simp] theorem State.countPart_dpc (s : State) (pw : Nat) : (countPart pw s).dpc = s.dpc := rfl
@[simp] theorem State.countPart_acc (s : State) (pw : Nat) : (countPart pw s).acc = s.acc := rfl
@[simp] theorem State.countPart_accw (s : State) (pw : Nat) : (countPart pw s).accw = s.accw + BitVec.ofNat 6 pw := rfl
@[simp] theorem State.countPart_nparts (s : State) (pw : Nat) : (countPart pw s).nparts = s.nparts + 1 := rfl
@[simp] theorem State.countPart_abs (s : State) (pw : Nat) : (countPart pw s).abs = s.abs := rfl
@[simp] theorem State.countPart_oobp (s : State) (pw : Nat) : (countPart pw s).oobp = s.oobp := rfl
@[simp] theorem State.countPart_oobDpc (s : State) (pw : Nat) : (countPart pw s).oobDpc = s.oobDpc := rfl
@[simp] theorem State.countPart_resCount (s : State) (pw : Nat) : (countPart pw s).resCount = s.resCount := rfl
@[simp] theorem State.countPart_raw (s : State) (pw : Nat) : (countPart pw s).raw = s.raw := rfl
@[simp] theorem State.countPart_pay (s : State) (pw : Nat) : (countPart pw s).pay = s.pay := rfl
@[simp] theorem State.countPart_desc (s : State) (pw : Nat) : (countPart pw s).desc = s.desc := rfl
@[simp] theorem State.countPart_res (s : State) (pw : Nat) : (countPart pw s).res = s.res := rfl
@[simp] theorem State.countPart_host (s : State) (pw : Nat) : (countPart pw s).host = s.host := rfl
@[simp] theorem State.countPart_resets (s : State) (pw : Nat) : (countPart pw s).resets = s.resets := rfl

/-! ### `State.skip` -/

@[simp] theorem State.skip_par (s : State) : (skip s).par = s.par := rfl
@[simp] theorem State.skip_rawBase (s : State) : (skip s).rawBase = s.rawBase := rfl
@[simp] theorem State.skip_rawLen (s : State) : (skip s).rawLen = s.rawLen := rfl
@[simp] theorem State.skip_descBase (s : State) : (skip s).descBase = s.descBase := rfl
@[simp] theorem State.skip_phase (s : State) : (skip s).phase = .done := rfl
@[simp] theorem State.skip_status (s : State) : (skip s).status = (s.status &&& ~~~(1#8 <<< StatusFlag.absent.bit)) ||| (1#8 <<< StatusFlag.notFound.bit) := rfl
@[simp] theorem State.skip_errCode (s : State) : (skip s).errCode = s.errCode := rfl
@[simp] theorem State.skip_errSub (s : State) : (skip s).errSub = s.errSub := rfl
@[simp] theorem State.skip_errInfo (s : State) : (skip s).errInfo = s.errInfo := rfl
@[simp] theorem State.skip_dst (s : State) : (skip s).dst = s.dst := rfl
@[simp] theorem State.skip_src (s : State) : (skip s).src = s.src := rfl
@[simp] theorem State.skip_pcmd (s : State) : (skip s).pcmd = s.pcmd := rfl
@[simp] theorem State.skip_nfr (s : State) : (skip s).nfr = s.nfr := rfl
@[simp] theorem State.skip_hck (s : State) : (skip s).hck = s.hck := rfl
@[simp] theorem State.skip_payLen (s : State) : (skip s).payLen = s.payLen := rfl
@[simp] theorem State.skip_consumed (s : State) : (skip s).consumed = s.consumed := rfl
@[simp] theorem State.skip_ferr (s : State) : (skip s).ferr = s.ferr := rfl
@[simp] theorem State.skip_ferrCount (s : State) : (skip s).ferrCount = s.ferrCount := rfl
@[simp] theorem State.skip_dpc (s : State) : (skip s).dpc = s.dpc := rfl
@[simp] theorem State.skip_acc (s : State) : (skip s).acc = s.acc := rfl
@[simp] theorem State.skip_accw (s : State) : (skip s).accw = s.accw := rfl
@[simp] theorem State.skip_nparts (s : State) : (skip s).nparts = s.nparts := rfl
@[simp] theorem State.skip_abs (s : State) : (skip s).abs = s.abs := rfl
@[simp] theorem State.skip_oobp (s : State) : (skip s).oobp = s.oobp := rfl
@[simp] theorem State.skip_oobDpc (s : State) : (skip s).oobDpc = s.oobDpc := rfl
@[simp] theorem State.skip_resCount (s : State) : (skip s).resCount = 0 := rfl
@[simp] theorem State.skip_raw (s : State) : (skip s).raw = s.raw := rfl
@[simp] theorem State.skip_pay (s : State) : (skip s).pay = s.pay := rfl
@[simp] theorem State.skip_desc (s : State) : (skip s).desc = s.desc := rfl
@[simp] theorem State.skip_res (s : State) : (skip s).res = s.res := rfl
@[simp] theorem State.skip_host (s : State) : (skip s).host = s.host := rfl
@[simp] theorem State.skip_resets (s : State) : (skip s).resets = s.resets := rfl

/-! ### `State.startDecode` -/

@[simp] theorem State.startDecode_par (s : State) : (startDecode s).par = s.par := rfl
@[simp] theorem State.startDecode_rawBase (s : State) : (startDecode s).rawBase = s.rawBase := rfl
@[simp] theorem State.startDecode_rawLen (s : State) : (startDecode s).rawLen = s.rawLen := rfl
@[simp] theorem State.startDecode_descBase (s : State) : (startDecode s).descBase = s.descBase := rfl
@[simp] theorem State.startDecode_phase (s : State) : (startDecode s).phase = .busy := rfl
@[simp] theorem State.startDecode_status (s : State) : (startDecode s).status = (s.status &&& ~~~(1#8 <<< StatusFlag.notFound.bit)) &&& ~~~(1#8 <<< StatusFlag.absent.bit) := rfl
@[simp] theorem State.startDecode_errCode (s : State) : (startDecode s).errCode = s.errCode := rfl
@[simp] theorem State.startDecode_errSub (s : State) : (startDecode s).errSub = s.errSub := rfl
@[simp] theorem State.startDecode_errInfo (s : State) : (startDecode s).errInfo = s.errInfo := rfl
@[simp] theorem State.startDecode_dst (s : State) : (startDecode s).dst = s.dst := rfl
@[simp] theorem State.startDecode_src (s : State) : (startDecode s).src = s.src := rfl
@[simp] theorem State.startDecode_pcmd (s : State) : (startDecode s).pcmd = s.pcmd := rfl
@[simp] theorem State.startDecode_nfr (s : State) : (startDecode s).nfr = s.nfr := rfl
@[simp] theorem State.startDecode_hck (s : State) : (startDecode s).hck = s.hck := rfl
@[simp] theorem State.startDecode_payLen (s : State) : (startDecode s).payLen = s.payLen := rfl
@[simp] theorem State.startDecode_consumed (s : State) : (startDecode s).consumed = s.consumed := rfl
@[simp] theorem State.startDecode_ferr (s : State) : (startDecode s).ferr = s.ferr := rfl
@[simp] theorem State.startDecode_ferrCount (s : State) : (startDecode s).ferrCount = s.ferrCount := rfl
@[simp] theorem State.startDecode_dpc (s : State) : (startDecode s).dpc = s.descBase := rfl
@[simp] theorem State.startDecode_acc (s : State) : (startDecode s).acc = 0 := rfl
@[simp] theorem State.startDecode_accw (s : State) : (startDecode s).accw = 0 := rfl
@[simp] theorem State.startDecode_nparts (s : State) : (startDecode s).nparts = 0 := rfl
@[simp] theorem State.startDecode_abs (s : State) : (startDecode s).abs = false := rfl
@[simp] theorem State.startDecode_oobp (s : State) : (startDecode s).oobp = false := rfl
@[simp] theorem State.startDecode_oobDpc (s : State) : (startDecode s).oobDpc = 0 := rfl
@[simp] theorem State.startDecode_resCount (s : State) : (startDecode s).resCount = 0 := rfl
@[simp] theorem State.startDecode_raw (s : State) : (startDecode s).raw = s.raw := rfl
@[simp] theorem State.startDecode_pay (s : State) : (startDecode s).pay = s.pay := rfl
@[simp] theorem State.startDecode_desc (s : State) : (startDecode s).desc = s.desc := rfl
@[simp] theorem State.startDecode_res (s : State) : (startDecode s).res = s.res := rfl
@[simp] theorem State.startDecode_host (s : State) : (startDecode s).host = s.host := rfl
@[simp] theorem State.startDecode_resets (s : State) : (startDecode s).resets = s.resets := rfl

/-! ### `State.applyReset` -/

@[simp] theorem State.applyReset_par (s : State) : (applyReset s).par = s.par := rfl
@[simp] theorem State.applyReset_rawBase (s : State) : (applyReset s).rawBase = 0 := rfl
@[simp] theorem State.applyReset_rawLen (s : State) : (applyReset s).rawLen = 0 := rfl
@[simp] theorem State.applyReset_descBase (s : State) : (applyReset s).descBase = 0 := rfl
@[simp] theorem State.applyReset_phase (s : State) : (applyReset s).phase = .idle := rfl
@[simp] theorem State.applyReset_status (s : State) : (applyReset s).status = 0 := rfl
@[simp] theorem State.applyReset_errCode (s : State) : (applyReset s).errCode = 0 := rfl
@[simp] theorem State.applyReset_errSub (s : State) : (applyReset s).errSub = 0 := rfl
@[simp] theorem State.applyReset_errInfo (s : State) : (applyReset s).errInfo = 0 := rfl
@[simp] theorem State.applyReset_dst (s : State) : (applyReset s).dst = 0 := rfl
@[simp] theorem State.applyReset_src (s : State) : (applyReset s).src = 0 := rfl
@[simp] theorem State.applyReset_pcmd (s : State) : (applyReset s).pcmd = 0 := rfl
@[simp] theorem State.applyReset_nfr (s : State) : (applyReset s).nfr = 0 := rfl
@[simp] theorem State.applyReset_hck (s : State) : (applyReset s).hck = 0 := rfl
@[simp] theorem State.applyReset_payLen (s : State) : (applyReset s).payLen = 0 := rfl
@[simp] theorem State.applyReset_consumed (s : State) : (applyReset s).consumed = 0 := rfl
@[simp] theorem State.applyReset_ferr (s : State) : (applyReset s).ferr = 0 := rfl
@[simp] theorem State.applyReset_ferrCount (s : State) : (applyReset s).ferrCount = 0 := rfl
@[simp] theorem State.applyReset_dpc (s : State) : (applyReset s).dpc = 0 := rfl
@[simp] theorem State.applyReset_acc (s : State) : (applyReset s).acc = 0 := rfl
@[simp] theorem State.applyReset_accw (s : State) : (applyReset s).accw = 0 := rfl
@[simp] theorem State.applyReset_nparts (s : State) : (applyReset s).nparts = 0 := rfl
@[simp] theorem State.applyReset_abs (s : State) : (applyReset s).abs = false := rfl
@[simp] theorem State.applyReset_oobp (s : State) : (applyReset s).oobp = false := rfl
@[simp] theorem State.applyReset_oobDpc (s : State) : (applyReset s).oobDpc = 0 := rfl
@[simp] theorem State.applyReset_resCount (s : State) : (applyReset s).resCount = 0 := rfl
@[simp] theorem State.applyReset_raw (s : State) : (applyReset s).raw = s.raw := rfl
@[simp] theorem State.applyReset_pay (s : State) : (applyReset s).pay = [] := rfl
@[simp] theorem State.applyReset_desc (s : State) : (applyReset s).desc = s.desc := rfl
@[simp] theorem State.applyReset_res (s : State) : (applyReset s).res = [] := rfl
@[simp] theorem State.applyReset_host (s : State) : (applyReset s).host = s.host := rfl
@[simp] theorem State.applyReset_resets (s : State) : (applyReset s).resets = s.resets + 1 := rfl

/-! ### `State.clear` -/

@[simp] theorem State.clear_par (s : State) : (clear s).par = s.par := rfl
@[simp] theorem State.clear_rawBase (s : State) : (clear s).rawBase = s.rawBase := rfl
@[simp] theorem State.clear_rawLen (s : State) : (clear s).rawLen = s.rawLen := rfl
@[simp] theorem State.clear_descBase (s : State) : (clear s).descBase = s.descBase := rfl
@[simp] theorem State.clear_phase (s : State) : (clear s).phase = .idle := rfl
@[simp] theorem State.clear_status (s : State) : (clear s).status = 0 := rfl
@[simp] theorem State.clear_errCode (s : State) : (clear s).errCode = 0 := rfl
@[simp] theorem State.clear_errSub (s : State) : (clear s).errSub = 0 := rfl
@[simp] theorem State.clear_errInfo (s : State) : (clear s).errInfo = 0 := rfl
@[simp] theorem State.clear_dst (s : State) : (clear s).dst = 0 := rfl
@[simp] theorem State.clear_src (s : State) : (clear s).src = 0 := rfl
@[simp] theorem State.clear_pcmd (s : State) : (clear s).pcmd = 0 := rfl
@[simp] theorem State.clear_nfr (s : State) : (clear s).nfr = 0 := rfl
@[simp] theorem State.clear_hck (s : State) : (clear s).hck = 0 := rfl
@[simp] theorem State.clear_payLen (s : State) : (clear s).payLen = 0 := rfl
@[simp] theorem State.clear_consumed (s : State) : (clear s).consumed = 0 := rfl
@[simp] theorem State.clear_ferr (s : State) : (clear s).ferr = 0 := rfl
@[simp] theorem State.clear_ferrCount (s : State) : (clear s).ferrCount = 0 := rfl
@[simp] theorem State.clear_dpc (s : State) : (clear s).dpc = 0 := rfl
@[simp] theorem State.clear_acc (s : State) : (clear s).acc = 0 := rfl
@[simp] theorem State.clear_accw (s : State) : (clear s).accw = 0 := rfl
@[simp] theorem State.clear_nparts (s : State) : (clear s).nparts = 0 := rfl
@[simp] theorem State.clear_abs (s : State) : (clear s).abs = false := rfl
@[simp] theorem State.clear_oobp (s : State) : (clear s).oobp = false := rfl
@[simp] theorem State.clear_oobDpc (s : State) : (clear s).oobDpc = 0 := rfl
@[simp] theorem State.clear_resCount (s : State) : (clear s).resCount = 0 := rfl
@[simp] theorem State.clear_raw (s : State) : (clear s).raw = s.raw := rfl
@[simp] theorem State.clear_pay (s : State) : (clear s).pay = s.pay := rfl
@[simp] theorem State.clear_desc (s : State) : (clear s).desc = s.desc := rfl
@[simp] theorem State.clear_res (s : State) : (clear s).res = s.res := rfl
@[simp] theorem State.clear_host (s : State) : (clear s).host = s.host := rfl
@[simp] theorem State.clear_resets (s : State) : (clear s).resets = s.resets := rfl

/-! ### `latchPart` -/

@[simp] theorem State.latchPart_par (s : State) (offset : BitVec 32) (mask : BitVec 8) (size : BitVec 3) : (latchPart offset mask size s).par = s.par := by
  unfold latchPart; split
  · rfl
  · split <;> rfl
@[simp] theorem State.latchPart_rawBase (s : State) (offset : BitVec 32) (mask : BitVec 8) (size : BitVec 3) : (latchPart offset mask size s).rawBase = s.rawBase := by
  unfold latchPart; split
  · rfl
  · split <;> rfl
@[simp] theorem State.latchPart_rawLen (s : State) (offset : BitVec 32) (mask : BitVec 8) (size : BitVec 3) : (latchPart offset mask size s).rawLen = s.rawLen := by
  unfold latchPart; split
  · rfl
  · split <;> rfl
@[simp] theorem State.latchPart_descBase (s : State) (offset : BitVec 32) (mask : BitVec 8) (size : BitVec 3) : (latchPart offset mask size s).descBase = s.descBase := by
  unfold latchPart; split
  · rfl
  · split <;> rfl
@[simp] theorem State.latchPart_phase (s : State) (offset : BitVec 32) (mask : BitVec 8) (size : BitVec 3) : (latchPart offset mask size s).phase = s.phase := by
  unfold latchPart; split
  · rfl
  · split <;> rfl
@[simp] theorem State.latchPart_status (s : State) (offset : BitVec 32) (mask : BitVec 8) (size : BitVec 3) : (latchPart offset mask size s).status = s.status := by
  unfold latchPart; split
  · rfl
  · split <;> rfl
@[simp] theorem State.latchPart_errCode (s : State) (offset : BitVec 32) (mask : BitVec 8) (size : BitVec 3) : (latchPart offset mask size s).errCode = s.errCode := by
  unfold latchPart; split
  · rfl
  · split <;> rfl
@[simp] theorem State.latchPart_errSub (s : State) (offset : BitVec 32) (mask : BitVec 8) (size : BitVec 3) : (latchPart offset mask size s).errSub = s.errSub := by
  unfold latchPart; split
  · rfl
  · split <;> rfl
@[simp] theorem State.latchPart_errInfo (s : State) (offset : BitVec 32) (mask : BitVec 8) (size : BitVec 3) : (latchPart offset mask size s).errInfo = s.errInfo := by
  unfold latchPart; split
  · rfl
  · split <;> rfl
@[simp] theorem State.latchPart_dst (s : State) (offset : BitVec 32) (mask : BitVec 8) (size : BitVec 3) : (latchPart offset mask size s).dst = s.dst := by
  unfold latchPart; split
  · rfl
  · split <;> rfl
@[simp] theorem State.latchPart_src (s : State) (offset : BitVec 32) (mask : BitVec 8) (size : BitVec 3) : (latchPart offset mask size s).src = s.src := by
  unfold latchPart; split
  · rfl
  · split <;> rfl
@[simp] theorem State.latchPart_pcmd (s : State) (offset : BitVec 32) (mask : BitVec 8) (size : BitVec 3) : (latchPart offset mask size s).pcmd = s.pcmd := by
  unfold latchPart; split
  · rfl
  · split <;> rfl
@[simp] theorem State.latchPart_nfr (s : State) (offset : BitVec 32) (mask : BitVec 8) (size : BitVec 3) : (latchPart offset mask size s).nfr = s.nfr := by
  unfold latchPart; split
  · rfl
  · split <;> rfl
@[simp] theorem State.latchPart_hck (s : State) (offset : BitVec 32) (mask : BitVec 8) (size : BitVec 3) : (latchPart offset mask size s).hck = s.hck := by
  unfold latchPart; split
  · rfl
  · split <;> rfl
@[simp] theorem State.latchPart_payLen (s : State) (offset : BitVec 32) (mask : BitVec 8) (size : BitVec 3) : (latchPart offset mask size s).payLen = s.payLen := by
  unfold latchPart; split
  · rfl
  · split <;> rfl
@[simp] theorem State.latchPart_consumed (s : State) (offset : BitVec 32) (mask : BitVec 8) (size : BitVec 3) : (latchPart offset mask size s).consumed = s.consumed := by
  unfold latchPart; split
  · rfl
  · split <;> rfl
@[simp] theorem State.latchPart_ferr (s : State) (offset : BitVec 32) (mask : BitVec 8) (size : BitVec 3) : (latchPart offset mask size s).ferr = s.ferr := by
  unfold latchPart; split
  · rfl
  · split <;> rfl
@[simp] theorem State.latchPart_ferrCount (s : State) (offset : BitVec 32) (mask : BitVec 8) (size : BitVec 3) : (latchPart offset mask size s).ferrCount = s.ferrCount := by
  unfold latchPart; split
  · rfl
  · split <;> rfl
@[simp] theorem State.latchPart_dpc (s : State) (offset : BitVec 32) (mask : BitVec 8) (size : BitVec 3) : (latchPart offset mask size s).dpc = s.dpc := by
  unfold latchPart; split
  · rfl
  · split <;> rfl
@[simp] theorem State.latchPart_accw (s : State) (offset : BitVec 32) (mask : BitVec 8) (size : BitVec 3) : (latchPart offset mask size s).accw = s.accw := by
  unfold latchPart; split
  · rfl
  · split <;> rfl
@[simp] theorem State.latchPart_nparts (s : State) (offset : BitVec 32) (mask : BitVec 8) (size : BitVec 3) : (latchPart offset mask size s).nparts = s.nparts := by
  unfold latchPart; split
  · rfl
  · split <;> rfl
@[simp] theorem State.latchPart_resCount (s : State) (offset : BitVec 32) (mask : BitVec 8) (size : BitVec 3) : (latchPart offset mask size s).resCount = s.resCount := by
  unfold latchPart; split
  · rfl
  · split <;> rfl
@[simp] theorem State.latchPart_raw (s : State) (offset : BitVec 32) (mask : BitVec 8) (size : BitVec 3) : (latchPart offset mask size s).raw = s.raw := by
  unfold latchPart; split
  · rfl
  · split <;> rfl
@[simp] theorem State.latchPart_pay (s : State) (offset : BitVec 32) (mask : BitVec 8) (size : BitVec 3) : (latchPart offset mask size s).pay = s.pay := by
  unfold latchPart; split
  · rfl
  · split <;> rfl
@[simp] theorem State.latchPart_desc (s : State) (offset : BitVec 32) (mask : BitVec 8) (size : BitVec 3) : (latchPart offset mask size s).desc = s.desc := by
  unfold latchPart; split
  · rfl
  · split <;> rfl
@[simp] theorem State.latchPart_res (s : State) (offset : BitVec 32) (mask : BitVec 8) (size : BitVec 3) : (latchPart offset mask size s).res = s.res := by
  unfold latchPart; split
  · rfl
  · split <;> rfl
@[simp] theorem State.latchPart_host (s : State) (offset : BitVec 32) (mask : BitVec 8) (size : BitVec 3) : (latchPart offset mask size s).host = s.host := by
  unfold latchPart; split
  · rfl
  · split <;> rfl
@[simp] theorem State.latchPart_resets (s : State) (offset : BitVec 32) (mask : BitVec 8) (size : BitVec 3) : (latchPart offset mask size s).resets = s.resets := by
  unfold latchPart; split
  · rfl
  · split <;> rfl

/-! ### `checkHeader` -/

@[simp] theorem State.checkHeader_par (s : State) (ck : Checks) : (s.checkHeader ck).par = s.par := by
  unfold State.checkHeader; split <;> rfl
@[simp] theorem State.checkHeader_rawBase (s : State) (ck : Checks) : (s.checkHeader ck).rawBase = s.rawBase := by
  unfold State.checkHeader; split <;> rfl
@[simp] theorem State.checkHeader_rawLen (s : State) (ck : Checks) : (s.checkHeader ck).rawLen = s.rawLen := by
  unfold State.checkHeader; split <;> rfl
@[simp] theorem State.checkHeader_descBase (s : State) (ck : Checks) : (s.checkHeader ck).descBase = s.descBase := by
  unfold State.checkHeader; split <;> rfl
@[simp] theorem State.checkHeader_phase (s : State) (ck : Checks) : (s.checkHeader ck).phase = s.phase := by
  unfold State.checkHeader; split <;> rfl
@[simp] theorem State.checkHeader_errCode (s : State) (ck : Checks) : (s.checkHeader ck).errCode = s.errCode := by
  unfold State.checkHeader; split <;> rfl
@[simp] theorem State.checkHeader_errSub (s : State) (ck : Checks) : (s.checkHeader ck).errSub = s.errSub := by
  unfold State.checkHeader; split <;> rfl
@[simp] theorem State.checkHeader_errInfo (s : State) (ck : Checks) : (s.checkHeader ck).errInfo = s.errInfo := by
  unfold State.checkHeader; split <;> rfl
@[simp] theorem State.checkHeader_dst (s : State) (ck : Checks) : (s.checkHeader ck).dst = s.dst := by
  unfold State.checkHeader; split <;> rfl
@[simp] theorem State.checkHeader_src (s : State) (ck : Checks) : (s.checkHeader ck).src = s.src := by
  unfold State.checkHeader; split <;> rfl
@[simp] theorem State.checkHeader_pcmd (s : State) (ck : Checks) : (s.checkHeader ck).pcmd = s.pcmd := by
  unfold State.checkHeader; split <;> rfl
@[simp] theorem State.checkHeader_nfr (s : State) (ck : Checks) : (s.checkHeader ck).nfr = s.nfr := by
  unfold State.checkHeader; split <;> rfl
@[simp] theorem State.checkHeader_hck (s : State) (ck : Checks) : (s.checkHeader ck).hck = s.hck := by
  unfold State.checkHeader; split <;> rfl
@[simp] theorem State.checkHeader_payLen (s : State) (ck : Checks) : (s.checkHeader ck).payLen = s.payLen := by
  unfold State.checkHeader; split <;> rfl
@[simp] theorem State.checkHeader_consumed (s : State) (ck : Checks) : (s.checkHeader ck).consumed = s.consumed := by
  unfold State.checkHeader; split <;> rfl
@[simp] theorem State.checkHeader_ferr (s : State) (ck : Checks) : (s.checkHeader ck).ferr = s.ferr := by
  unfold State.checkHeader; split <;> rfl
@[simp] theorem State.checkHeader_ferrCount (s : State) (ck : Checks) : (s.checkHeader ck).ferrCount = s.ferrCount := by
  unfold State.checkHeader; split <;> rfl
@[simp] theorem State.checkHeader_dpc (s : State) (ck : Checks) : (s.checkHeader ck).dpc = s.dpc := by
  unfold State.checkHeader; split <;> rfl
@[simp] theorem State.checkHeader_acc (s : State) (ck : Checks) : (s.checkHeader ck).acc = s.acc := by
  unfold State.checkHeader; split <;> rfl
@[simp] theorem State.checkHeader_accw (s : State) (ck : Checks) : (s.checkHeader ck).accw = s.accw := by
  unfold State.checkHeader; split <;> rfl
@[simp] theorem State.checkHeader_nparts (s : State) (ck : Checks) : (s.checkHeader ck).nparts = s.nparts := by
  unfold State.checkHeader; split <;> rfl
@[simp] theorem State.checkHeader_abs (s : State) (ck : Checks) : (s.checkHeader ck).abs = s.abs := by
  unfold State.checkHeader; split <;> rfl
@[simp] theorem State.checkHeader_oobp (s : State) (ck : Checks) : (s.checkHeader ck).oobp = s.oobp := by
  unfold State.checkHeader; split <;> rfl
@[simp] theorem State.checkHeader_oobDpc (s : State) (ck : Checks) : (s.checkHeader ck).oobDpc = s.oobDpc := by
  unfold State.checkHeader; split <;> rfl
@[simp] theorem State.checkHeader_resCount (s : State) (ck : Checks) : (s.checkHeader ck).resCount = s.resCount := by
  unfold State.checkHeader; split <;> rfl
@[simp] theorem State.checkHeader_raw (s : State) (ck : Checks) : (s.checkHeader ck).raw = s.raw := by
  unfold State.checkHeader; split <;> rfl
@[simp] theorem State.checkHeader_pay (s : State) (ck : Checks) : (s.checkHeader ck).pay = s.pay := by
  unfold State.checkHeader; split <;> rfl
@[simp] theorem State.checkHeader_desc (s : State) (ck : Checks) : (s.checkHeader ck).desc = s.desc := by
  unfold State.checkHeader; split <;> rfl
@[simp] theorem State.checkHeader_res (s : State) (ck : Checks) : (s.checkHeader ck).res = s.res := by
  unfold State.checkHeader; split <;> rfl
@[simp] theorem State.checkHeader_host (s : State) (ck : Checks) : (s.checkHeader ck).host = s.host := by
  unfold State.checkHeader; split <;> rfl
@[simp] theorem State.checkHeader_resets (s : State) (ck : Checks) : (s.checkHeader ck).resets = s.resets := by
  unfold State.checkHeader; split <;> rfl

/-! ### `takeFrame` -/

@[simp] theorem State.takeFrame_par (s : State) (ck : Checks) (i : Nat) : (s.takeFrame ck i).par = s.par := by
  unfold State.takeFrame; dsimp only; split <;> simp only [State.markFrame_par, State.writePay_par]
@[simp] theorem State.takeFrame_rawBase (s : State) (ck : Checks) (i : Nat) : (s.takeFrame ck i).rawBase = s.rawBase := by
  unfold State.takeFrame; dsimp only; split <;> simp only [State.markFrame_rawBase, State.writePay_rawBase]
@[simp] theorem State.takeFrame_rawLen (s : State) (ck : Checks) (i : Nat) : (s.takeFrame ck i).rawLen = s.rawLen := by
  unfold State.takeFrame; dsimp only; split <;> simp only [State.markFrame_rawLen, State.writePay_rawLen]
@[simp] theorem State.takeFrame_descBase (s : State) (ck : Checks) (i : Nat) : (s.takeFrame ck i).descBase = s.descBase := by
  unfold State.takeFrame; dsimp only; split <;> simp only [State.markFrame_descBase, State.writePay_descBase]
@[simp] theorem State.takeFrame_phase (s : State) (ck : Checks) (i : Nat) : (s.takeFrame ck i).phase = s.phase := by
  unfold State.takeFrame; dsimp only; split <;> simp only [State.markFrame_phase, State.writePay_phase]
@[simp] theorem State.takeFrame_errCode (s : State) (ck : Checks) (i : Nat) : (s.takeFrame ck i).errCode = s.errCode := by
  unfold State.takeFrame; dsimp only; split <;> simp only [State.markFrame_errCode, State.writePay_errCode]
@[simp] theorem State.takeFrame_errSub (s : State) (ck : Checks) (i : Nat) : (s.takeFrame ck i).errSub = s.errSub := by
  unfold State.takeFrame; dsimp only; split <;> simp only [State.markFrame_errSub, State.writePay_errSub]
@[simp] theorem State.takeFrame_errInfo (s : State) (ck : Checks) (i : Nat) : (s.takeFrame ck i).errInfo = s.errInfo := by
  unfold State.takeFrame; dsimp only; split <;> simp only [State.markFrame_errInfo, State.writePay_errInfo]
@[simp] theorem State.takeFrame_dst (s : State) (ck : Checks) (i : Nat) : (s.takeFrame ck i).dst = s.dst := by
  unfold State.takeFrame; dsimp only; split <;> simp only [State.markFrame_dst, State.writePay_dst]
@[simp] theorem State.takeFrame_src (s : State) (ck : Checks) (i : Nat) : (s.takeFrame ck i).src = s.src := by
  unfold State.takeFrame; dsimp only; split <;> simp only [State.markFrame_src, State.writePay_src]
@[simp] theorem State.takeFrame_pcmd (s : State) (ck : Checks) (i : Nat) : (s.takeFrame ck i).pcmd = s.pcmd := by
  unfold State.takeFrame; dsimp only; split <;> simp only [State.markFrame_pcmd, State.writePay_pcmd]
@[simp] theorem State.takeFrame_nfr (s : State) (ck : Checks) (i : Nat) : (s.takeFrame ck i).nfr = s.nfr := by
  unfold State.takeFrame; dsimp only; split <;> simp only [State.markFrame_nfr, State.writePay_nfr]
@[simp] theorem State.takeFrame_hck (s : State) (ck : Checks) (i : Nat) : (s.takeFrame ck i).hck = s.hck := by
  unfold State.takeFrame; dsimp only; split <;> simp only [State.markFrame_hck, State.writePay_hck]
@[simp] theorem State.takeFrame_payLen (s : State) (ck : Checks) (i : Nat) : (s.takeFrame ck i).payLen = s.payLen := by
  unfold State.takeFrame; dsimp only; split <;> simp only [State.markFrame_payLen, State.writePay_payLen]
@[simp] theorem State.takeFrame_consumed (s : State) (ck : Checks) (i : Nat) : (s.takeFrame ck i).consumed = s.consumed := by
  unfold State.takeFrame; dsimp only; split <;> simp only [State.markFrame_consumed, State.writePay_consumed]
@[simp] theorem State.takeFrame_dpc (s : State) (ck : Checks) (i : Nat) : (s.takeFrame ck i).dpc = s.dpc := by
  unfold State.takeFrame; dsimp only; split <;> simp only [State.markFrame_dpc, State.writePay_dpc]
@[simp] theorem State.takeFrame_acc (s : State) (ck : Checks) (i : Nat) : (s.takeFrame ck i).acc = s.acc := by
  unfold State.takeFrame; dsimp only; split <;> simp only [State.markFrame_acc, State.writePay_acc]
@[simp] theorem State.takeFrame_accw (s : State) (ck : Checks) (i : Nat) : (s.takeFrame ck i).accw = s.accw := by
  unfold State.takeFrame; dsimp only; split <;> simp only [State.markFrame_accw, State.writePay_accw]
@[simp] theorem State.takeFrame_nparts (s : State) (ck : Checks) (i : Nat) : (s.takeFrame ck i).nparts = s.nparts := by
  unfold State.takeFrame; dsimp only; split <;> simp only [State.markFrame_nparts, State.writePay_nparts]
@[simp] theorem State.takeFrame_abs (s : State) (ck : Checks) (i : Nat) : (s.takeFrame ck i).abs = s.abs := by
  unfold State.takeFrame; dsimp only; split <;> simp only [State.markFrame_abs, State.writePay_abs]
@[simp] theorem State.takeFrame_oobp (s : State) (ck : Checks) (i : Nat) : (s.takeFrame ck i).oobp = s.oobp := by
  unfold State.takeFrame; dsimp only; split <;> simp only [State.markFrame_oobp, State.writePay_oobp]
@[simp] theorem State.takeFrame_oobDpc (s : State) (ck : Checks) (i : Nat) : (s.takeFrame ck i).oobDpc = s.oobDpc := by
  unfold State.takeFrame; dsimp only; split <;> simp only [State.markFrame_oobDpc, State.writePay_oobDpc]
@[simp] theorem State.takeFrame_resCount (s : State) (ck : Checks) (i : Nat) : (s.takeFrame ck i).resCount = s.resCount := by
  unfold State.takeFrame; dsimp only; split <;> simp only [State.markFrame_resCount, State.writePay_resCount]
@[simp] theorem State.takeFrame_raw (s : State) (ck : Checks) (i : Nat) : (s.takeFrame ck i).raw = s.raw := by
  unfold State.takeFrame; dsimp only; split <;> simp only [State.markFrame_raw, State.writePay_raw]
@[simp] theorem State.takeFrame_desc (s : State) (ck : Checks) (i : Nat) : (s.takeFrame ck i).desc = s.desc := by
  unfold State.takeFrame; dsimp only; split <;> simp only [State.markFrame_desc, State.writePay_desc]
@[simp] theorem State.takeFrame_res (s : State) (ck : Checks) (i : Nat) : (s.takeFrame ck i).res = s.res := by
  unfold State.takeFrame; dsimp only; split <;> simp only [State.markFrame_res, State.writePay_res]
@[simp] theorem State.takeFrame_host (s : State) (ck : Checks) (i : Nat) : (s.takeFrame ck i).host = s.host := by
  unfold State.takeFrame; dsimp only; split <;> simp only [State.markFrame_host, State.writePay_host]
@[simp] theorem State.takeFrame_resets (s : State) (ck : Checks) (i : Nat) : (s.takeFrame ck i).resets = s.resets := by
  unfold State.takeFrame; dsimp only; split <;> simp only [State.markFrame_resets, State.writePay_resets]

/-! ### `takeFrames` -/

@[simp] theorem State.takeFrames_par (s : State) (ck : Checks) (n : Nat) : (State.takeFrames ck n s).par = s.par := by
  induction n with
  | zero => rfl
  | succ n ih => exact (State.takeFrame_par _ ck n).trans ih
@[simp] theorem State.takeFrames_rawBase (s : State) (ck : Checks) (n : Nat) : (State.takeFrames ck n s).rawBase = s.rawBase := by
  induction n with
  | zero => rfl
  | succ n ih => exact (State.takeFrame_rawBase _ ck n).trans ih
@[simp] theorem State.takeFrames_rawLen (s : State) (ck : Checks) (n : Nat) : (State.takeFrames ck n s).rawLen = s.rawLen := by
  induction n with
  | zero => rfl
  | succ n ih => exact (State.takeFrame_rawLen _ ck n).trans ih
@[simp] theorem State.takeFrames_descBase (s : State) (ck : Checks) (n : Nat) : (State.takeFrames ck n s).descBase = s.descBase := by
  induction n with
  | zero => rfl
  | succ n ih => exact (State.takeFrame_descBase _ ck n).trans ih
@[simp] theorem State.takeFrames_phase (s : State) (ck : Checks) (n : Nat) : (State.takeFrames ck n s).phase = s.phase := by
  induction n with
  | zero => rfl
  | succ n ih => exact (State.takeFrame_phase _ ck n).trans ih
@[simp] theorem State.takeFrames_errCode (s : State) (ck : Checks) (n : Nat) : (State.takeFrames ck n s).errCode = s.errCode := by
  induction n with
  | zero => rfl
  | succ n ih => exact (State.takeFrame_errCode _ ck n).trans ih
@[simp] theorem State.takeFrames_errSub (s : State) (ck : Checks) (n : Nat) : (State.takeFrames ck n s).errSub = s.errSub := by
  induction n with
  | zero => rfl
  | succ n ih => exact (State.takeFrame_errSub _ ck n).trans ih
@[simp] theorem State.takeFrames_errInfo (s : State) (ck : Checks) (n : Nat) : (State.takeFrames ck n s).errInfo = s.errInfo := by
  induction n with
  | zero => rfl
  | succ n ih => exact (State.takeFrame_errInfo _ ck n).trans ih
@[simp] theorem State.takeFrames_dst (s : State) (ck : Checks) (n : Nat) : (State.takeFrames ck n s).dst = s.dst := by
  induction n with
  | zero => rfl
  | succ n ih => exact (State.takeFrame_dst _ ck n).trans ih
@[simp] theorem State.takeFrames_src (s : State) (ck : Checks) (n : Nat) : (State.takeFrames ck n s).src = s.src := by
  induction n with
  | zero => rfl
  | succ n ih => exact (State.takeFrame_src _ ck n).trans ih
@[simp] theorem State.takeFrames_pcmd (s : State) (ck : Checks) (n : Nat) : (State.takeFrames ck n s).pcmd = s.pcmd := by
  induction n with
  | zero => rfl
  | succ n ih => exact (State.takeFrame_pcmd _ ck n).trans ih
@[simp] theorem State.takeFrames_nfr (s : State) (ck : Checks) (n : Nat) : (State.takeFrames ck n s).nfr = s.nfr := by
  induction n with
  | zero => rfl
  | succ n ih => exact (State.takeFrame_nfr _ ck n).trans ih
@[simp] theorem State.takeFrames_hck (s : State) (ck : Checks) (n : Nat) : (State.takeFrames ck n s).hck = s.hck := by
  induction n with
  | zero => rfl
  | succ n ih => exact (State.takeFrame_hck _ ck n).trans ih
@[simp] theorem State.takeFrames_payLen (s : State) (ck : Checks) (n : Nat) : (State.takeFrames ck n s).payLen = s.payLen := by
  induction n with
  | zero => rfl
  | succ n ih => exact (State.takeFrame_payLen _ ck n).trans ih
@[simp] theorem State.takeFrames_consumed (s : State) (ck : Checks) (n : Nat) : (State.takeFrames ck n s).consumed = s.consumed := by
  induction n with
  | zero => rfl
  | succ n ih => exact (State.takeFrame_consumed _ ck n).trans ih
@[simp] theorem State.takeFrames_dpc (s : State) (ck : Checks) (n : Nat) : (State.takeFrames ck n s).dpc = s.dpc := by
  induction n with
  | zero => rfl
  | succ n ih => exact (State.takeFrame_dpc _ ck n).trans ih
@[simp] theorem State.takeFrames_acc (s : State) (ck : Checks) (n : Nat) : (State.takeFrames ck n s).acc = s.acc := by
  induction n with
  | zero => rfl
  | succ n ih => exact (State.takeFrame_acc _ ck n).trans ih
@[simp] theorem State.takeFrames_accw (s : State) (ck : Checks) (n : Nat) : (State.takeFrames ck n s).accw = s.accw := by
  induction n with
  | zero => rfl
  | succ n ih => exact (State.takeFrame_accw _ ck n).trans ih
@[simp] theorem State.takeFrames_nparts (s : State) (ck : Checks) (n : Nat) : (State.takeFrames ck n s).nparts = s.nparts := by
  induction n with
  | zero => rfl
  | succ n ih => exact (State.takeFrame_nparts _ ck n).trans ih
@[simp] theorem State.takeFrames_abs (s : State) (ck : Checks) (n : Nat) : (State.takeFrames ck n s).abs = s.abs := by
  induction n with
  | zero => rfl
  | succ n ih => exact (State.takeFrame_abs _ ck n).trans ih
@[simp] theorem State.takeFrames_oobp (s : State) (ck : Checks) (n : Nat) : (State.takeFrames ck n s).oobp = s.oobp := by
  induction n with
  | zero => rfl
  | succ n ih => exact (State.takeFrame_oobp _ ck n).trans ih
@[simp] theorem State.takeFrames_oobDpc (s : State) (ck : Checks) (n : Nat) : (State.takeFrames ck n s).oobDpc = s.oobDpc := by
  induction n with
  | zero => rfl
  | succ n ih => exact (State.takeFrame_oobDpc _ ck n).trans ih
@[simp] theorem State.takeFrames_resCount (s : State) (ck : Checks) (n : Nat) : (State.takeFrames ck n s).resCount = s.resCount := by
  induction n with
  | zero => rfl
  | succ n ih => exact (State.takeFrame_resCount _ ck n).trans ih
@[simp] theorem State.takeFrames_raw (s : State) (ck : Checks) (n : Nat) : (State.takeFrames ck n s).raw = s.raw := by
  induction n with
  | zero => rfl
  | succ n ih => exact (State.takeFrame_raw _ ck n).trans ih
@[simp] theorem State.takeFrames_desc (s : State) (ck : Checks) (n : Nat) : (State.takeFrames ck n s).desc = s.desc := by
  induction n with
  | zero => rfl
  | succ n ih => exact (State.takeFrame_desc _ ck n).trans ih
@[simp] theorem State.takeFrames_res (s : State) (ck : Checks) (n : Nat) : (State.takeFrames ck n s).res = s.res := by
  induction n with
  | zero => rfl
  | succ n ih => exact (State.takeFrame_res _ ck n).trans ih
@[simp] theorem State.takeFrames_host (s : State) (ck : Checks) (n : Nat) : (State.takeFrames ck n s).host = s.host := by
  induction n with
  | zero => rfl
  | succ n ih => exact (State.takeFrame_host _ ck n).trans ih
@[simp] theorem State.takeFrames_resets (s : State) (ck : Checks) (n : Nat) : (State.takeFrames ck n s).resets = s.resets := by
  induction n with
  | zero => rfl
  | succ n ih => exact (State.takeFrame_resets _ ck n).trans ih

/-! ### `checkTrailer` -/

@[simp] theorem State.checkTrailer_par (s : State) (ck : Checks) (n : Nat) : (State.checkTrailer ck n s).par = s.par := by
  unfold State.checkTrailer; split <;> rfl
@[simp] theorem State.checkTrailer_rawBase (s : State) (ck : Checks) (n : Nat) : (State.checkTrailer ck n s).rawBase = s.rawBase := by
  unfold State.checkTrailer; split <;> rfl
@[simp] theorem State.checkTrailer_rawLen (s : State) (ck : Checks) (n : Nat) : (State.checkTrailer ck n s).rawLen = s.rawLen := by
  unfold State.checkTrailer; split <;> rfl
@[simp] theorem State.checkTrailer_descBase (s : State) (ck : Checks) (n : Nat) : (State.checkTrailer ck n s).descBase = s.descBase := by
  unfold State.checkTrailer; split <;> rfl
@[simp] theorem State.checkTrailer_phase (s : State) (ck : Checks) (n : Nat) : (State.checkTrailer ck n s).phase = s.phase := by
  unfold State.checkTrailer; split <;> rfl
@[simp] theorem State.checkTrailer_errCode (s : State) (ck : Checks) (n : Nat) : (State.checkTrailer ck n s).errCode = s.errCode := by
  unfold State.checkTrailer; split <;> rfl
@[simp] theorem State.checkTrailer_errSub (s : State) (ck : Checks) (n : Nat) : (State.checkTrailer ck n s).errSub = s.errSub := by
  unfold State.checkTrailer; split <;> rfl
@[simp] theorem State.checkTrailer_errInfo (s : State) (ck : Checks) (n : Nat) : (State.checkTrailer ck n s).errInfo = s.errInfo := by
  unfold State.checkTrailer; split <;> rfl
@[simp] theorem State.checkTrailer_dst (s : State) (ck : Checks) (n : Nat) : (State.checkTrailer ck n s).dst = s.dst := by
  unfold State.checkTrailer; split <;> rfl
@[simp] theorem State.checkTrailer_src (s : State) (ck : Checks) (n : Nat) : (State.checkTrailer ck n s).src = s.src := by
  unfold State.checkTrailer; split <;> rfl
@[simp] theorem State.checkTrailer_pcmd (s : State) (ck : Checks) (n : Nat) : (State.checkTrailer ck n s).pcmd = s.pcmd := by
  unfold State.checkTrailer; split <;> rfl
@[simp] theorem State.checkTrailer_nfr (s : State) (ck : Checks) (n : Nat) : (State.checkTrailer ck n s).nfr = s.nfr := by
  unfold State.checkTrailer; split <;> rfl
@[simp] theorem State.checkTrailer_hck (s : State) (ck : Checks) (n : Nat) : (State.checkTrailer ck n s).hck = s.hck := by
  unfold State.checkTrailer; split <;> rfl
@[simp] theorem State.checkTrailer_payLen (s : State) (ck : Checks) (n : Nat) : (State.checkTrailer ck n s).payLen = s.payLen := by
  unfold State.checkTrailer; split <;> rfl
@[simp] theorem State.checkTrailer_consumed (s : State) (ck : Checks) (n : Nat) : (State.checkTrailer ck n s).consumed = s.consumed := by
  unfold State.checkTrailer; split <;> rfl
@[simp] theorem State.checkTrailer_ferr (s : State) (ck : Checks) (n : Nat) : (State.checkTrailer ck n s).ferr = s.ferr := by
  unfold State.checkTrailer; split <;> rfl
@[simp] theorem State.checkTrailer_ferrCount (s : State) (ck : Checks) (n : Nat) : (State.checkTrailer ck n s).ferrCount = s.ferrCount := by
  unfold State.checkTrailer; split <;> rfl
@[simp] theorem State.checkTrailer_dpc (s : State) (ck : Checks) (n : Nat) : (State.checkTrailer ck n s).dpc = s.dpc := by
  unfold State.checkTrailer; split <;> rfl
@[simp] theorem State.checkTrailer_acc (s : State) (ck : Checks) (n : Nat) : (State.checkTrailer ck n s).acc = s.acc := by
  unfold State.checkTrailer; split <;> rfl
@[simp] theorem State.checkTrailer_accw (s : State) (ck : Checks) (n : Nat) : (State.checkTrailer ck n s).accw = s.accw := by
  unfold State.checkTrailer; split <;> rfl
@[simp] theorem State.checkTrailer_nparts (s : State) (ck : Checks) (n : Nat) : (State.checkTrailer ck n s).nparts = s.nparts := by
  unfold State.checkTrailer; split <;> rfl
@[simp] theorem State.checkTrailer_abs (s : State) (ck : Checks) (n : Nat) : (State.checkTrailer ck n s).abs = s.abs := by
  unfold State.checkTrailer; split <;> rfl
@[simp] theorem State.checkTrailer_oobp (s : State) (ck : Checks) (n : Nat) : (State.checkTrailer ck n s).oobp = s.oobp := by
  unfold State.checkTrailer; split <;> rfl
@[simp] theorem State.checkTrailer_oobDpc (s : State) (ck : Checks) (n : Nat) : (State.checkTrailer ck n s).oobDpc = s.oobDpc := by
  unfold State.checkTrailer; split <;> rfl
@[simp] theorem State.checkTrailer_resCount (s : State) (ck : Checks) (n : Nat) : (State.checkTrailer ck n s).resCount = s.resCount := by
  unfold State.checkTrailer; split <;> rfl
@[simp] theorem State.checkTrailer_raw (s : State) (ck : Checks) (n : Nat) : (State.checkTrailer ck n s).raw = s.raw := by
  unfold State.checkTrailer; split <;> rfl
@[simp] theorem State.checkTrailer_pay (s : State) (ck : Checks) (n : Nat) : (State.checkTrailer ck n s).pay = s.pay := by
  unfold State.checkTrailer; split <;> rfl
@[simp] theorem State.checkTrailer_desc (s : State) (ck : Checks) (n : Nat) : (State.checkTrailer ck n s).desc = s.desc := by
  unfold State.checkTrailer; split <;> rfl
@[simp] theorem State.checkTrailer_res (s : State) (ck : Checks) (n : Nat) : (State.checkTrailer ck n s).res = s.res := by
  unfold State.checkTrailer; split <;> rfl
@[simp] theorem State.checkTrailer_host (s : State) (ck : Checks) (n : Nat) : (State.checkTrailer ck n s).host = s.host := by
  unfold State.checkTrailer; split <;> rfl
@[simp] theorem State.checkTrailer_resets (s : State) (ck : Checks) (n : Nat) : (State.checkTrailer ck n s).resets = s.resets := by
  unfold State.checkTrailer; split <;> rfl

end Sys2Proof.Machine
end

