-- ==== Sys2Proof/Laws/Assembler.lean ====
section
/-! SUPPORT. What each step of ASSEMBLE does (R87): STATUS after the checks, PAY, FERR and FERR_COUNT after the frames, and
ASSEMBLE as one expression where it raises nothing. -/

namespace Sys2Proof.Machine

@[simp] theorem State.rawAt_clearPacket (s : State) (k : Nat) : s.clearPacket.rawAt k = s.rawAt k := rfl

@[simp] theorem State.rawAt_latchHeader (s : State) (k : Nat) : s.latchHeader.rawAt k = s.rawAt k := rfl

theorem State.rawAt_congr {s t : State} (h : t.raw = s.raw) (h' : t.rawBase = s.rawBase) (k : Nat) :
    t.rawAt k = s.rawAt k := by
  simp only [State.rawAt, State.rawByte, h, h']

@[simp] theorem State.rawAt_checkHeader (s : State) (ck : Checks) (k : Nat) : (s.checkHeader ck).rawAt k = s.rawAt k :=
  State.rawAt_congr (by simp) (by simp) k

@[simp] theorem State.rawAt_takeFrames (s : State) (ck : Checks) (n k : Nat) :
    (State.takeFrames ck n s).rawAt k = s.rawAt k :=
  State.rawAt_congr (by simp) (by simp) k

/-- STATUS after step S6. -/
theorem State.checkHeader_status (s : State) (ck : Checks) :
    (s.checkHeader ck).status = if s.hck = ck.hdrCk s.headerBytes then s.status else s.status ||| 1#8 := by
  unfold State.checkHeader
  by_cases h : s.hck = ck.hdrCk s.headerBytes
  · rw [if_neg (by simpa using h), if_pos h]
  · rw [if_pos h, if_neg h]; rfl

/-- STATUS after step S9. -/
theorem State.checkTrailer_status (s : State) (ck : Checks) (n : Nat) :
    (State.checkTrailer ck n s).status =
      if s.par.hasTrailer = true ∧ s.rawAt (9 + 4 * n) ≠ ck.trailerCk (s.packetBytes n) then s.status ||| 2#8
      else s.status := by
  unfold State.checkTrailer
  split <;> rfl

theorem State.takeFrame_of_good {ck : Checks} {i : Nat} {s : State} (h : s.frameGood ck i = true) :
    s.takeFrame ck i = ((s.writePay (3 * i) (s.rawAt (9 + 4 * i))).writePay (3 * i + 1) (s.rawAt (10 + 4 * i))).writePay
      (3 * i + 2) (s.rawAt (11 + 4 * i)) := by
  unfold State.takeFrame
  dsimp only
  rw [if_pos h]

theorem State.takeFrame_of_bad {ck : Checks} {i : Nat} {s : State} (h : s.frameGood ck i = false) :
    s.takeFrame ck i =
      (((s.writePay (3 * i) (s.rawAt (9 + 4 * i))).writePay (3 * i + 1) (s.rawAt (10 + 4 * i))).writePay
        (3 * i + 2) (s.rawAt (11 + 4 * i))).markFrame i := by
  unfold State.takeFrame
  dsimp only
  rw [if_neg (by simp [h])]

theorem State.takeFrame_pay (ck : Checks) (i : Nat) (s : State) :
    (s.takeFrame ck i).pay =
      ((s.pay.set (3 * i) (s.rawAt (9 + 4 * i))).set (3 * i + 1) (s.rawAt (10 + 4 * i))).set (3 * i + 2)
        (s.rawAt (11 + 4 * i)) := by
  cases h : s.frameGood ck i with
  | true => rw [State.takeFrame_of_good h]; rfl
  | false => rw [State.takeFrame_of_bad h]; rfl

theorem State.takeFrames_succ (ck : Checks) (n : Nat) (s : State) :
    State.takeFrames ck (n + 1) s = (State.takeFrames ck n s).takeFrame ck n := rfl

/-- PAY after step S8: the data bytes of the frames, every other address as before. -/
theorem State.takeFrames_pay (ck : Checks) (n : Nat) (s : State) (a : Nat) :
    (State.takeFrames ck n s).pay.get? a =
      if a < 3 * n then some (s.rawAt (9 + 4 * (a / 3) + a % 3)) else s.pay.get? a := by
  induction n with
  | zero => simp [State.takeFrames]
  | succ n ih =>
    rw [State.takeFrames_succ, State.takeFrame_pay]
    simp only [Memory.get?_set, ih, State.rawAt_takeFrames]
    by_cases h1 : a = 3*n+2
    · rw [if_pos h1, if_pos (by omega)]; congr 2; omega
    · rw [if_neg h1]
      by_cases h2 : a = 3*n+1
      · rw [if_pos h2, if_pos (by omega)]; congr 2; omega
      · rw [if_neg h2]
        by_cases h3 : a = 3*n
        · rw [if_pos h3, if_pos (by omega)]; congr 2; omega
        · rw [if_neg h3]
          by_cases h4 : a < 3*n
          · rw [if_pos h4, if_pos (by omega)]
          · rw [if_neg h4, if_neg (by omega)]

/-- Setting bit `n`. -/
theorem getLsbD_or_bit (x : BitVec 255) (n i : Nat) (hn : n < 255) :
    (x ||| (1#255 <<< n)).getLsbD i = (x.getLsbD i || decide (i = n)) := by
  by_cases hi : i < 255
  · rw [BitVec.getLsbD_or, BitVec.getLsbD_shiftLeft, BitVec.getLsbD_one]
    by_cases h : i = n
    · subst h; simp [hi]
    · simp [hi, h]; intro h1 h2; omega
  · rw [BitVec.getLsbD_of_ge _ _ (by omega), BitVec.getLsbD_of_ge x _ (by omega)]
    simp; omega

/-- One more index satisfies `g` than `f`. -/
theorem countP_range_succ {f g : Nat → Bool} {n k : Nat} (hk : k < n) (hf : f k = false)
    (hg : ∀ i, g i = (f i || decide (i = k))) :
    (List.range n).countP g = (List.range n).countP f + 1 := by
  induction n with
  | zero => omega
  | succ n ih =>
    rw [List.range_succ, List.countP_append, List.countP_append]
    by_cases h : k = n
    · subst h
      have : (List.range k).countP g = (List.range k).countP f := by
        apply List.countP_congr
        intro x hx
        have : x ≠ k := by have := List.mem_range.1 hx; omega
        rw [hg]; simp [this]
      rw [this]; simp [hg, hf]
    · rw [ih (by omega)]
      have : g n = f n := by rw [hg]; simp; intro h'; exact absurd h'.symm h
      simp [this]; omega

theorem State.takeFrame_ferr (ck : Checks) (i : Nat) (s : State) :
    (s.takeFrame ck i).ferr = if s.frameGood ck i = true then s.ferr else s.ferr ||| (1#255 <<< i) := by
  unfold State.takeFrame
  split <;> simp only [State.markFrame_ferr, State.writePay_ferr]

theorem State.takeFrame_ferrCount (ck : Checks) (i : Nat) (s : State) :
    (s.takeFrame ck i).ferrCount = if s.frameGood ck i = true then s.ferrCount else s.ferrCount + 1 := by
  unfold State.takeFrame
  split <;> simp only [State.markFrame_ferrCount, State.writePay_ferrCount]

theorem State.takeFrame_status (ck : Checks) (i : Nat) (s : State) :
    (s.takeFrame ck i).status = if s.frameGood ck i = true then s.status else s.status ||| 4#8 := by
  unfold State.takeFrame
  split
  · simp only [State.writePay_status]
  · simp only [State.markFrame_status, State.writePay_status]; rfl

theorem State.frameGood_takeFrames (ck : Checks) (n i : Nat) (s : State) :
    (State.takeFrames ck n s).frameGood ck i = s.frameGood ck i := by
  simp only [State.frameGood, State.rawAt_takeFrames]

/-- FERR, FERR_COUNT and STATUS of `t` are those of the first `n` frames of `s`. -/
structure FrameFlags (ck : Checks) (n : Nat) (s t : State) : Prop where
  ferr : ∀ i, t.ferr.getLsbD i = (decide (i < n) && !s.frameGood ck i)
  count : t.ferrCount.toNat = (List.range 255).countP t.ferr.getLsbD
  le : t.ferrCount.toNat ≤ n
  status : t.status = if t.ferrCount = 0#8 then s.status else s.status ||| 4#8

/-- The frame flags after step S8. -/
theorem State.takeFrames_flags (ck : Checks) (n : Nat) (s : State) (hf : s.ferr = 0#255) (hc : s.ferrCount = 0#8)
    (hn : n ≤ 255) : FrameFlags ck n s (State.takeFrames ck n s) := by
  induction n with
  | zero =>
    refine ⟨?_, ?_, ?_, ?_⟩ <;> simp only [State.takeFrames, hc, hf]
    · intro i; simp
    · symm
      rw [BitVec.toNat_ofNat, Nat.zero_mod, List.countP_eq_zero]
      intro i _
      simp
    · simp
    · simp
  | succ n ih =>
    have ih := ih (by omega)
    rw [State.takeFrames_succ]
    have hg := State.frameGood_takeFrames ck n n s
    generalize State.takeFrames ck n s = u at ih hg
    cases h : s.frameGood ck n with
    | true =>
      have hu : u.frameGood ck n = true := hg.trans h
      refine ⟨fun i => ?_, ?_, ?_, ?_⟩
      · rw [State.takeFrame_ferr, if_pos hu, ih.ferr]
        by_cases hi : i = n
        · subst hi; simp [h]
        · have : (i < n + 1) ↔ i < n := by omega
          simp [this]
      · rw [State.takeFrame_ferr, State.takeFrame_ferrCount, if_pos hu, if_pos hu, ih.count]
      · rw [State.takeFrame_ferrCount, if_pos hu]
        have := ih.le
        omega
      · rw [State.takeFrame_status, State.takeFrame_ferrCount, if_pos hu, if_pos hu, ih.status]
    | false =>
      have hu : ¬u.frameGood ck n = true := by rw [hg, h]; simp
      have hle := ih.le
      have hcnt : (u.ferrCount + 1).toNat = u.ferrCount.toNat + 1 := by
        have : (u.ferrCount + 1#8).toNat = _ := BitVec.toNat_add _ _
        simp at this ⊢
        omega
      have hfe : ∀ i, (u.ferr ||| (1#255 <<< n)).getLsbD i = (u.ferr.getLsbD i || decide (i = n)) :=
        fun i => getLsbD_or_bit _ _ _ (by omega)
      refine ⟨fun i => ?_, ?_, ?_, ?_⟩
      · rw [State.takeFrame_ferr, if_neg hu, hfe, ih.ferr]
        by_cases hi : i = n
        · subst hi; simp [h]
        · have : (i < n + 1) ↔ i < n := by omega
          simp [this, hi]
      · rw [State.takeFrame_ferr, State.takeFrame_ferrCount, if_neg hu, if_neg hu, hcnt, ih.count]
        exact (countP_range_succ (k := n) (by omega) (by rw [ih.ferr]; simp) hfe).symm
      · rw [State.takeFrame_ferrCount, if_neg hu, hcnt]
        omega
      · have hne : u.ferrCount + 1 ≠ 0#8 := fun hz => by
          rw [hz, BitVec.toNat_ofNat, Nat.zero_mod] at hcnt
          omega
        rw [State.takeFrame_status, State.takeFrame_ferrCount, if_neg hu, if_neg hu, if_neg hne, ih.status]
        split
        · rfl
        · rw [BitVec.or_assoc]; rfl

/-- ASSEMBLE of a window that holds a packet. -/
theorem assembleWith_of_packet {ck : Checks} {s : State} (hw : s.rawBase.toNat + s.rawLen.toNat ≤ s.par.rawSize)
    (h0 : s.rawAt 0 = s.par.syncByte) (hl : needBytes s.par.hasTrailer (s.rawAt 7).toNat ≤ s.rawLen.toNat) :
    assembleWith ck s =
      State.finishPacket (s.rawAt 7).toNat (needBytes s.par.hasTrailer (s.rawAt 7).toNat)
        (State.checkTrailer ck (s.rawAt 7).toNat
          (State.takeFrames ck (s.rawAt 7).toNat (s.clearPacket.latchHeader.checkHeader ck))) := by
  have h9 : 9 ≤ needBytes s.par.hasTrailer (s.rawAt 7).toNat := by unfold needBytes; omega
  unfold assembleWith State.takeWindow
  rw [if_neg (by simp; omega), if_neg (by simp; omega), if_neg (by simpa using h0), if_neg (by simp; omega)]
  unfold State.takePacket
  simp only [State.checkHeader_nfr, State.checkHeader_par, State.checkHeader_rawLen, State.latchHeader_nfr,
    State.latchHeader_par, State.clearPacket_par, State.latchHeader_rawLen, State.clearPacket_rawLen,
    State.rawAt_clearPacket]
  rw [if_neg (by omega)]

/-- STATUS after an ASSEMBLE that raises nothing. -/
theorem assembleWith_status {ck : Checks} {s : State} (hw : s.rawBase.toNat + s.rawLen.toNat ≤ s.par.rawSize)
    (h0 : s.rawAt 0 = s.par.syncByte) (hl : needBytes s.par.hasTrailer (s.rawAt 7).toNat ≤ s.rawLen.toNat) :
    (assembleWith ck s).status =
      ((if s.rawAt 8 = ck.hdrCk s.headerBytes then 0#8 else 1#8) |||
        (if (assembleWith ck s).ferrCount = 0#8 then 0#8 else 4#8)) |||
      (if s.par.hasTrailer = true ∧
          s.rawAt (9 + 4 * (s.rawAt 7).toNat) ≠ ck.trailerCk (s.packetBytes (s.rawAt 7).toNat) then 2#8 else 0#8) := by
  rw [assembleWith_of_packet hw h0 hl]
  have hb : ∀ n, (State.takeFrames ck n (s.clearPacket.latchHeader.checkHeader ck)).packetBytes n = s.packetBytes n := by
    intro n
    simp only [State.packetBytes]
    exact List.map_congr_left fun a _ => by simp
  simp only [State.finishPacket_status, State.checkTrailer_status, State.finishPacket_ferrCount,
    State.checkTrailer_ferrCount, State.rawAt_takeFrames, State.rawAt_checkHeader, State.rawAt_latchHeader,
    State.rawAt_clearPacket, hb]
  have inv := State.takeFrames_flags ck (s.rawAt 7).toNat (s.clearPacket.latchHeader.checkHeader ck) (by simp) (by simp)
    (by have := (s.rawAt 7).isLt; omega)
  have hp : (State.takeFrames ck (s.rawAt 7).toNat (s.clearPacket.latchHeader.checkHeader ck)).par = s.par := by simp
  have e : s.clearPacket.latchHeader.headerBytes = s.headerBytes := rfl
  rw [inv.status, State.checkHeader_status, hp]
  simp only [State.latchHeader_hck, State.latchHeader_status, State.clearPacket_status, e, State.rawAt_clearPacket]
  split <;> split <;> split <;> rfl

/-- How ASSEMBLE ends: the window holds a packet, or a fault on a state that differs from the cleared one in the header
registers and the header's STATUS bit alone. -/
theorem assembleWith_cases (ck : Checks) (s : State) :
    (s.rawBase.toNat + s.rawLen.toNat ≤ s.par.rawSize ∧ s.rawAt 0 = s.par.syncByte ∧
      needBytes s.par.hasTrailer (s.rawAt 7).toNat ≤ s.rawLen.toNat) ∨
    (∃ r, assembleWith ck s = s.clearPacket.raise r ∧
      (r.fatal = .badCommand ∧ r.sub = 3#8 ∨ (r.fatal = .truncatedPacket ∨ r.fatal = .syncError) ∧ r.sub = 0#8)) ∨
    (s.rawBase.toNat + s.rawLen.toNat ≤ s.par.rawSize ∧ s.rawAt 0 = s.par.syncByte ∧ 9 ≤ s.rawLen.toNat ∧
      s.rawLen.toNat < needBytes s.par.hasTrailer (s.rawAt 7).toNat ∧
      assembleWith ck s = (s.clearPacket.latchHeader.checkHeader ck).raise
        ⟨.truncatedPacket, 0, BitVec.ofNat 32 (needBytes s.par.hasTrailer (s.rawAt 7).toNat)⟩) := by
  unfold assembleWith State.takeWindow
  by_cases h1 : s.rawBase.toNat + s.rawLen.toNat > s.par.rawSize
  · exact .inr (.inl ⟨_, if_pos h1, .inl ⟨rfl, rfl⟩⟩)
  by_cases h2 : s.rawLen.toNat = 0
  · exact .inr (.inl ⟨_, (if_neg h1).trans (if_pos h2), .inr ⟨.inl rfl, rfl⟩⟩)
  by_cases h3 : s.rawAt 0 ≠ s.par.syncByte
  · exact .inr (.inl ⟨_, (if_neg h1).trans ((if_neg h2).trans (if_pos h3)), .inr ⟨.inr rfl, rfl⟩⟩)
  by_cases h4 : s.rawLen.toNat < 9
  · exact .inr (.inl ⟨_, (if_neg h1).trans ((if_neg h2).trans ((if_neg h3).trans (if_pos h4))), .inr ⟨.inl rfl, rfl⟩⟩)
  by_cases h5 : s.rawLen.toNat < needBytes s.par.hasTrailer (s.rawAt 7).toNat
  · refine .inr (.inr ⟨by omega, by simpa using h3, by omega, h5, ?_⟩)
    refine ((if_neg h1).trans ((if_neg h2).trans ((if_neg h3).trans (if_neg h4)))).trans ?_
    unfold State.takePacket
    simp only [State.checkHeader_nfr, State.checkHeader_par, State.checkHeader_rawLen, State.latchHeader_nfr,
      State.latchHeader_par, State.clearPacket_par, State.latchHeader_rawLen, State.clearPacket_rawLen,
      State.rawAt_clearPacket]
    rw [if_pos h5]
  · exact .inl ⟨by omega, by simpa using h3, by omega⟩

/-- An ASSEMBLE that ends in ASSEMBLED had a packet in its window. -/
theorem packet_of_assembled {ck : Checks} {s : State} (h : (assembleWith ck s).phase = .assembled) :
    s.rawBase.toNat + s.rawLen.toNat ≤ s.par.rawSize ∧ s.rawAt 0 = s.par.syncByte ∧
      needBytes s.par.hasTrailer (s.rawAt 7).toNat ≤ s.rawLen.toNat := by
  rcases assembleWith_cases ck s with h' | ⟨r, h', -⟩ | h'
  · exact h'
  · rw [h'] at h; simp at h
  · rw [h'.2.2.2.2] at h; simp at h

end Sys2Proof.Machine
end

