-- ==== Sys2Proof/Laws/Ops.lean ====
section
/-! SUPPORT. One lemma for each shared operation and each meaning that says once everything it can do. -/

namespace Sys2Proof.Machine

/-- How a descriptor word ends. -/
theorem complete_cases {s t : State} {x : Except Raise State} (h : complete s x = .next t) :
    x = .ok t ∨ ∃ r, x = .error r ∧ t = s.raise r := by
  cases x with
  | error r => exact .inr ⟨r, rfl, (Host.Outcome.next.inj h).symm⟩
  | ok u => exact .inl (by rw [Host.Outcome.next.inj h])

@[simp] theorem complete_ok (s t : State) : complete s (.ok t) = .next t := rfl

@[simp] theorem complete_error (s : State) (r : Raise) : complete s (.error r) = .next (s.raise r) := rfl

/-- Every descriptor word ends in a next state. -/
theorem complete_next (s : State) (x : Except Raise State) : ∃ t, complete s x = .next t := by
  cases x with
  | error r => exact ⟨_, rfl⟩
  | ok u => exact ⟨_, rfl⟩

theorem emit_ok {r : Record} {s t : State} (h : emit r s = .ok t) :
    s.resCount.toNat ≠ s.par.resCap ∧ t = s.append r := by
  unfold emit at h
  split at h
  · cases h
  · next hne => cases h; exact ⟨hne, rfl⟩

theorem emit_error {r : Record} {s : State} {x : Raise} (h : emit r s = .error x) :
    s.resCount.toNat = s.par.resCap ∧ x = ⟨.resultOverflow, 0, s.dpc⟩ := by
  unfold emit at h
  split at h
  · next he => cases h; exact ⟨he, rfl⟩
  · cases h

theorem emit_of_ne {r : Record} {s : State} (h : s.resCount.toNat ≠ s.par.resCap) : emit r s = .ok (s.append r) := by
  simp [emit, h]

theorem emit_of_eq {r : Record} {s : State} (h : s.resCount.toNat = s.par.resCap) :
    emit r s = .error ⟨.resultOverflow, 0, s.dpc⟩ := by
  simp [emit, h]

/-- What PART does when it raises nothing. -/
theorem partWord_ok {offset : BitVec 32} {mask : BitVec 8} {size : BitVec 3} {s t : State}
    (h : partWord offset mask size s = .ok t) :
    sizeLegal size = true ∧ ¬(size.toNat = 1 ∧ maskContiguous mask = false) ∧ ¬(size.toNat ≠ 1 ∧ mask ≠ 0xFF#8) ∧
      s.accw.toNat + partWidth mask size ≤ 48 ∧
      t = (countPart (partWidth mask size) (latchPart offset mask size s)).advance := by
  unfold partWord at h
  split at h
  · cases h
  split at h
  · cases h
  split at h
  · cases h
  split at h
  · cases h
  cases h
  exact ⟨by simp_all, ‹_›, ‹_›, by omega, rfl⟩

/-- The three range classes of a part: what is latched or added (R122). -/
theorem latchPart_cases (offset : BitVec 32) (mask : BitVec 8) (size : BitVec 3) (s : State) :
    (s.payLen.toNat ≤ offset.toNat ∧ latchPart offset mask size s = { s with abs := true }) ∨
    (offset.toNat < s.payLen.toNat ∧ s.payLen.toNat < offset.toNat + size.toNat ∧
      latchPart offset mask size s = { s with oobp := true, oobDpc := if s.oobp then s.oobDpc else s.dpc }) ∨
    (offset.toNat < s.payLen.toNat ∧ offset.toNat + size.toNat ≤ s.payLen.toNat ∧
      latchPart offset mask size s =
        { s with acc := s.acc + BitVec.ofNat 48 (partValue mask size (leNat s.payByte offset.toNat size.toNat) <<< s.accw.toNat) }) := by
  unfold latchPart State.readUInt readUInt
  by_cases h1 : s.payLen.toNat ≤ offset.toNat
  · exact .inl ⟨h1, by rw [if_pos h1]⟩
  · by_cases h2 : offset.toNat + size.toNat > s.payLen.toNat
    · exact .inr (.inl ⟨by omega, by omega, by rw [if_neg h1]; simp [h2]⟩)
    · exact .inr (.inr ⟨by omega, by omega, by rw [if_neg h1]; simp [h2]⟩)

/-- What FIELD does when it raises nothing: the absent record or the value record. -/
theorem fieldWord_ok {tag : BitVec 16} {signed : Bool} {mul div : BitVec 16} {s t : State}
    (h : fieldWord tag signed mul div s = .ok t) :
    s.nparts ≠ 0#6 ∧ div ≠ 0#16 ∧ s.resCount.toNat ≠ s.par.resCap ∧
      ((s.abs = true ∧ t = (((s.append (absentRecord tag div)).setFlag .absent).clearGroup).advance) ∨
       (s.abs = false ∧ s.oobp = false ∧
        t = ((s.append (fieldRecord tag signed mul div s.accw.toNat s.acc.toNat)).clearGroup).advance)) := by
  unfold fieldWord at h
  split at h
  · cases h
  split at h
  · cases h
  split at h
  · next ha =>
    split at h
    · cases h
    · next u hu =>
      obtain ⟨hc, rfl⟩ := emit_ok hu
      cases h
      exact ⟨‹_›, ‹_›, hc, .inl ⟨ha, rfl⟩⟩
  · next ha =>
    split at h
    · cases h
    · next hb =>
      split at h
      · cases h
      · next u hu =>
        obtain ⟨hc, rfl⟩ := emit_ok hu
        cases h
        exact ⟨‹_›, ‹_›, hc, .inr ⟨by simpa using ha, by simpa using hb, rfl⟩⟩

/-- What RDU and RDI do when they raise nothing. -/
theorem readWord_ok {tag : BitVec 16} {size : BitVec 3} {v : Option Int} {s t : State}
    (h : readWord tag size v s = .ok t) :
    sizeLegal size = true ∧ s.nparts = 0#6 ∧ s.resCount.toNat ≠ s.par.resCap ∧
      ∃ x, v = some x ∧ t = (s.append (readRecord tag size x)).advance := by
  unfold readWord at h
  split at h
  · cases h
  split at h
  · cases h
  split at h
  · cases h
  · next x =>
    split at h
    · cases h
    · next u hu =>
      obtain ⟨hc, rfl⟩ := emit_ok hu
      cases h
      exact ⟨by simp_all, by simp_all, hc, x, rfl, rfl⟩

/-- What END does when it raises nothing. -/
theorem endWord_ok {s t : State} (h : endWord s = .ok t) : s.nparts = 0#6 ∧ t = { s with phase := .done } := by
  unfold endWord at h
  split at h
  · cases h
  · cases h; exact ⟨by simp_all, rfl⟩

/-- What a descriptor word's meaning is before it completes. -/
def wordEffect (i : Instr) (s : State) : Except Raise State :=
  match i with
  | .part offset mask size => partWord offset mask size s
  | .field tag signed mul div => fieldWord tag signed mul div s
  | .endList => endWord s
  | .rdu tag offset size => readWord tag size ((s.readUInt offset size.toNat).map Int.ofNat) s
  | .rdi tag offset size => readWord tag size (s.readInt offset size.toNat) s

theorem exec_eq_complete (i : Instr) (s : State) : exec i s = complete s (wordEffect i s) := by
  cases i <;> rfl

/-- Everything a descriptor word can do: take a fault, leaving nothing else written, or its effect. -/
theorem exec_cases {i : Instr} {s t : State} (h : exec i s = .next t) :
    (∃ r, wordEffect i s = .error r ∧ t = s.raise r) ∨ wordEffect i s = .ok t := by
  rw [exec_eq_complete] at h
  exact (complete_cases h).symm

/-- No descriptor word stops the machine. -/
theorem exec_next (i : Instr) (s : State) : ∃ t, exec i s = .next t := by
  rw [exec_eq_complete]
  exact complete_next s _

theorem fetch_ok {s : State} {w : Word} (h : fetch s = .ok w) :
    s.dpc.toNat < s.par.descLen ∧ w = s.descWord s.dpc.toNat := by
  unfold fetch at h
  split at h
  · cases h
  · cases h; exact ⟨by omega, rfl⟩

theorem fetch_of_lt {s : State} (h : s.dpc.toNat < s.par.descLen) : fetch s = .ok (s.descWord s.dpc.toNat) := by
  unfold fetch
  rw [if_neg (by omega)]

theorem fetch_of_le {s : State} (h : s.par.descLen ≤ s.dpc.toNat) : fetch s = .error (descriptorError 10 s) := by
  unfold fetch
  rw [if_pos (by omega)]

/-- Everything a step of the decode loop can do. -/
theorem decodeStep_cases {s t : State} (h : decodeStep s = .next t) :
    (∃ r, t = s.raise r) ∨
    ∃ i, s.dpc.toNat < s.par.descLen ∧ decodeWord (s.descWord s.dpc.toNat) = .ok i ∧ exec i s = .next t := by
  unfold decodeStep at h
  split at h
  · exact .inl ⟨_, (Host.Outcome.next.inj h).symm⟩
  · next w hw =>
    obtain ⟨hlt, rfl⟩ := fetch_ok hw
    split at h
    · exact .inl ⟨_, (Host.Outcome.next.inj h).symm⟩
    · next i hi => exact .inr ⟨i, hlt, hi, h⟩

/-- No step of the decode loop stops the machine. -/
theorem decodeStep_next (s : State) : ∃ t, decodeStep s = .next t := by
  unfold decodeStep
  split
  · exact ⟨_, rfl⟩
  · split
    · exact ⟨_, rfl⟩
    · exact exec_next _ _

theorem step_of_busy {s : State} (h : s.phase = .busy) : step s = decodeStep s := by
  unfold step
  rw [h]

theorem step_of_not_busy {s : State} (h : s.phase ≠ .busy) : step s = hostStep s := by
  unfold step
  cases hp : s.phase <;> simp_all

end Sys2Proof.Machine
end

