-- ==== Sys2Proof/Laws/Commands.lean ====
section
/-! SUPPORT. What each command, each host move and each step can do, said once. -/

namespace Sys2Proof.Machine

/-- How ASSEMBLE leaves PHASE. -/
theorem assembleWith_phase (ck : Checks) (s : State) :
    (assembleWith ck s).phase = .assembled ∨ (assembleWith ck s).phase = .fault := by
  rcases assembleWith_cases ck s with ⟨h1, h2, h3⟩ | ⟨r, h, -⟩ | ⟨-, -, -, -, h⟩
  · exact .inl (by rw [assembleWith_of_packet h1 h2 h3]; rfl)
  · exact .inr (by rw [h]; rfl)
  · exact .inr (by rw [h]; rfl)

/-- Everything a CMD write can do (R137, R142). -/
theorem cmdWrite_cases {c : BitVec 32} {s t : State} (h : cmdWrite c s = .next t) :
    s.phase ≠ .busy ∧
      ((c = 1#32 ∧ t = assemble s) ∨ (c = 4#32 ∧ t = clear s) ∨
       (s.phase = .fault ∧ t = s) ∨ (s.phase ≠ .fault ∧ t = s.raise (badCommand c)) ∨
       ((s.phase = .assembled ∨ s.phase = .done) ∧ c = 2#32 ∧ t = startDecode s) ∨
       ((s.phase = .assembled ∨ s.phase = .done) ∧ c = 3#32 ∧ t = skip s)) := by
  unfold cmdWrite at h
  split at h
  · cases h
  next hb =>
  refine ⟨hb, ?_⟩
  split at h
  · next hc => cases h; exact .inl ⟨hc, rfl⟩
  split at h
  · next hc => cases h; exact .inr (.inl ⟨hc, rfl⟩)
  split at h
  · next hp => cases h; exact .inr (.inr (.inl ⟨hp, rfl⟩))
  next hf =>
  split at h
  · cases h; exact .inr (.inr (.inr (.inl ⟨hf, rfl⟩)))
  next hi =>
  have hp : s.phase = .assembled ∨ s.phase = .done := by cases hs : s.phase <;> simp_all
  split at h
  · next hc => cases h; exact .inr (.inr (.inr (.inr (.inl ⟨hp, hc, rfl⟩))))
  split at h
  · next hc => cases h; exact .inr (.inr (.inr (.inr (.inr ⟨hp, hc, rfl⟩))))
  · cases h; exact .inr (.inr (.inr (.inl ⟨hf, rfl⟩)))

theorem hostMove_of_not_busy {s : State} (m : HostMove) (h : s.phase ≠ .busy) :
    hostMove m s =
      match m with
      | .writeReg number v => writeReg number v s
      | .writeRaw a v => if a < s.par.rawSize then .next { s with raw := s.raw.set a v } else .fault (.noRawAddress a)
      | .writeDesc i w => if i < s.par.descLen then .next { s with desc := s.desc.set i w } else .fault (.noDescIndex i)
      | .consult => consultWith Config.registry s
      | .reset => .next (applyReset s) := by
  unfold hostMove
  exact (if_neg h).trans (by cases m <;> rfl)

/-- Everything a host move can do. -/
theorem hostMove_cases {m : HostMove} {s t : State} (h : hostMove m s = .next t) :
    s.phase ≠ .busy ∧
      (t = s ∨ (∃ v, t = { s with rawBase := v }) ∨ (∃ v, t = { s with rawLen := v }) ∨
       (∃ v, t = { s with descBase := v }) ∨
       (∃ a v, a < s.par.rawSize ∧ t = { s with raw := s.raw.set a v }) ∨
       (∃ i w, i < s.par.descLen ∧ t = { s with desc := s.desc.set i w }) ∨
       t = applyReset s ∨ (∃ c, m = .writeReg 0 c ∧ cmdWrite c s = .next t) ∨
       (m = .consult ∧ s.phase ≠ .fault ∧
         (cmdWrite 3 s = .next t ∨ ∃ base, cmdWrite 2 { s with descBase := base } = .next t))) := by
  by_cases hb : s.phase = .busy
  · unfold hostMove at h
    rw [if_pos hb] at h
    cases h
  refine ⟨hb, ?_⟩
  rw [hostMove_of_not_busy m hb] at h
  cases m with
  | writeReg number v =>
    simp only [writeReg] at h
    split at h
    · exact .inr (.inr (.inr (.inr (.inr (.inr (.inr (.inl ⟨v, rfl, h⟩)))))))
    · cases h; exact .inr (.inl ⟨v, rfl⟩)
    · cases h; exact .inr (.inr (.inl ⟨v, rfl⟩))
    · cases h; exact .inr (.inr (.inr (.inl ⟨v, rfl⟩)))
    · cases h; exact .inl rfl
  | writeRaw a v =>
    dsimp only at h
    split at h
    · next ha => cases h; exact .inr (.inr (.inr (.inr (.inl ⟨a, v, ha, rfl⟩))))
    · cases h
  | writeDesc i w =>
    dsimp only at h
    split at h
    · next ha => cases h; exact .inr (.inr (.inr (.inr (.inr (.inl ⟨i, w, ha, rfl⟩)))))
    · cases h
  | consult =>
    simp only [consultWith] at h
    split at h
    · cases h; exact .inl rfl
    next hf =>
    refine .inr (.inr (.inr (.inr (.inr (.inr (.inr (.inr ⟨rfl, hf, ?_⟩)))))))
    split at h
    · exact .inl h
    · exact .inr ⟨_, h⟩
  | reset => cases h; exact .inr (.inr (.inr (.inr (.inr (.inr (.inl rfl))))))

/-- What a step outside BUSY runs. -/
theorem step_of_host {s : State} {m : HostMove} {rest : List HostMove} (hp : s.phase ≠ .busy) (h : s.host = m :: rest) :
    step s = hostMove m { s with host := rest } := by
  rw [step_of_not_busy hp]
  unfold hostStep
  rw [h]

/-- Everything a step can do: run a descriptor word in BUSY, hold, or make the host's next move. -/
theorem step_cases {s t : State} (h : step s = .next t) :
    (s.phase = .busy ∧ decodeStep s = .next t) ∨ (s.phase ≠ .busy ∧ s.host = [] ∧ t = s) ∨
    ∃ m rest, s.phase ≠ .busy ∧ s.host = m :: rest ∧ hostMove m { s with host := rest } = .next t := by
  by_cases hb : s.phase = .busy
  · exact .inl ⟨hb, (step_of_busy hb).symm.trans h⟩
  cases hh : s.host with
  | nil =>
    rw [step_of_not_busy hb] at h
    unfold hostStep at h
    rw [hh] at h
    cases h
    exact .inr (.inl ⟨hb, rfl, rfl⟩)
  | cons m rest => exact .inr (.inr ⟨m, rest, hb, rfl, (step_of_host hb hh).symm.trans h⟩)

end Sys2Proof.Machine
end

