-- ==== Sys2Proof/Laws/Encoding.lean ====
section
/-! SUPPORT. The encoder and the fields of a word as numbers, so that encoding facts are linear arithmetic. -/

namespace Sys2Proof

theorem toNat_append_eq {n m : Nat} (x : BitVec n) (y : BitVec m) : (x ++ y).toNat = x.toNat * 2 ^ m + y.toNat := by
  rw [BitVec.toNat_append, ← Nat.shiftLeft_add_eq_or_of_lt y.isLt, Nat.shiftLeft_eq]

theorem slice_toNat (w : Word) (lo n : Nat) : (slice w lo n).toNat = w.toNat / 2 ^ lo % 2 ^ n := by
  simp [slice, BitVec.extractLsb'_toNat, Nat.shiftRight_eq_div_pow]

theorem encode_part_toNat (offset : BitVec 32) (mask : BitVec 8) (size : BitVec 3) :
    (encode (.part offset mask size)).toNat = 2 ^ 60 + size.toNat * 2 ^ 40 + mask.toNat * 2 ^ 32 + offset.toNat := by
  have : (encode (.part offset mask size)).toNat = ((((1#4 ++ 0#17) ++ size) ++ mask) ++ offset).toNat := rfl
  rw [this]
  simp only [toNat_append_eq, BitVec.toNat_ofNat]
  omega

theorem encode_field_toNat (tag : BitVec 16) (signed : Bool) (mul div : BitVec 16) :
    (encode (.field tag signed mul div)).toNat =
      2 * 2 ^ 60 + signed.toNat * 2 ^ 48 + tag.toNat * 2 ^ 32 + div.toNat * 2 ^ 16 + mul.toNat := by
  have : (encode (.field tag signed mul div)).toNat =
    (((((2#4 ++ 0#11) ++ BitVec.ofBool signed) ++ tag) ++ div) ++ mul).toNat := rfl
  rw [this]
  simp only [toNat_append_eq, BitVec.toNat_ofNat, BitVec.toNat_ofBool]
  omega

theorem encode_endList_toNat : (encode .endList).toNat = 3 * 2 ^ 60 := by
  decide

theorem encode_rdu_toNat (tag : BitVec 16) (offset : BitVec 32) (size : BitVec 3) :
    (encode (.rdu tag offset size)).toNat = 4 * 2 ^ 60 + tag.toNat * 2 ^ 43 + size.toNat * 2 ^ 40 + offset.toNat := by
  have : (encode (.rdu tag offset size)).toNat = (((((4#4 ++ 0#1) ++ tag) ++ size) ++ 0#8) ++ offset).toNat := rfl
  rw [this]
  simp only [toNat_append_eq, BitVec.toNat_ofNat]
  omega

theorem encode_rdi_toNat (tag : BitVec 16) (offset : BitVec 32) (size : BitVec 3) :
    (encode (.rdi tag offset size)).toNat = 5 * 2 ^ 60 + tag.toNat * 2 ^ 43 + size.toNat * 2 ^ 40 + offset.toNat := by
  have : (encode (.rdi tag offset size)).toNat = (((((5#4 ++ 0#1) ++ tag) ++ size) ++ 0#8) ++ offset).toNat := rfl
  rw [this]
  simp only [toNat_append_eq, BitVec.toNat_ofNat]
  omega

end Sys2Proof
end

