-- ==== Sys2Proof/Laws/Operands.lean ====
section
/-! SUPPORT. The small laws of the operand and number functions: legal sizes, the little-endian number, the sign bit,
truncating division, composition. -/

namespace Sys2Proof.Machine

theorem sizeLegal_iff {size : BitVec 3} :
    sizeLegal size = true ↔ size.toNat = 1 ∨ size.toNat = 2 ∨ size.toNat = 4 ∨ size.toNat = 6 := by
  simp [sizeLegal, or_assoc]

/-- `n` bytes hold a number below 256^n. -/
theorem leNat_lt (buf : Nat → Byte) (o n : Nat) : leNat buf o n < 256 ^ n := by
  induction n with
  | zero => simp [leNat]
  | succ n ih =>
    simp only [leNat]
    have := (buf (o + n)).isLt
    have h2 : (buf (o + n)).toNat * 256 ^ n ≤ 255 * 256 ^ n := Nat.mul_le_mul_right _ (by omega)
    rw [pow_succ]
    omega

theorem leNat_eq_sum (buf : Nat → Byte) (o n : Nat) :
    leNat buf o n = ((List.range n).map fun i => (buf (o + i)).toNat * 256 ^ i).sum := by
  induction n with
  | zero => rfl
  | succ n ih => simp [leNat, ih, List.range_succ]

theorem readUInt_eq_some {buf : Nat → Byte} {len o n u : Nat} :
    readUInt buf len o n = some u ↔ o + n ≤ len ∧ u = leNat buf o n := by
  unfold readUInt
  split <;> simp <;> omega

/-- The top bit of a `w`-bit pattern. -/
theorem testBit_top {w acc : Nat} (h1 : 1 ≤ w) (h : acc < 2 ^ w) :
    acc.testBit (w - 1) = decide (2 ^ (w - 1) ≤ acc) := by
  by_cases hh : 2 ^ (w - 1) ≤ acc
  · simp only [hh, decide_true]
    exact Nat.testBit_of_two_pow_le_and_two_pow_add_one_gt hh (by rwa [show w - 1 + 1 = w by omega])
  · simp only [hh, decide_false]
    exact Nat.testBit_lt_two_pow (by omega)

/-- `trem` is the remainder of truncation. -/
theorem trem_eq_tmod (p : Int) (d : Nat) : trem p d = Int.tmod p d := by
  have := Int.mul_tdiv_add_tmod p d
  unfold trem tdiv
  omega

/-- A cumulative offset shifts the whole composition. -/
theorem composeFrom_eq_mul (P : Nat → Byte) (cum : Nat) (ps : List FieldPart) :
    composeFrom P cum ps = composeFrom P 0 ps * 2 ^ cum := by
  induction ps generalizing cum with
  | nil => simp [composeFrom]
  | cons p ps ih =>
    simp only [composeFrom]
    rw [ih (cum + p.pw), ih (0 + p.pw)]
    simp only [Nat.shiftLeft_eq]
    rw [pow_add]
    simp
    ring

end Sys2Proof.Machine
end

