-- ==== Sys2Proof/Laws/PerInstr.lean ====
section
/-! SUPPORT. Statements made once for each constructor of Instr. -/

namespace Sys2Proof.Laws.EncodedOp

/-- The OP field of an encoded word is the instruction's code (R59, R67). -/
def Statement (i : Instr) : Prop :=
  (slice (encode i) 60 4).toNat = i.op.toNat

theorem part (offset : BitVec 32) (mask : BitVec 8) (size : BitVec 3) : Statement (.part offset mask size) := by
  have h1 := offset.isLt
  have h2 := mask.isLt
  have h3 := size.isLt
  simp only [Statement, slice_toNat, encode_part_toNat, Instr.op, BitVec.toNat_ofNat]
  omega

theorem field (tag : BitVec 16) (signed : Bool) (mul div : BitVec 16) : Statement (.field tag signed mul div) := by
  have h1 := tag.isLt
  have h2 := mul.isLt
  have h3 := div.isLt
  have h4 := Bool.toNat_lt signed
  simp only [Statement, slice_toNat, encode_field_toNat, Instr.op, BitVec.toNat_ofNat]
  omega

theorem endList : Statement .endList := by
  simp only [Statement, slice_toNat, encode_endList_toNat, Instr.op, BitVec.toNat_ofNat]
  omega

theorem rdu (tag : BitVec 16) (offset : BitVec 32) (size : BitVec 3) : Statement (.rdu tag offset size) := by
  have h1 := offset.isLt
  have h2 := tag.isLt
  have h3 := size.isLt
  simp only [Statement, slice_toNat, encode_rdu_toNat, Instr.op, BitVec.toNat_ofNat]
  omega

theorem rdi (tag : BitVec 16) (offset : BitVec 32) (size : BitVec 3) : Statement (.rdi tag offset size) := by
  have h1 := offset.isLt
  have h2 := tag.isLt
  have h3 := size.isLt
  simp only [Statement, slice_toNat, encode_rdi_toNat, Instr.op, BitVec.toNat_ofNat]
  omega

end Sys2Proof.Laws.EncodedOp
end

