-- ==== Sys2Proof/Laws/Run.lean ====
section
/-! SUPPORT. Runs of several steps: the first step peeled off a run, runs put end to end; the same of `settle`, and the
commands RUN makes. -/

namespace Sys2Proof.Machine

/-- A run that begins with a step to `t` goes on from `t`, on any machine. -/
theorem coreRun_succ (M : Host.Core) {n : Nat} {s t : M.State} (h : M.step s = .next t) :
    M.run (n + 1) s = M.run n t := by
  rw [Host.Core.run, h]

/-- A run of one step or more that completes begins with a step, on any machine. -/
theorem coreRun_cases (M : Host.Core) {n : Nat} {s t : M.State} (h : M.run (n + 1) s = .next t) :
    ∃ u, M.step s = .next u ∧ M.run n u = .next t := by
  rw [Host.Core.run] at h
  split at h
  · next u hu => exact ⟨u, hu, h⟩
  · cases h
  · cases h

/-- Two runs end to end, on any machine. -/
theorem coreRun_add (M : Host.Core) {m n : Nat} {s t : M.State} (h : M.run m s = .next t) :
    M.run (m + n) s = M.run n t := by
  induction m generalizing s with
  | zero => cases h; rw [Nat.zero_add]
  | succ m ih =>
    obtain ⟨u, hu, h⟩ := coreRun_cases M h
    rw [show m + 1 + n = (m + n) + 1 from by omega]
    exact (coreRun_succ M hu).trans (ih h)

/-- A run that begins with a step to `t` goes on from `t`. -/
theorem run_succ_of_step {n : Nat} {s t : State} (h : step s = .next t) :
    Sys2Proof.core.run (n + 1) s = Sys2Proof.core.run n t :=
  coreRun_succ Sys2Proof.core h

/-- A run of one step. -/
theorem run_one_of_step {s t : State} (h : step s = .next t) : Sys2Proof.core.run 1 s = .next t :=
  (run_succ_of_step h).trans rfl

/-- A run of one step or more that completes begins with a step. -/
theorem run_cases {n : Nat} {s t : State} (h : Sys2Proof.core.run (n + 1) s = .next t) :
    ∃ u : State, step s = .next u ∧ Sys2Proof.core.run n u = .next t :=
  coreRun_cases Sys2Proof.core h

/-- Two runs end to end. -/
theorem run_add_of_run {m n : Nat} {s t : State} (h : Sys2Proof.core.run m s = .next t) :
    Sys2Proof.core.run (m + n) s = Sys2Proof.core.run n t :=
  coreRun_add Sys2Proof.core h

/-- An invariant that every step keeps holds at the end of every run. -/
theorem run_keeps {P : State → Prop} (hP : ∀ s t, P s → step s = .next t → P t) {n : Nat} {s t : State} (hs : P s)
    (h : Sys2Proof.core.run n s = .next t) : P t := by
  induction n generalizing s with
  | zero => cases h; exact hs
  | succ n ih =>
    obtain ⟨u, hu, h⟩ := run_cases h
    exact ih (hP s u hs hu) h

/-- Outside BUSY there is nothing to settle. -/
theorem settle_of_not_busy (n : Nat) {s : State} (h : s.phase ≠ .busy) : settle n s = s := by
  cases n with
  | zero => rfl
  | succ n =>
    simp only [settle]
    split <;> first | rfl | (next hb => exact absurd hb h)

/-- In BUSY the first step of a settling DECODE is one step of the decode loop. -/
theorem settle_succ_of_decodeStep (n : Nat) {s t : State} (hb : s.phase = .busy) (h : decodeStep s = .next t) :
    settle (n + 1) s = settle n t := by
  simp only [settle, hb, h]

/-- A settling DECODE that ends is a run of steps no longer than its bound. -/
theorem settle_is_run (n : Nat) (s : State) : ∃ m, m ≤ n ∧ Sys2Proof.core.run m s = .next (settle n s) := by
  induction n generalizing s with
  | zero => exact ⟨0, Nat.le_refl _, rfl⟩
  | succ n ih =>
    by_cases hb : s.phase = .busy
    · obtain ⟨t, ht⟩ := decodeStep_next s
      obtain ⟨m, hm, hr⟩ := ih t
      refine ⟨m + 1, by omega, ?_⟩
      rw [settle_succ_of_decodeStep n hb ht]
      exact (run_succ_of_step ((step_of_busy hb).trans ht)).trans hr
    · rw [settle_of_not_busy _ hb]
      exact ⟨0, Nat.zero_le _, rfl⟩

/-- SKIP as one transition. -/
theorem command_skip {s : State} (h : s.phase = .assembled ∨ s.phase = .done) : command 3 s = skip s := by
  have hc : cmdWrite 3 s = .next (skip s) := by
    rcases h with h | h <;> simp [cmdWrite, h]
  simp only [command, hc]
  exact settle_of_not_busy _ (by simp)

/-- DECODE as one transition, through the CMD port. -/
theorem command_decode {s : State} (h : s.phase = .assembled ∨ s.phase = .done) : command 2 s = decodeCommand s := by
  have hc : cmdWrite 2 s = .next (startDecode s) := by
    rcases h with h | h <;> simp [cmdWrite, h]
  simp only [command, hc]
  rfl

/-- A read of PAY the host may make. -/
theorem hostReadPay_of_readable {s : State} {a : Nat} (h : s.phase = .assembled ∨ s.phase = .done)
    (ha : a < s.payLen.toNat) : s.hostReadPay a = some (s.payByte a) :=
  if_pos ⟨h, ha⟩

/-- A read of RES the host may make. -/
theorem hostReadRes_of_readable {s : State} {i : Nat} (h : s.phase = .done) (hi : i < s.resCount.toNat) :
    s.hostReadRes i = s.res.get? i :=
  if_pos ⟨h, hi⟩

end Sys2Proof.Machine
end

