-- ==== Sys2Proof/Tests/Slice0.lean ====
section
/-! SUPPORT. Tests and witnesses. Expected results come from the spec: the encodings of 30_encoding.md, and the vectors and
programs of 95_test_vectors.md, named in each docstring. Each witness meets all hypotheses of the obligation it names, or
of the clause it names. -/

namespace Sys2Proof.Tests

open Sys2Proof.Machine

/-! ### Helpers -/

/-- The test instantiation (95_test_vectors.md, head). -/
def par : Params := ⟨0xAA, false, 64, 32, 16⟩

/-- `HCK_T` (R8). -/
def hckT (h : Vector Byte 8) : Byte := 0xFF#8 - (h[1] + h[2] + h[3] + h[4] + h[5] + h[6] + h[7])

/-- `CK_T`, `HCK_T`, and a trailer function that is never called. -/
def cks : Checks := ⟨⟨ckT, ckT_detects⟩, hckT, fun _ => 0⟩

/-- Cells from address `a` on. -/
def cells {α : Type} : Nat → List α → Memory α
  | _, [] => []
  | a, v :: vs => (a, v) :: cells (a + 1) vs

def start : State := { State.reset with par := par }

/-- The window `bytes` at RAW_BASE. -/
def window (base : Nat) (bytes : List Byte) : State :=
  { start with
    raw := cells base bytes, rawBase := BitVec.ofNat 32 base, rawLen := BitVec.ofNat 32 bytes.length }

/-- Window G of 95_test_vectors.md. -/
def gBytes : List Byte :=
  [0xAA, 0x10, 0x00, 0x78, 0x42, 0x00, 0x01, 0x02, 0x32, 0x7F, 0x0B, 0x00, 0x75, 0xFF, 0xFF, 0x05, 0xFC]

/-- A DECODE in progress on the payload of packet V (95_test_vectors.md), with `words` from index 0 on. -/
def busy (words : List Word) : State :=
  { start with
    phase := .busy
    nfr := 4
    payLen := 12
    consumed := 25
    pay := cells 0 [0x7F, 0x0B, 0x00, 0xFF, 0xFF, 0x05, 0xFD, 0x00, 0x80, 0x00, 0x80, 0xE7]
    desc := cells 0 words }

/-- The same with a field group of one part open, `acc` of `w` bits composed so far, and DPC at word 1. -/
def open1 (acc w : Nat) : State :=
  { busy [] with acc := BitVec.ofNat 48 acc, accw := BitVec.ofNat 6 w, nparts := 1, dpc := 1 }

/-- An observation of the next state. -/
def seen {α : Type} (o : Host.Outcome State Fault Refusal) (f : State → α) : Option α :=
  match o with
  | .next t => some (f t)
  | .fault _ => none
  | .refused _ => none

/-- (PHASE, ERR_CODE, ERR_SUB, ERR_INFO, DPC). -/
def err (s : State) : Phase × Nat × Nat × Nat × Nat :=
  (s.phase, s.errCode.toNat, s.errSub.toNat, s.errInfo.toNat, s.dpc.toNat)

/-! ### Decoding: words written out field by field from R60, R62, R64, R65, R66 -/

/-- PART 2, 0x0F, 1: OP, 17 reserved bits, SIZE, MASK, OFFSET. -/
theorem test_decode_part :
    decodeWord (0b0001_00000000000000000_001_00001111_00000000000000000000000000000010#64) =
      .ok (.part 2 0x0F 1) := by decide

/-- FIELD 5, S, 3, 7: OP, 11 reserved bits, SIGNED, TAG, DIV, MUL. -/
theorem test_decode_field :
    decodeWord (0b0010_00000000000_1_0000000000000101_0000000000000111_0000000000000011#64) =
      .ok (.field 5 true 3 7) := by decide

/-- END: OP, 60 reserved bits. -/
theorem test_decode_end :
    decodeWord (0b0011_000000000000000000000000000000000000000000000000000000000000#64) = .ok .endList := by decide

/-- RDU 0x21, 0, 2 (P5 word 0): OP, a reserved bit, TAG, SIZE, 8 reserved bits, OFFSET. -/
theorem test_decode_rdu :
    decodeWord (0b0100_0_0000000000100001_010_00000000_00000000000000000000000000000000#64) =
      .ok (.rdu 0x21 0 2) := by decide

/-- RDI 0x25, 4, 1 (P5 word 4). -/
theorem test_decode_rdi :
    decodeWord (0b0101_0_0000000000100101_001_00000000_00000000000000000000000000000100#64) =
      .ok (.rdi 0x25 4 1) := by decide

/-- E1, E2, E3: OP 0, 6, 15. -/
theorem test_decode_illegal_op :
    decodeWord 0x0000000000000000#64 = .error .illegalOp ∧ decodeWord 0x6000000000000000#64 = .error .illegalOp ∧
      decodeWord 0xFFFFFFFFFFFFFFFF#64 = .error .illegalOp := by decide

/-- E4, E5, E6, E7, E8, E20: a reserved bit of each format. -/
theorem test_decode_reserved :
    decodeWord 0x100009FF00000000#64 = .error .reservedBits ∧ decodeWord 0x2002000100010001#64 = .error .reservedBits ∧
      decodeWord 0x3000000000000001#64 = .error .reservedBits ∧ decodeWord 0x4000090100000000#64 = .error .reservedBits ∧
      decodeWord 0x4800090000000000#64 = .error .reservedBits ∧ decodeWord 0x180003FF00000000#64 = .error .reservedBits := by
  decide

/-- P2 word 12 and P3 word 8 encode back to the spec's words. -/
theorem test_encode :
    encode (.field 0x14 true 1 4) = 0x2001001400040001#64 ∧ encode (.part 0 0xFF 6) = 0x100006FF00000000#64 := by decide

/-- The text of R75. -/
theorem test_text : instrText (.field 1 true 1 10) = "FIELD 1, S, 1, 10" := by decide

/-! ### WellFormed: an ill-formed term for each check -/

theorem test_wf_ok :
    Instr.wf (.part 0 0x70 1) = true ∧ Instr.wf (.part 0 0xFF 6) = true ∧ Instr.wf (.field 1 true 0 1) = true ∧
      Instr.wf (.rdu 1 0 4) = true ∧ listWf [.part 0 0xFF 2, .field 1 true 1 10, .rdi 2 0 1, .endList] = true := by decide

/-- BadSize (E9, E10). -/
theorem test_wf_size :
    Instr.wf (.part 0 0xFF 3) = false ∧ Instr.wf (.rdu 1 0 5) = false ∧ Instr.wf (.rdi 1 0 0) = false := by decide

/-- BadMask: zero (E11) and with a hole (E12). -/
theorem test_wf_mask : Instr.wf (.part 0 0x00 1) = false ∧ Instr.wf (.part 0 0x50 1) = false := by decide

/-- WideMask (E13). -/
theorem test_wf_wide : Instr.wf (.part 0 0x0F 2) = false := by decide

/-- ZeroDivisor (E17). -/
theorem test_wf_div : Instr.wf (.field 1 false 1 0) = false := by decide

/-- WidthOverflow (E14, E15). -/
theorem test_wf_width :
    listWf [.part 0 0xFF 6, .part 6 0x01 1, .field 1 false 1 1, .endList] = false ∧
      listWf [.part 0 0xFF 4, .part 4 0xFF 4, .field 1 false 1 1, .endList] = false := by decide

/-- EmptyField (E16). -/
theorem test_wf_empty_field : listWf [.field 1 false 1 1, .endList] = false := by decide

/-- OpenField (E18, E19). -/
theorem test_wf_open_field :
    listWf [.part 0 0xFF 1, .endList] = false ∧
      listWf [.part 0 0xFF 1, .rdu 0 0 1, .field 1 false 1 1, .endList] = false ∧
      listWf [.part 0 0xFF 1, .rdi 0 0 1, .field 1 false 1 1, .endList] = false := by decide

/-- No END (E24), and words after END. -/
theorem test_wf_end :
    listWf [.part 0 0xFF 1, .field 1 false 1 1] = false ∧ listWf [] = false ∧
      listWf [.endList, .endList] = false := by decide

/-! ### One step of each instruction -/

/-- F12's PART: (0x0B AND 0x0C) >> 2 = 2, two bits. -/
theorem test_part_value :
    seen (step (busy [0x1000010C00000001#64])) (fun t => (t.acc.toNat, t.accw.toNat, t.nparts.toNat, t.dpc.toNat)) =
      some (2, 2, 1, 1) := by decide

/-- P2 word 11: the second nibble enters at the cumulative width 4: 0xA + (0xF << 4) = 0xFA; here byte 0x7F. -/
theorem test_part_second :
    seen (exec (.part 0 0x0F 1) (open1 0xA 4)) (fun t => (t.acc.toNat, t.accw.toNat, t.nparts.toNat)) =
      some (0xFA, 8, 2) := by decide

/-- F7: -32768 * 3 / 7 = -14043 remainder -3. -/
theorem test_field_signed :
    seen (exec (.field 1 true 3 7) (open1 0x8000 16)) (fun t => (t.res, t.resCount.toNat, t.dpc.toNat)) =
      some ([(0, ⟨1, .value, .ok, 16, -32768, -14043, -3, 7, false⟩)], 1, 2) := by decide

/-- F14: one bit, signed, factor 1, is a flag with RAW = -1. -/
theorem test_field_flag :
    seen (exec (.field 1 true 1 1) (open1 1 1)) (fun t => (t.res, t.acc.toNat, t.accw.toNat, t.nparts.toNat)) =
      some ([(0, ⟨1, .flag, .ok, 1, -1, -1, 0, 1, true⟩)], 0, 0, 0) := by decide

/-- F25. -/
theorem test_end : seen (step (busy [0x3000000000000000#64])) err = some (.done, 0, 0, 0, 0) := by decide

/-- E18. -/
theorem test_end_open : seen (exec .endList (open1 0x7F 8)) err = some (.fault, 8, 9, 1, 1) := by decide

/-- F18's six bytes read by RDU: 0x05FFFF000B7F. -/
theorem test_rdu :
    seen (exec (.rdu 0x28 0 6) (busy [])) (fun t => (t.res, t.dpc.toNat)) =
      some ([(0, ⟨0x28, .read, .ok, 48, 6597052992383, 6597052992383, 0, 1, false⟩)], 1) := by decide

/-- R78: 11 + 2 > 12. -/
theorem test_rdu_out : seen (exec (.rdu 0x2B 11 2) (busy [])) err = some (.fault, 1, 0, 0, 0) := by decide

/-- R80: FF FF at offset 3 reads -1 (S2). -/
theorem test_rdi :
    seen (exec (.rdi 0x22 3 2) (busy [])) (fun t => t.res) =
      some [(0, ⟨0x22, .read, .ok, 16, -1, -1, 0, 1, false⟩)] := by decide

/-- R80: no sign correction at 32 bits: bytes 80 00 80 E7. -/
theorem test_rdi_32 :
    seen (exec (.rdi 0x24 8 4) (busy [])) (fun t => t.res) =
      some [(0, ⟨0x24, .read, .ok, 32, 0xE7800080, 0xE7800080, 0, 1, false⟩)] := by decide

/-! ### ASSEMBLE, with the test functions -/

/-- A5. -/
theorem test_assemble_truncated :
    err (assembleWith cks (window 0 (gBytes.take 16))) = (.fault, 2, 0, 17, 0) ∧
      (assembleWith cks (window 0 (gBytes.take 16))).src = 0x4278#16 := by decide

/-- A9: a window that ends at RAW_SIZE. -/
theorem test_assemble_good :
    (assembleWith cks (window 47 gBytes)).phase = .assembled ∧ (assembleWith cks (window 47 gBytes)).status = 0#8 ∧
      (assembleWith cks (window 47 gBytes)).pay = cells 0 [0x7F, 0x0B, 0x00, 0xFF, 0xFF, 0x05] := by decide

/-- A15: frame 1 ends in FD. -/
theorem test_assemble_bad_frame :
    (assembleWith cks (window 0 (gBytes.take 16 ++ [0xFD]))).status = 0x04#8 ∧
      (assembleWith cks (window 0 (gBytes.take 16 ++ [0xFD]))).readReg 0x10 = 2#32 := by decide

/-- H1: DECODE in IDLE. -/
theorem test_decode_in_idle : seen (step { start with host := [.writeReg 0 2] }) err = some (.fault, 9, 2, 2, 0) := by
  decide

/-- The opcode table's first row from reset, as the host asks for it. -/
theorem test_table_word :
    decodeTableWord 64 0x1000010C00000001 = some (.part 1 0x0C 1) ∧
      State.reset.fetchIndex = 0#32 := by
  refine ⟨by decide, ?_⟩
  simp [State.fetchIndex, State.reset, Config.params]

/-! ### Witnesses: encoding and one step -/

theorem witness_EncodeOfDecode : decodeWord 0x100002FF00000000#64 = .ok (.part 0 0xFF 2) := by decide

theorem witness_OpAloneSelects : decodeWord 0x5001520000000004#64 = .ok (.rdi 0x2A 4 2) := by decide

theorem witness_OperandsAreWordFields : decodeWord 0x20010001000A0001#64 = .ok (.field 1 true 1 10) := by decide

theorem witness_StepRunsDecodedWord :
    (busy [0x100002FF00000000#64]).phase = .busy ∧
      (busy [0x100002FF00000000#64]).dpc.toNat < (busy [0x100002FF00000000#64]).par.descLen ∧
      decodeWord ((busy [0x100002FF00000000#64]).descWord 0) = .ok (.part 0 0xFF 2) := by decide

/-- DPC at DESC_LEN. -/
theorem witness_IllegalWordFaults_overrun :
    { busy [] with dpc := 32 }.phase = .busy ∧
      { busy [] with dpc := 32 }.par.descLen ≤ { busy [] with dpc := 32 }.dpc.toNat := by decide

theorem witness_IllegalWordFaults_op :
    (busy [0x6000000000000000#64]).phase = .busy ∧
      (busy [0x6000000000000000#64]).dpc.toNat < (busy [0x6000000000000000#64]).par.descLen ∧
      decodeWord ((busy [0x6000000000000000#64]).descWord 0) = .error .illegalOp := by decide

theorem witness_IllegalWordFaults_reserved :
    (busy [0x100009FF00000000#64]).phase = .busy ∧
      (busy [0x100009FF00000000#64]).dpc.toNat < (busy [0x100009FF00000000#64]).par.descLen ∧
      decodeWord ((busy [0x100009FF00000000#64]).descWord 0) = .error .reservedBits := by decide

theorem witness_FetchWordRunsNext : 0 < start.par.descLen := by decide

/-- The widest mask and the topmost one-bit mask. -/
theorem witness_MaskSelectsBits :
    (1 ≤ 8 ∧ 0 + 8 ≤ 8) ∧ (1 ≤ 1 ∧ 7 + 1 ≤ 8) ∧ maskContiguous 0x80 = true := by decide

/-! ### Witnesses: PART -/

theorem busy_decoderOk (words : List Word) : (busy words).DecoderOk :=
  ⟨by show (0#48).toNat < 2 ^ (0#6).toNat; decide, by show (0#6).toNat ≤ 48; decide,
    by show (0#6).toNat ≤ (0#6).toNat; decide, fun _ => ⟨rfl, rfl, rfl⟩, fun _ => rfl⟩

theorem open1_decoderOk : (open1 0x7F 8).DecoderOk :=
  ⟨by decide, by decide, by decide, by decide, by decide⟩

/-- A part that ends at PAY_LEN. -/
theorem witness_PartInRangeAccumulates :
    (open1 0x7F 8).DecoderOk ∧ partLegal 0xFF 2 = true ∧ (open1 0x7F 8).accw.toNat + (FieldPart.mk 10 0xFF 2).pw ≤ 48 ∧
      (FieldPart.mk 10 0xFF 2).offset.toNat + (FieldPart.mk 10 0xFF 2).size.toNat ≤ (open1 0x7F 8).payLen.toNat :=
  ⟨open1_decoderOk, by decide⟩

/-- A part at PAY_LEN, absent, and one that starts on the last byte, straddling. -/
theorem witness_PartOutOfRangeLatches :
    (open1 0x7F 8).DecoderOk ∧ partLegal 0xFF 2 = true ∧ (open1 0x7F 8).accw.toNat + (FieldPart.mk 12 0xFF 2).pw ≤ 48 ∧
      (open1 0x7F 8).payLen.toNat < 12 + 2 ∧ (open1 0x7F 8).payLen.toNat ≤ (FieldPart.mk 12 0xFF 2).offset.toNat ∧
      (open1 0x7F 8).payLen.toNat < 11 + 2 ∧ (FieldPart.mk 11 0xFF 2).offset.toNat < (open1 0x7F 8).payLen.toNat :=
  ⟨open1_decoderOk, by decide⟩

theorem witness_IllFormedPartFaults_size :
    ¬((3#3).toNat = 1 ∨ (3#3).toNat = 2 ∨ (3#3).toNat = 4 ∨ (3#3).toNat = 6) := by decide

/-- A mask with a hole. -/
theorem witness_IllFormedPartFaults_mask :
    (1#3).toNat = 1 ∧ ¬∃ k sh : Nat, 1 ≤ k ∧ sh + k ≤ 8 ∧ (0x50#8).toNat = (2 ^ k - 1) * 2 ^ sh := by
  refine ⟨by decide, ?_⟩
  rintro ⟨k, sh, h1, h2, h3⟩
  have hk : k ≤ 8 := by omega
  have hs : sh ≤ 7 := by omega
  interval_cases k <;> interval_cases sh <;> revert h3 <;> decide

theorem witness_IllFormedPartFaults_wide : ((2#3).toNat = 2 ∨ (2#3).toNat = 4 ∨ (2#3).toNat = 6) ∧ 0x7F#8 ≠ 0xFF#8 := by
  decide

/-- E14: one bit beyond 48. -/
theorem witness_IllFormedPartFaults_overflow :
    partLegal 0x01 1 = true ∧ 48 < (open1 0 48).accw.toNat + (FieldPart.mk 6 0x01 1).pw := by decide

/-! ### Witnesses: FIELD -/

theorem witness_FieldEmitsValue :
    (open1 0x7F 8).DecoderOk ∧ (open1 0x7F 8).par.wf = true ∧ (open1 0x7F 8).nparts ≠ 0#6 ∧ 10#16 ≠ 0#16 ∧
      (open1 0x7F 8).abs = false ∧ (open1 0x7F 8).oobp = false ∧
      (open1 0x7F 8).resCount.toNat < (open1 0x7F 8).par.resCap :=
  ⟨open1_decoderOk, by decide⟩

theorem witness_FieldEmitsAbsent :
    { open1 0 8 with abs := true }.par.wf = true ∧ { open1 0 8 with abs := true }.nparts ≠ 0#6 ∧ 10#16 ≠ 0#16 ∧
      { open1 0 8 with abs := true }.abs = true ∧
      { open1 0 8 with abs := true }.resCount.toNat < { open1 0 8 with abs := true }.par.resCap := by decide

theorem witness_FieldFaults_empty : (busy []).nparts = 0#6 := by decide

theorem witness_FieldFaults_div : (open1 0 8).nparts ≠ 0#6 ∧ (0#16 : BitVec 16) = 0#16 := by decide

theorem witness_FieldFaults_out :
    { open1 0 8 with oobp := true }.nparts ≠ 0#6 ∧ 1#16 ≠ 0#16 ∧ { open1 0 8 with oobp := true }.abs = false ∧
      { open1 0 8 with oobp := true }.oobp = true := by decide

theorem witness_FieldFaults_overflow :
    { open1 0 8 with resCount := 16 }.nparts ≠ 0#6 ∧ 1#16 ≠ 0#16 ∧
      ({ open1 0 8 with resCount := 16 }.abs = true ∨ { open1 0 8 with resCount := 16 }.oobp = false) ∧
      { open1 0 8 with resCount := 16 }.resCount.toNat = { open1 0 8 with resCount := 16 }.par.resCap := by decide

/-- Width 1 and width 48, each at its sign boundary. -/
theorem witness_SignAtComposedWidth :
    (1 ≤ 1 ∧ 1 ≤ 48 ∧ 1 < 2 ^ 1 ∧ 2 ^ (1 - 1) ≤ 1 ∧ 0 < 2 ^ (1 - 1)) ∧
      (1 ≤ 48 ∧ 48 ≤ 48 ∧ 2 ^ 47 < 2 ^ 48 ∧ 2 ^ (48 - 1) ≤ 2 ^ 47 ∧ 2 ^ 47 - 1 < 2 ^ (48 - 1)) := by decide

/-- The extreme values of RAW, and RAW = 0. -/
theorem witness_ScalerIsExact :
    (-(2 ^ 47) ≤ (2 ^ 48 - 1 : Int) ∧ (2 ^ 48 - 1 : Int) ≤ 2 ^ 48 - 1 ∧ 0 < (2 ^ 48 - 1 : Int)) ∧
      (-(2 ^ 47) ≤ (-(2 ^ 47) : Int) ∧ (-(2 ^ 47) : Int) ≤ 2 ^ 48 - 1 ∧ (-(2 ^ 47) : Int) < 0) ∧
      (-(2 ^ 47) ≤ (0 : Int) ∧ (0 : Int) ≤ 2 ^ 48 - 1) ∧ 1#16 ≠ 0#16 := by decide

/-! ### Witnesses: END, RDU, RDI, frames -/

theorem witness_EndFinishes : (busy [0x3000000000000000#64]).nparts = 0#6 := by decide

theorem witness_EndWordAtDpc_reserved :
    (busy [0x3000000000000001#64]).phase = .busy ∧
      (busy [0x3000000000000001#64]).dpc.toNat < (busy [0x3000000000000001#64]).par.descLen ∧
      ((busy [0x3000000000000001#64]).descWord 0).toNat / 2 ^ 60 = 3 ∧
      ((busy [0x3000000000000001#64]).descWord 0).toNat % 2 ^ 60 ≠ 0 := by decide

theorem witness_EndWordAtDpc_open :
    { busy [0x3000000000000000#64] with nparts := 1 }.phase = .busy ∧
      ({ busy [0x3000000000000000#64] with nparts := 1 }.descWord 0).toNat / 2 ^ 60 = 3 ∧
      ({ busy [0x3000000000000000#64] with nparts := 1 }.descWord 0).toNat % 2 ^ 60 = 0 ∧
      { busy [0x3000000000000000#64] with nparts := 1 }.nparts ≠ 0#6 := by decide

theorem witness_EndWordAtDpc_done :
    (busy [0x3000000000000000#64]).phase = .busy ∧
      ((busy [0x3000000000000000#64]).descWord 0).toNat / 2 ^ 60 = 3 ∧
      ((busy [0x3000000000000000#64]).descWord 0).toNat % 2 ^ 60 = 0 ∧
      (busy [0x3000000000000000#64]).nparts = 0#6 := by decide

/-- A read that ends at PAY_LEN, of each size RDU has. -/
theorem witness_RduEmitsUnsigned :
    (busy []).par.wf = true ∧ (busy []).nparts = 0#6 ∧ (busy []).resCount.toNat < (busy []).par.resCap ∧
      ∀ z ∈ [1#3, 2#3, 4#3, 6#3], (z.toNat = 1 ∨ z.toNat = 2 ∨ z.toNat = 4 ∨ z.toNat = 6) ∧
        (BitVec.ofNat 32 (12 - z.toNat)).toNat + z.toNat ≤ (busy []).payLen.toNat := by decide

theorem witness_RdiEmitsSigned :
    (busy []).par.wf = true ∧ (busy []).nparts = 0#6 ∧ (busy []).resCount.toNat < (busy []).par.resCap ∧
      ∀ z ∈ [1#3, 2#3, 4#3, 6#3], (z.toNat = 1 ∨ z.toNat = 2 ∨ z.toNat = 4 ∨ z.toNat = 6) ∧
        (BitVec.ofNat 32 (12 - z.toNat)).toNat + z.toNat ≤ (busy []).payLen.toNat := by decide

theorem witness_ReadAndEndFaults_size : sizeLegal 7 = false := by decide

theorem witness_ReadAndEndFaults_open : (open1 0 8).nparts ≠ 0#6 ∧ sizeLegal 6 = true := by decide

theorem witness_ReadAndEndFaults_out :
    sizeLegal 6 = true ∧ (busy []).nparts = 0#6 ∧ (busy []).payLen.toNat < (7#32).toNat + (6#3).toNat := by decide

theorem witness_ReadAndEndFaults_overflow :
    sizeLegal 6 = true ∧ { busy [] with resCount := 16 }.nparts = 0#6 ∧
      (6#32).toNat + (6#3).toNat ≤ { busy [] with resCount := 16 }.payLen.toNat ∧
      { busy [] with resCount := 16 }.resCount.toNat = { busy [] with resCount := 16 }.par.resCap := by decide

theorem witness_WordFrame : ∃ t, exec (.rdu 1 0 2) (busy []) = .next t ∧ t.phase ≠ .fault :=
  ⟨_, rfl, by decide⟩

/-- A FIELD whose group straddles. -/
theorem witness_FaultsArePrecise :
    { open1 0 16 with oobp := true }.phase ≠ .fault ∧
      ∃ t, exec (.field 1 false 1 1) { open1 0 16 with oobp := true } = .next t ∧ t.phase = .fault :=
  ⟨by decide, _, rfl, by decide⟩

/-! ### Witnesses: the Byte Reader and composition -/

/-- Buffer B of 95_test_vectors.md. -/
def bufB (a : Nat) : Byte :=
  match a with
  | 4 => 0x80
  | 5 => 0x7F
  | _ => 0xFF

/-- Reads of buffer B: readUInt(B,5,1) ends at len, readUInt(B,3,2) = 33023, readUInt(B,0,6). -/
theorem test_read_uint :
    readUInt bufB 6 5 1 = some 127 ∧ readUInt bufB 6 3 2 = some 33023 ∧ readUInt bufB 6 0 6 = some 140192027508735 ∧
      readUInt bufB 6 6 1 = none ∧ readUInt bufB 6 4294967295 6 = none := by decide

/-- readInt(B,4,1) = -128, readInt(B,3,2) = -32513, readInt(B,0,4) = 4294967295. -/
theorem test_read_int :
    readInt bufB 6 4 1 = some (-128) ∧ readInt bufB 6 3 2 = some (-32513) ∧ readInt bufB 6 0 4 = some 4294967295 ∧
      readInt bufB 6 3 4 = none := by decide

theorem witness_ReadUIntIsLittleEndian : (6 = 1 ∨ 6 = 2 ∨ 6 = 4 ∨ 6 = 6) ∧ 0 + 6 ≤ 6 ∧ 4 + 2 ≤ 6 := by decide

/-- An empty buffer, an offset at the end, one byte too many, and an exact fit. -/
theorem witness_ReadOutOfBounds :
    (2 = 1 ∨ 2 = 2 ∨ 2 = 4 ∨ 2 = 6) ∧ (0 < 2 ∨ 0 ≤ 0) ∧ (6 < 2 ∨ 6 ≤ 6) ∧ 6 < 5 + 2 ∧ 4 + 2 = 6 := by decide

/-- The sign boundaries at 8 and 16 bits, and a 32-bit read. -/
theorem witness_ReadIntSignRule :
    readUInt bufB 6 4 1 = some 128 ∧ readUInt bufB 6 5 1 = some 127 ∧ readUInt bufB 6 3 2 = some 33023 ∧
      readUInt bufB 6 4 2 = some 32640 ∧ readUInt bufB 6 0 4 = some 4294967295 := by decide

theorem witness_ByteReaderLaws :
    readUInt bufB 6 4 2 = some 32640 ∧ readUInt bufB 6 2 4 = some 2139160575 ∧
      readUInt bufB 6 0 6 = some 140192027508735 ∧ readInt bufB 6 0 1 = some (-1) ∧ readUInt bufB 6 0 1 = some 255 ∧
      readUInt bufB 6 6 1 = none ∧ (bufB (5 + 1 - 1)).toNat < 128 := by decide

/-- Two nibbles (P2 words 10 and 11), a whole part, and the topmost pair of byte offsets. -/
theorem witness_CompositionIsBitwise :
    (∀ q ∈ [FieldPart.mk 2 0xF0 1, FieldPart.mk 3 0x0F 1], partLegal q.mask q.size = true) ∧ sizeLegal 6 = true ∧
      (0xFFFFFFFE#32).toNat + 1 < 2 ^ 32 := by decide

/-- F13's field: bits 2 and 3 of byte 0x0B hold the two bits of -2. -/
theorem witness_FieldRoundTrip :
    FieldSpec.wf ⟨[⟨1, 0x0C, 1⟩], true, 1, 1, 1⟩ = true ∧ -(2 ^ (2 - 1)) ≤ (-2 : Int) ∧ (-2 : Int) < 2 ^ (2 - 1) ∧
      composedWidth [⟨1, 0x0C, 1⟩] = 2 ∧
      ((FieldPart.mk 1 0x0C 1).pv (busy []).payByte : Int) = -2 / 2 ^ composedWidth [] % 2 ^ (FieldPart.mk 1 0x0C 1).pw := by
  decide

/-! ### Witnesses: field groups, lists, DECODE -/

/-- A two-part field: bytes 0 and 1 of the payload (F17). -/
def spec17 : FieldSpec := ⟨[⟨0, 0xFF, 1⟩, ⟨1, 0xFF, 1⟩], false, 1, 1, 1⟩

/-- A field with a straddling part and an absent part (P2 words 15 to 17, here for PAY_LEN = 12). -/
def specAbsent : FieldSpec := ⟨[⟨11, 0xFF, 2⟩, ⟨12, 0xFF, 1⟩], false, 1, 1, 1⟩

/-- A field whose second part straddles. -/
def specOut : FieldSpec := ⟨[⟨10, 0xFF, 2⟩, ⟨11, 0xFF, 2⟩], false, 1, 1, 1⟩

def running (l : List Instr) : State := busy (l.map encode)

theorem busy_groupClosed (words : List Word) : (busy words).groupClosed := ⟨rfl, rfl, rfl, rfl, rfl, rfl⟩

theorem witness_FieldGroupEmitsComposedValue :
    spec17.wf = true ∧ (running spec17.group).phase = .busy ∧ (running spec17.group).groupClosed ∧
      (running spec17.group).par.wf = true ∧ (running spec17.group).holdsList 0 spec17.group ∧
      (running spec17.group).resCount.toNat < (running spec17.group).par.resCap ∧
      ∀ p ∈ spec17.parts, p.offset.toNat + p.size.toNat ≤ (running spec17.group).payLen.toNat := by
  refine ⟨by decide, rfl, busy_groupClosed _, by decide, ?_, by decide, by decide⟩
  unfold State.holdsList
  decide

theorem witness_FieldGroupAbsent :
    specAbsent.wf = true ∧ (running specAbsent.group).phase = .busy ∧ (running specAbsent.group).groupClosed ∧
      (running specAbsent.group).par.wf = true ∧ (running specAbsent.group).holdsList 0 specAbsent.group ∧
      (running specAbsent.group).resCount.toNat < (running specAbsent.group).par.resCap ∧
      ∃ p ∈ specAbsent.parts, (running specAbsent.group).payLen.toNat ≤ p.offset.toNat := by
  refine ⟨by decide, rfl, busy_groupClosed _, by decide, ?_, by decide, by decide⟩
  unfold State.holdsList
  decide

theorem witness_FieldGroupStraddles :
    specOut.wf = true ∧ (running specOut.group).phase = .busy ∧ (running specOut.group).groupClosed ∧
      (running specOut.group).par.wf = true ∧ (running specOut.group).holdsList 0 specOut.group ∧
      (∀ p ∈ specOut.parts, p.offset.toNat < (running specOut.group).payLen.toNat) ∧
      (running specOut.group).payLen.toNat < (FieldPart.mk 11 0xFF 2).offset.toNat + (FieldPart.mk 11 0xFF 2).size.toNat ∧
      specOut.parts[1]? = some (FieldPart.mk 11 0xFF 2) ∧
      ∀ p ∈ specOut.parts.take 1, p.offset.toNat + p.size.toNat ≤ (running specOut.group).payLen.toNat := by
  refine ⟨by decide, rfl, busy_groupClosed _, by decide, ?_, by decide, by decide, by decide, by decide⟩
  unfold State.holdsList
  decide

/-- A well-formed list whose DECODE ends in OutOfBounds. -/
theorem witness_WellFormedListNoDescriptorError :
    listWf [.rdu 1 11 2, .endList] = true ∧ (running [.rdu 1 11 2, .endList]).phase = .busy ∧
      (running [.rdu 1 11 2, .endList]).groupClosed ∧ (running [.rdu 1 11 2, .endList]).par.wf = true ∧
      (running [.rdu 1 11 2, .endList]).host = [] ∧
      (running [.rdu 1 11 2, .endList]).holdsList 0 [.rdu 1 11 2, .endList] ∧
      ∃ t, core.run 1 (running [.rdu 1 11 2, .endList]) = .next t ∧ t.phase = .fault := by
  refine ⟨by decide, rfl, busy_groupClosed _, by decide, rfl, ?_, _, rfl, by decide⟩
  unfold State.holdsList
  decide

/-- Inside DESC, and at its end. -/
theorem witness_EveryDecodeEnds :
    ((busy []).phase = .busy ∧ (busy []).par.wf = true) ∧ { busy [] with dpc := 32 }.phase = .busy ∧
      { busy [] with dpc := 32 }.par.wf = true ∧
      { busy [] with dpc := 32 }.par.descLen ≤ { busy [] with dpc := 32 }.dpc.toNat := by decide

/-- An assembled packet, the host about to write `c` to CMD. -/
def assembled (c : BitVec 32) : State :=
  { busy [0x3000000000000000#64] with phase := .assembled, host := [.writeReg 0 c] }

theorem witness_AtomicDecodeIsRunOfSteps :
    ((assembled 2).phase = .assembled ∨ (assembled 2).phase = .done) ∧ (assembled 2).par.wf = true ∧
      (assembled 2).host = .writeReg 0 2 :: [] := by decide

/-- Another past, other parameters the DECODE does not read, and another word beyond its END. -/
def assembledAlike : State :=
  { assembled 2 with
    par := ⟨0xAB, true, 32, 32, 16⟩, dst := 7, status := 4, hck := 1, errCode := 9
    desc := [(0, 0x3000000000000000#64), (1, 7#64)] }

/-- The list's END is at index 0, so only that word has to agree. -/
theorem witness_DecodeReadsPayloadAlone :
    (assembled 2).par.descLen = assembledAlike.par.descLen ∧ (assembled 2).par.resCap = assembledAlike.par.resCap ∧
      (assembled 2).par.wf = true ∧ (assembled 2).descBase = assembledAlike.descBase ∧
      (assembled 2).payLen = assembledAlike.payLen ∧
      (∀ i, (assembled 2).descBase.toNat ≤ i → i ≤ (decodeCommand (assembled 2)).dpc.toNat →
        i < (assembled 2).par.descLen → (assembled 2).descWord i = assembledAlike.descWord i) ∧
      (∀ a, a < (assembled 2).payLen.toNat → (assembled 2).payByte a = assembledAlike.payByte a) ∧
      (decodeCommand (assembled 2)).phase ≠ .fault ∧ (assembled 2).dst ≠ assembledAlike.dst := by
  refine ⟨rfl, rfl, by decide, rfl, rfl, fun i _ hi _ => ?_, fun _ _ => rfl, by decide, by decide⟩
  have hd : (decodeCommand (assembled 2)).dpc.toNat = 0 := by decide
  have h0 : i = 0 := by omega
  subst h0
  rfl

/-- The same with an illegal word at index 0, so that the DECODE faults. -/
theorem witness_DecodeReadsPayloadAlone_fault :
    (decodeCommand { assembled 2 with desc := [(0, 0#64)] }).phase = .fault ∧
      (decodeCommand { assembled 2 with desc := [(0, 0#64)] }).dpc = 0#32 := by decide

/-! ### Witnesses: ASSEMBLE -/

/-- A8's window. -/
theorem witness_AssembleFaults_window :
    (window 50 gBytes).par.rawSize < (window 50 gBytes).rawBase.toNat + (window 50 gBytes).rawLen.toNat := by decide

/-- A1. -/
theorem witness_AssembleFaults_empty :
    (window 64 []).rawBase.toNat + (window 64 []).rawLen.toNat ≤ (window 64 []).par.rawSize ∧
      (window 64 []).rawLen = 0#32 := by decide

/-- A11: bad synchronization and short. -/
theorem witness_AssembleFaults_sync :
    (window 62 [0x00, 0x01]).rawBase.toNat + (window 62 [0x00, 0x01]).rawLen.toNat ≤ (window 62 [0x00, 0x01]).par.rawSize ∧
      (window 62 [0x00, 0x01]).rawLen ≠ 0#32 ∧
      (window 62 [0x00, 0x01]).rawAt 0 ≠ (window 62 [0x00, 0x01]).par.syncByte := by decide

/-- A4: 8 bytes. -/
theorem witness_AssembleFaults_short :
    (window 0 (gBytes.take 8)).rawBase.toNat + (window 0 (gBytes.take 8)).rawLen.toNat ≤
        (window 0 (gBytes.take 8)).par.rawSize ∧
      (window 0 (gBytes.take 8)).rawLen ≠ 0#32 ∧
      (window 0 (gBytes.take 8)).rawAt 0 = (window 0 (gBytes.take 8)).par.syncByte ∧
      (window 0 (gBytes.take 8)).rawLen.toNat < 9 := by decide

/-- A6 and A5: 9 and 16 bytes of 17. -/
theorem witness_AssembleFaults_truncated :
    ∀ n ∈ [9, 16],
      (window 0 (gBytes.take n)).rawBase.toNat + (window 0 (gBytes.take n)).rawLen.toNat ≤
          (window 0 (gBytes.take n)).par.rawSize ∧
        (window 0 (gBytes.take n)).rawAt 0 = (window 0 (gBytes.take n)).par.syncByte ∧
        9 ≤ (window 0 (gBytes.take n)).rawLen.toNat ∧
        (window 0 (gBytes.take n)).rawLen.toNat <
          9 + 4 * ((window 0 (gBytes.take n)).rawAt 7).toNat +
            (if (window 0 (gBytes.take n)).par.hasTrailer = true then 1 else 0) := by decide

/-- A9: the window ends at RAW_SIZE, and the packet at the window's end. -/
theorem witness_AssembleDeframes :
    (window 47 gBytes).rawBase.toNat + (window 47 gBytes).rawLen.toNat ≤ (window 47 gBytes).par.rawSize ∧
      (window 47 gBytes).rawAt 0 = (window 47 gBytes).par.syncByte ∧
      9 + 4 * ((window 47 gBytes).rawAt 7).toNat + (if (window 47 gBytes).par.hasTrailer = true then 1 else 0) ≤
        (window 47 gBytes).rawLen.toNat := by decide

/-- G and G with bit 3 of byte 16, the checksum of frame 1, inverted. -/
theorem witness_FlippedBitFailsFrame :
    (assembleWith cks (window 0 gBytes)).phase = .assembled ∧
      (assembleWith cks { window 0 gBytes with raw := (window 0 gBytes).raw.set 16 0xF4 }).phase = .assembled ∧
      1 < (assembleWith cks (window 0 gBytes)).nfr.toNat ∧
      { window 0 gBytes with raw := (window 0 gBytes).raw.set 16 0xF4 }.rawAt (9 + 4 * 1 + 3) =
        (window 0 gBytes).rawAt (9 + 4 * 1 + 3) ^^^ (1#8 <<< 3) ∧
      (∀ m, m ≠ 9 + 4 * 1 + 3 →
        { window 0 gBytes with raw := (window 0 gBytes).raw.set 16 0xF4 }.rawAt m = (window 0 gBytes).rawAt m) ∧
      (assembleWith cks (window 0 gBytes)).ferr.getLsbD 1 = false := by
  refine ⟨by decide, by decide, by decide, by decide, fun m hm => ?_, by decide⟩
  have hb : (window 0 gBytes).rawBase.toNat = 0 := by decide
  simp only [State.rawAt, State.rawByte, hb]
  rw [Memory.get?_set_of_ne _ _ (by omega)]

/-- The same window in a fresh state and in one with another past. -/
theorem witness_AssembleForgetsThePast :
    (window 0 gBytes).par = { window 0 gBytes with phase := .fault, errCode := 9, status := 7 }.par ∧
      (window 0 gBytes).rawBase = { window 0 gBytes with phase := .fault, errCode := 9, status := 7 }.rawBase ∧
      (window 0 gBytes).rawLen = { window 0 gBytes with phase := .fault, errCode := 9, status := 7 }.rawLen ∧
      (∀ k, k < (window 0 gBytes).rawLen.toNat →
        (window 0 gBytes).rawAt k = { window 0 gBytes with phase := .fault, errCode := 9, status := 7 }.rawAt k) :=
  ⟨rfl, rfl, rfl, fun _ _ => rfl⟩

/-! ### Witnesses: host moves -/

/-- H3: CMD = 7 in FAULT. -/
theorem witness_RejectedCommands_fault :
    { assembled 7 with phase := .fault }.host = .writeReg 0 7 :: [] ∧ 7#32 ≠ 1#32 ∧ 7#32 ≠ 4#32 ∧
      { assembled 7 with phase := .fault }.phase = .fault := by decide

/-- H5 and H7: CMD = 0 in IDLE, CMD = 5 in ASSEMBLED. -/
theorem witness_RejectedCommands_unknown :
    { start with host := [.writeReg 0 0] }.phase = .idle ∧ 0#32 ≠ 1#32 ∧ 0#32 ≠ 4#32 ∧ 0#32 ≠ 2#32 ∧ 0#32 ≠ 3#32 ∧
      (assembled 5).host = .writeReg 0 5 :: [] ∧ (assembled 5).phase = .assembled ∧ 5#32 ≠ 1#32 ∧ 5#32 ≠ 4#32 := by decide

/-- H1: CMD = 2 in IDLE. -/
theorem witness_RejectedCommands_phase :
    { start with host := [.writeReg 0 2] }.host = .writeReg 0 2 :: [] ∧ 2#32 ≠ 1#32 ∧ 2#32 ≠ 4#32 ∧
      { start with host := [.writeReg 0 2] }.phase = .idle ∧ (2#32 = 2#32 ∨ 2#32 = 3#32) := by decide

theorem witness_AcceptedCommands :
    ((assembled 1).phase ≠ .busy ∧ (assembled 1).host = .writeReg 0 1 :: []) ∧
      ((assembled 4).phase ≠ .busy ∧ (assembled 4).host = .writeReg 0 4 :: []) ∧
      ((assembled 2).phase ≠ .busy ∧ ((assembled 2).phase = .assembled ∨ (assembled 2).phase = .done) ∧
        (assembled 2).host = .writeReg 0 2 :: []) := by decide

theorem witness_SkipReportsNotFound :
    ((assembled 3).phase = .assembled ∨ (assembled 3).phase = .done) ∧ (assembled 3).host = .writeReg 0 3 :: [] := by
  decide

/-- One number of each clause: RAW_BASE, RAW_LEN, DESC_BASE, and STATUS, which is read-only. -/
theorem witness_HostRegisterWrites :
    ∀ n ∈ [0x05, 0x06, 0x07, 0x02],
      { start with host := [.writeReg n 9] }.phase ≠ .busy ∧
        { start with host := [.writeReg n 9] }.host = .writeReg n 9 :: [] := by decide

/-- The last address of each space, and the first that is none. -/
theorem witness_HostMemoryWrites :
    start.phase ≠ .busy ∧ 63 < start.par.rawSize ∧ start.par.rawSize ≤ 64 ∧ 31 < start.par.descLen ∧
      start.par.descLen ≤ 32 ∧ { start with host := [.writeRaw 63 1] }.host = .writeRaw 63 1 :: [] ∧
      { start with host := [.writeDesc 31 1] }.host = .writeDesc 31 1 :: [] := by decide

/-- DONE with one record, the host reading PAY and RES. -/
def doneOne : State :=
  { busy [] with phase := .done, resCount := 1, res := [(0, readRecord 1 1 127)] }

theorem doneOne_resultOk : doneOne.ResultOk where
  records := fun i h => by
    have h0 : i = 0 := by
      have : doneOne.resCount.toNat = 1 := by decide
      omega
    subst h0
    exact ⟨readRecord 1 1 127, rfl, by
      refine ⟨?_, ?_, ?_, ?_, ?_, ?_, ?_, ?_, ?_, ?_⟩ <;> decide⟩
  absentFlag := fun _ => by
    refine ⟨fun h => absurd h (by decide), fun ⟨i, r, hi, hr, ha⟩ => ?_⟩
    have h0 : i = 0 := by
      have : doneOne.resCount.toNat = 1 := by decide
      omega
    subst h0
    have e : r = readRecord 1 1 127 := (Option.some.inj hr).symm
    subst e
    cases ha

/-- One state for each code of PHASE; the last byte and the last record that are readable and the first that are not;
a phase in which neither is. -/
theorem witness_HostRegisterReads :
    (start.phase = .idle ∧ (assembled 2).phase = .assembled ∧ doneOne.phase = .done ∧
      { start with phase := .fault }.phase = .fault ∧ (busy []).phase = .busy) ∧
      (11 < doneOne.payLen.toNat ∧ doneOne.payLen.toNat ≤ 12 ∧ 0 < doneOne.resCount.toNat ∧
        doneOne.resCount.toNat ≤ 1) ∧
      (start.phase ≠ .assembled ∧ start.phase ≠ .done) ∧ doneOne.ResultOk :=
  ⟨by decide, by decide, by decide, doneOne_resultOk⟩

/-- PHASE reads as R18's codes, and the host reads the record and no more (R144). -/
theorem test_host_reads :
    start.readReg 0x01 = 0#32 ∧ (assembled 2).readReg 0x01 = 1#32 ∧ doneOne.readReg 0x01 = 2#32 ∧
      { start with phase := .fault }.readReg 0x01 = 3#32 ∧ (busy []).readReg 0x01 = 4#32 ∧
      doneOne.hostReadRes 0 = some (readRecord 1 1 127) ∧ doneOne.hostReadRes 1 = none ∧
      doneOne.hostReadPay 1 = some 0x0B#8 ∧ (busy []).hostReadPay 1 = none := by decide

theorem witness_HostWaitsForCommands :
    (∃ t, { busy [0x3000000000000000#64] with host := [.consult] }.phase = .busy ∧
      step { busy [0x3000000000000000#64] with host := [.consult] } = .next t) ∧
      start.phase ≠ .busy ∧ start.host = [] :=
  ⟨⟨_, rfl, rfl⟩, by decide⟩

/-- CLEAR in FAULT. -/
theorem witness_FaultIsLeftOnlyByClearing :
    ∃ t, { assembled 4 with phase := .fault }.phase = .fault ∧
      step { assembled 4 with phase := .fault } = .next t ∧ t.phase ≠ .fault :=
  ⟨_, rfl, rfl, by decide⟩

/-- A RUN that fails (A1) and one that succeeds with a registry miss. -/
theorem witness_RunFailsOrSucceedsWhole :
    start.par.wf = true ∧ (runWith cks (fun _ _ _ => none) 0 0 start).1.phase = .fault ∧
      (runWith cks (fun _ _ _ => none) 0 17 (window 0 gBytes)).1.phase = .done := by decide

theorem witness_ResetDiffersFromClear :
    start.phase ≠ .busy ∧ (∃ t, step { start with host := [.reset] } = .next t) ∧
      ∃ u, step { start with host := [.writeReg 0 4] } = .next u :=
  ⟨by decide, ⟨_, rfl⟩, ⟨_, rfl⟩⟩

/-! ### Witnesses: invariants -/

/-- A DECODE in progress, a field group open with an absent part, a FIELD word to come. -/
def mid : State :=
  { open1 0 8 with abs := true, desc := [(1, 0x2000000100010001#64)] }

theorem mid_inv : mid.Inv where
  memory := ⟨by decide, by decide, by decide, by decide, by decide, by decide⟩
  decoder := ⟨by decide, by decide, by decide, by decide, by decide⟩
  faultRecord := ⟨by decide, by decide, by decide, by decide⟩
  packet :=
    { len := by decide
      assembled := by decide
      idle := by decide
      listed := by decide
      ferrHigh := fun i _ => by simp [mid, open1, busy, start, State.reset]
      ferrCount := by
        symm
        show _ = 0
        rw [List.countP_eq_zero]
        intro i _
        simp [mid, open1, busy, start, State.reset]
      fck := by decide
      reserved := by decide
      trailer := by decide
      notFound := by decide }
  result :=
    { records := fun i h => absurd h (by simp [mid, open1, busy, start, State.reset])
      absentFlag := fun _ => by simp [State.flag, mid, open1, busy, start, State.reset] }

/-- The state meets every invariant, and a step takes it to a state with an ABSENT record. -/
theorem witness_StepKeepsInvariants :
    mid.Inv ∧ ∃ t, step mid = .next t ∧ t.resCount = 1#17 ∧ t.flag .absent = true :=
  ⟨mid_inv, _, rfl, by decide, by decide⟩

end Sys2Proof.Tests
end

namespace Sys2Proof.Machine

/-! ### The spaces of a state under its operations (R28, R30 to R33) -/

section MemoryOk

variable {s t : State}

/-- `MemoryOk` reads the parameters, the four spaces and RES_COUNT alone, and RES_COUNT may fall. -/
theorem State.MemoryOk.of_same_spaces (h : s.MemoryOk) (hpar : t.par = s.par) (hraw : t.raw = s.raw)
    (hpay : t.pay = s.pay) (hdesc : t.desc = s.desc) (hres : t.res = s.res)
    (hcount : t.resCount.toNat ≤ s.resCount.toNat) : t.MemoryOk where
  par := by rw [hpar]; exact h.par
  raw := by rw [hpar, hraw]; exact h.raw
  pay := by rw [hpay]; exact h.pay
  desc := by rw [hpar, hdesc]; exact h.desc
  res := by rw [hpar, hres]; exact h.res
  count := by rw [hpar]; exact hcount.trans h.count

theorem State.MemoryOk.raise (h : s.MemoryOk) (r : Raise) : (s.raise r).MemoryOk :=
  h.of_same_spaces rfl rfl rfl rfl rfl (Nat.zero_le _)

theorem State.MemoryOk.clearPacket (h : s.MemoryOk) : s.clearPacket.MemoryOk :=
  h.of_same_spaces rfl rfl rfl rfl rfl (Nat.zero_le _)

/-- Emitting while RES is not full stores inside RES, and RES_COUNT does not wrap: RES_CAP is at most 2^16 (R11, R28). -/
theorem State.MemoryOk.append (h : s.MemoryOk) (hne : s.resCount.toNat ≠ s.par.resCap) (r : Record) :
    (s.append r).MemoryOk := by
  have hlt : s.resCount.toNat < s.par.resCap := Nat.lt_of_le_of_ne h.count hne
  have hcap : s.par.resCap ≤ 2 ^ 16 := by
    have hpar := h.par
    simp only [Params.wf, decide_eq_true_eq] at hpar
    omega
  have hcount : (s.resCount + 1).toNat = s.resCount.toNat + 1 := by bv_omega
  exact { h with
    res := Memory.wf_set r hlt h.res
    count := hcount.trans_le hlt }

/-! ### ASSEMBLE -/

/-- At most 255 frames of three bytes each fit in PAY (R31, R96). -/
theorem State.takeFrames_pay_wf (ck : Checks) {n : Nat} (hn : n ≤ Config.maxFrames)
    (h : s.pay.wf Config.payMax = true) : (State.takeFrames ck n s).pay.wf Config.payMax = true := by
  induction n with
  | zero => exact h
  | succ n ih =>
    rw [State.takeFrames_succ, State.takeFrame_pay]
    have hpay := ih (by omega)
    have hroom : 3 * n + 2 < Config.payMax := by
      simp only [Config.maxFrames] at hn
      simp only [Config.payMax]
      omega
    exact Memory.wf_set _ (by omega) (Memory.wf_set _ (by omega) (Memory.wf_set _ (by omega) hpay))

theorem State.MemoryOk.takeFrames (h : s.MemoryOk) (ck : Checks) {n : Nat} (hn : n ≤ Config.maxFrames) :
    (State.takeFrames ck n s).MemoryOk where
  par := by simpa using h.par
  raw := by simpa using h.raw
  pay := State.takeFrames_pay_wf ck hn h.pay
  desc := by simpa using h.desc
  res := by simpa using h.res
  count := by simpa using h.count

/-- The state steps S0, S5 and S6 leave, from which the frames are taken. -/
theorem State.MemoryOk.latchedHeader (h : s.MemoryOk) (ck : Checks) :
    (s.clearPacket.latchHeader.checkHeader ck).MemoryOk :=
  h.clearPacket.of_same_spaces (by simp) (by simp) (by simp) (by simp) (by simp) (by simp)

theorem State.MemoryOk.assembleWith (h : s.MemoryOk) (ck : Checks) : (assembleWith ck s).MemoryOk := by
  rcases assembleWith_cases ck s with ⟨hwindow, hsync, hneed⟩ | ⟨r, hfault, -⟩ | ⟨-, -, -, -, hfault⟩
  · rw [assembleWith_of_packet hwindow hsync hneed]
    have hframes := (h.latchedHeader ck).takeFrames ck (Nat.le_of_lt_succ (s.rawAt 7).isLt)
    exact hframes.of_same_spaces (by simp) (by simp) (by simp) (by simp) (by simp) (by simp)
  · rw [hfault]
    exact h.clearPacket.raise r
  · rw [hfault]
    exact (h.latchedHeader ck).raise _

/-! ### Commands, host moves and descriptor words -/

theorem State.MemoryOk.of_cmdWrite {c : BitVec 32} (h : s.MemoryOk) (hc : cmdWrite c s = .next t) : t.MemoryOk := by
  obtain ⟨-, ⟨-, rfl⟩ | ⟨-, rfl⟩ | ⟨-, rfl⟩ | ⟨-, rfl⟩ | ⟨-, -, rfl⟩ | ⟨-, -, rfl⟩⟩ := cmdWrite_cases hc
  · exact h.assembleWith Config.checks
  · exact h.of_same_spaces rfl rfl rfl rfl rfl (Nat.zero_le _)
  · exact h
  · exact h.raise _
  · exact h.of_same_spaces rfl rfl rfl rfl rfl (Nat.zero_le _)
  · exact h.of_same_spaces rfl rfl rfl rfl rfl (Nat.zero_le _)

theorem State.MemoryOk.applyReset (h : s.MemoryOk) : (applyReset s).MemoryOk :=
  { h with
    pay := Memory.wf_nil _
    res := Memory.wf_nil _
    count := Nat.zero_le _ }

theorem State.MemoryOk.of_hostMove {m : HostMove} (h : s.MemoryOk) (hm : hostMove m s = .next t) : t.MemoryOk := by
  obtain ⟨-, rfl | ⟨v, rfl⟩ | ⟨v, rfl⟩ | ⟨v, rfl⟩ | ⟨a, v, ha, rfl⟩ | ⟨i, w, hi, rfl⟩ | rfl | ⟨c, -, hc⟩ |
    ⟨-, -, hmiss | ⟨base, hhit⟩⟩⟩ := hostMove_cases hm
  · exact h
  · exact { h with }
  · exact { h with }
  · exact { h with }
  · exact { h with raw := Memory.wf_set v ha h.raw }
  · exact { h with desc := Memory.wf_set w hi h.desc }
  · exact h.applyReset
  · exact h.of_cmdWrite hc
  · exact h.of_cmdWrite hmiss
  · have hbase : { s with descBase := base }.MemoryOk := { h with }
    exact hbase.of_cmdWrite hhit

theorem State.MemoryOk.of_readWord {tag : BitVec 16} {size : BitVec 3} {v : Option Int} (h : s.MemoryOk)
    (hr : readWord tag size v s = .ok t) : t.MemoryOk := by
  obtain ⟨-, -, hne, x, -, rfl⟩ := readWord_ok hr
  exact (h.append hne _).of_same_spaces rfl rfl rfl rfl rfl le_rfl

/-- A descriptor word writes no space but RES, and that through `append` on a RES that is not full (R128). -/
theorem State.MemoryOk.of_wordEffect {i : Instr} (h : s.MemoryOk) (hi : wordEffect i s = .ok t) : t.MemoryOk := by
  cases i with
  | part offset mask size =>
    obtain ⟨-, -, -, -, rfl⟩ := partWord_ok hi
    exact h.of_same_spaces (by simp) (by simp) (by simp) (by simp) (by simp) (by simp)
  | field tag signed mul div =>
    obtain ⟨-, -, hne, ⟨-, rfl⟩ | ⟨-, -, rfl⟩⟩ := fieldWord_ok hi
    · exact (h.append hne _).of_same_spaces rfl rfl rfl rfl rfl le_rfl
    · exact (h.append hne _).of_same_spaces rfl rfl rfl rfl rfl le_rfl
  | endList =>
    obtain ⟨-, rfl⟩ := endWord_ok hi
    exact { h with }
  | rdu tag offset size => exact h.of_readWord hi
  | rdi tag offset size => exact h.of_readWord hi

theorem State.MemoryOk.of_decodeStep (h : s.MemoryOk) (hd : decodeStep s = .next t) : t.MemoryOk := by
  obtain ⟨r, rfl⟩ | ⟨i, -, -, hexec⟩ := decodeStep_cases hd
  · exact h.raise r
  · obtain ⟨r, -, rfl⟩ | hok := exec_cases hexec
    · exact h.raise r
    · exact h.of_wordEffect hok

theorem State.MemoryOk.of_step (h : s.MemoryOk) (hs : step s = .next t) : t.MemoryOk := by
  obtain ⟨-, hd⟩ | ⟨-, -, rfl⟩ | ⟨m, rest, -, -, hm⟩ := step_cases hs
  · exact h.of_decodeStep hd
  · exact h
  · have hrest : { s with host := rest }.MemoryOk := { h with }
    exact hrest.of_hostMove hm

end MemoryOk

/-- Settles O55: a space is written inside its size alone, PAY by at most 255 frames of ASSEMBLE, RES below RES_CAP. -/
theorem stepKeepsMemoryOk : Obligations.StepKeepsMemoryOk := by
  unfold Obligations.StepKeepsMemoryOk
  intro s t h hs
  exact h.of_step hs

/-! ### The state after reset (R35, R169) -/

/-- The configured parameters are in the ranges of R11: each size is a word plus 1. -/
theorem params_wf : Config.params.wf = true := by
  have hraw := Config.rawSizeLess1.isLt
  have hdesc := Config.descLenLess1.isLt
  have hres := Config.resCapLess1.isLt
  refine decide_eq_true ?_
  simp only [Config.params]
  omega

/-- Every register number of the map reads 0 after reset. -/
theorem readReg_reset {n : Nat} (hn : n ≤ 0x17) : State.reset.readReg n = 0#32 := by
  have hall : ∀ k : Fin 0x18, State.reset.readReg k = 0#32 := by decide
  exact hall ⟨n, by omega⟩

/-- Settles O52, from the literals of the reset state and the ranges of the configured parameters. -/
theorem resetRegisters : Obligations.ResetRegisters := by
  unfold Obligations.ResetRegisters
  refine ⟨rfl, fun _ => readReg_reset, fun _ => BitVec.getLsbD_zero, ?_, rfl, rfl, params_wf⟩
  exact ⟨rfl, rfl, rfl, rfl, rfl, rfl⟩

end Sys2Proof.Machine

namespace Sys2Proof.Machine

/-! ### What a descriptor word raises (R68, R148, R156, R160) -/

/-- The faults a descriptor word of `s` can raise, each with its sub-code and its ERR_INFO. -/
inductive WordRaise (s : State) : Raise → Prop
  | descriptor (sub : BitVec 8) (hlo : 1 ≤ sub.toNat) (hhi : sub.toNat ≤ 10) : WordRaise s (descriptorError sub s)
  | outOfBounds : WordRaise s ⟨.outOfBounds, 0, s.dpc⟩
  | straddles (h : s.oobp = true) : WordRaise s ⟨.outOfBounds, 0, s.oobDpc⟩
  | resultOverflow : WordRaise s ⟨.resultOverflow, 0, s.dpc⟩

section WordRaise

variable {s t : State} {r : Raise}

theorem wordRaise_of_fetch (h : fetch s = .error r) : WordRaise s r := by
  unfold fetch at h
  split at h
  · cases h
    exact .descriptor 10 (by decide) (by decide)
  · cases h

theorem wordRaise_of_decodeReject (s : State) (e : DecodeReject) : WordRaise s (descriptorError e.sub s) := by
  cases e with
  | illegalOp => exact .descriptor 1 (by decide) (by decide)
  | reservedBits => exact .descriptor 2 (by decide) (by decide)

theorem wordRaise_of_emit {rec : Record} (h : emit rec s = .error r) : WordRaise s r := by
  obtain ⟨-, rfl⟩ := emit_error h
  exact .resultOverflow

theorem wordRaise_of_partWord {offset : BitVec 32} {mask : BitVec 8} {size : BitVec 3}
    (h : partWord offset mask size s = .error r) : WordRaise s r := by
  unfold partWord at h
  split at h
  · cases h; exact .descriptor 3 (by decide) (by decide)
  split at h
  · cases h; exact .descriptor 4 (by decide) (by decide)
  split at h
  · cases h; exact .descriptor 5 (by decide) (by decide)
  split at h
  · cases h; exact .descriptor 6 (by decide) (by decide)
  · cases h

theorem wordRaise_of_fieldWord {tag : BitVec 16} {signed : Bool} {mul div : BitVec 16}
    (h : fieldWord tag signed mul div s = .error r) : WordRaise s r := by
  unfold fieldWord at h
  split at h
  · cases h; exact .descriptor 7 (by decide) (by decide)
  split at h
  · cases h; exact .descriptor 8 (by decide) (by decide)
  split at h
  · split at h
    · next hemit => cases h; exact wordRaise_of_emit hemit
    · cases h
  split at h
  · next hoob => cases h; exact .straddles hoob
  split at h
  · next hemit => cases h; exact wordRaise_of_emit hemit
  · cases h

theorem wordRaise_of_endWord (h : endWord s = .error r) : WordRaise s r := by
  unfold endWord at h
  split at h
  · cases h; exact .descriptor 9 (by decide) (by decide)
  · cases h

theorem wordRaise_of_readWord {tag : BitVec 16} {size : BitVec 3} {v : Option Int}
    (h : readWord tag size v s = .error r) : WordRaise s r := by
  unfold readWord at h
  split at h
  · cases h; exact .descriptor 3 (by decide) (by decide)
  split at h
  · cases h; exact .descriptor 9 (by decide) (by decide)
  split at h
  · cases h; exact .outOfBounds
  split at h
  · next hemit => cases h; exact wordRaise_of_emit hemit
  · cases h

theorem wordRaise_of_wordEffect {i : Instr} (h : wordEffect i s = .error r) : WordRaise s r := by
  cases i with
  | part offset mask size => exact wordRaise_of_partWord h
  | field tag signed mul div => exact wordRaise_of_fieldWord h
  | endList => exact wordRaise_of_endWord h
  | rdu tag offset size => exact wordRaise_of_readWord h
  | rdi tag offset size => exact wordRaise_of_readWord h

/-- A step of the decode loop enters a fault a word can raise, or is the effect of a word that raises none. -/
theorem decodeStep_wordEffect (h : decodeStep s = .next t) :
    (∃ r, WordRaise s r ∧ t = s.raise r) ∨ ∃ i, wordEffect i s = .ok t := by
  unfold decodeStep at h
  split at h
  · next r hfetch =>
    cases h
    exact .inl ⟨r, wordRaise_of_fetch hfetch, rfl⟩
  split at h
  · next e _ =>
    cases h
    exact .inl ⟨_, wordRaise_of_decodeReject s e, rfl⟩
  · next i _ =>
    obtain ⟨r, herr, rfl⟩ | hok := exec_cases h
    · exact .inl ⟨r, wordRaise_of_wordEffect herr, rfl⟩
    · exact .inr ⟨i, hok⟩

end WordRaise

/-! ### Invariants of the step -/

/-- `P` reads nothing that the host's writes other than CMD change, and the commands and reset keep it. -/
structure HostInvariant (P : State → Prop) : Prop where
  inputs : ∀ (s : State) (rawBase rawLen descBase : BitVec 32) (raw : Memory Byte) (desc : Memory Word)
    (host : List HostMove), P s →
    P { s with rawBase := rawBase, rawLen := rawLen, descBase := descBase, raw := raw, desc := desc, host := host }
  assemble : ∀ s, P s → P (assembleWith Config.checks s)
  clear : ∀ s, P s → P (clear s)
  reject : ∀ s c, P s → P (s.raise (badCommand c))
  startDecode : ∀ s, P s → s.phase = .assembled ∨ s.phase = .done → P (startDecode s)
  skip : ∀ s, P s → s.phase = .assembled ∨ s.phase = .done → P (skip s)
  reset : ∀ s, P s → P (applyReset s)

section Invariant

variable {P : State → Prop} {s t : State}

theorem HostInvariant.of_cmdWrite (hP : HostInvariant P) {c : BitVec 32} (h : P s) (hc : cmdWrite c s = .next t) :
    P t := by
  obtain ⟨-, ⟨-, rfl⟩ | ⟨-, rfl⟩ | ⟨-, rfl⟩ | ⟨-, rfl⟩ | ⟨hphase, -, rfl⟩ | ⟨hphase, -, rfl⟩⟩ := cmdWrite_cases hc
  · exact hP.assemble s h
  · exact hP.clear s h
  · exact h
  · exact hP.reject s c h
  · exact hP.startDecode s h hphase
  · exact hP.skip s h hphase

theorem HostInvariant.of_hostMove (hP : HostInvariant P) {m : HostMove} (h : P s) (hm : hostMove m s = .next t) :
    P t := by
  have hin := fun rawBase rawLen descBase raw desc => hP.inputs s rawBase rawLen descBase raw desc s.host h
  obtain ⟨-, rfl | ⟨v, rfl⟩ | ⟨v, rfl⟩ | ⟨v, rfl⟩ | ⟨a, v, -, rfl⟩ | ⟨i, w, -, rfl⟩ | rfl | ⟨c, -, hc⟩ |
    ⟨-, -, hmiss | ⟨base, hhit⟩⟩⟩ := hostMove_cases hm
  · exact h
  · exact hin v s.rawLen s.descBase s.raw s.desc
  · exact hin s.rawBase v s.descBase s.raw s.desc
  · exact hin s.rawBase s.rawLen v s.raw s.desc
  · exact hin s.rawBase s.rawLen s.descBase (s.raw.set a v) s.desc
  · exact hin s.rawBase s.rawLen s.descBase s.raw (s.desc.set i w)
  · exact hP.reset s h
  · exact hP.of_cmdWrite h hc
  · exact hP.of_cmdWrite h hmiss
  · exact hP.of_cmdWrite (hin s.rawBase s.rawLen base s.raw s.desc) hhit

/-- What the host's moves keep, and in BUSY the faults and the effects of descriptor words, every step keeps. -/
theorem HostInvariant.of_step (hP : HostInvariant P)
    (hraise : s.phase = .busy → ∀ r, WordRaise s r → P (s.raise r))
    (hword : s.phase = .busy → ∀ i t, wordEffect i s = .ok t → P t) (h : P s) (hs : step s = .next t) : P t := by
  obtain ⟨hbusy, hd⟩ | ⟨-, -, rfl⟩ | ⟨m, rest, -, -, hm⟩ := step_cases hs
  · obtain ⟨r, hr, rfl⟩ | ⟨i, hok⟩ := decodeStep_wordEffect hd
    · exact hraise hbusy r hr
    · exact hword hbusy i t hok
  · exact h
  · exact hP.of_hostMove (hP.inputs s s.rawBase s.rawLen s.descBase s.raw s.desc rest h) hm

end Invariant

/-! ### The width and the value of a part (R106, R107) -/

/-- A contiguous mask selects at least one bit, and shifted down it fits in as many bits as it selects. -/
theorem maskContiguous_width : ∀ mask : BitVec 8, maskContiguous mask = true →
    1 ≤ popcount mask ∧ mask.toNat >>> trailingZeros mask < 2 ^ popcount mask := by
  decide

theorem partLegal_cases {mask : BitVec 8} {size : BitVec 3} (h : partLegal mask size = true) :
    (size.toNat = 1 ∧ maskContiguous mask = true) ∨
      ((size.toNat = 2 ∨ size.toNat = 4 ∨ size.toNat = 6) ∧ mask = 0xFF#8) := by
  obtain ⟨hsize, hmask⟩ := Bool.and_eq_true_iff.mp h
  rw [sizeLegal_iff] at hsize
  split at hmask
  · next hone => exact .inl ⟨hone, hmask⟩
  · next hone => exact .inr ⟨by omega, by simpa using hmask⟩

theorem partWidth_of_wide {mask : BitVec 8} {size : BitVec 3} (h : size.toNat ≠ 1) :
    partWidth mask size = 8 * size.toNat :=
  if_neg h

theorem partWidth_pos {mask : BitVec 8} {size : BitVec 3} (h : partLegal mask size = true) :
    1 ≤ partWidth mask size := by
  obtain ⟨hone, hmask⟩ | ⟨hwide, -⟩ := partLegal_cases h
  · rw [partWidth, if_pos hone]
    exact (maskContiguous_width mask hmask).1
  · rw [partWidth_of_wide (by omega)]
    omega

/-- A part's value fits in the part's width. -/
theorem partValue_lt {mask : BitVec 8} {size : BitVec 3} {u : Nat} (h : partLegal mask size = true)
    (hu : u < 256 ^ size.toNat) : partValue mask size u < 2 ^ partWidth mask size := by
  obtain ⟨hone, hmask⟩ | ⟨hwide, -⟩ := partLegal_cases h
  · rw [partValue, partWidth, if_pos hone, if_pos hone]
    calc (u &&& mask.toNat) >>> trailingZeros mask
        ≤ mask.toNat >>> trailingZeros mask := by
          simp only [Nat.shiftRight_eq_div_pow]
          exact Nat.div_le_div_right Nat.and_le_right
      _ < 2 ^ popcount mask := (maskContiguous_width mask hmask).2
  · rw [partValue, if_neg (by omega), partWidth_of_wide (by omega), pow_mul]
    exact hu

/-- What PART does when it raises nothing, its checks said as `partLegal` (R61, R121). -/
theorem partWord_ok_legal {offset : BitVec 32} {mask : BitVec 8} {size : BitVec 3} {s t : State}
    (h : partWord offset mask size s = .ok t) :
    partLegal mask size = true ∧ s.accw.toNat + partWidth mask size ≤ 48 ∧
      t = (countPart (partWidth mask size) (latchPart offset mask size s)).advance := by
  obtain ⟨hsize, hmask, hwide, hwidth, rfl⟩ := partWord_ok h
  refine ⟨Bool.and_eq_true_iff.mpr ⟨hsize, ?_⟩, hwidth, rfl⟩
  split
  · next hone => simpa [hone] using hmask
  · next hone => simpa [hone] using hwide

/-! ### The field-group registers (R26, R27) -/

section DecoderOk

variable {s t : State}

/-- `DecoderOk` reads the six field-group registers alone. -/
theorem State.DecoderOk.of_same_group (h : s.DecoderOk) (hacc : t.acc = s.acc) (haccw : t.accw = s.accw)
    (hnparts : t.nparts = s.nparts) (habs : t.abs = s.abs) (hoobp : t.oobp = s.oobp) (hoobDpc : t.oobDpc = s.oobDpc) :
    t.DecoderOk where
  accLt := by rw [hacc, haccw]; exact h.accLt
  accwLe := by rw [haccw]; exact h.accwLe
  npartsLe := by rw [hnparts, haccw]; exact h.npartsLe
  clean := by rw [hnparts, haccw, habs, hoobp]; exact h.clean
  latch := by rw [hoobp, hoobDpc]; exact h.latch

/-- With no field group open the registers are clean. -/
theorem State.groupClosed.decoderOk (h : s.groupClosed) : s.DecoderOk := by
  obtain ⟨hacc, haccw, hnparts, habs, hoobp, hoobDpc⟩ := h
  exact
    { accLt := by simp [hacc, haccw]
      accwLe := by simp [haccw]
      npartsLe := by simp [hnparts]
      clean := fun _ => ⟨haccw, habs, hoobp⟩
      latch := fun _ => hoobDpc }

/-- ASSEMBLE clears the field-group registers in its first step, however it ends (R88). -/
theorem assembleWith_groupClosed (ck : Checks) (s : State) : (assembleWith ck s).groupClosed := by
  rcases assembleWith_cases ck s with ⟨hwindow, hsync, hneed⟩ | ⟨r, hfault, -⟩ | ⟨-, -, -, -, hfault⟩
  · rw [assembleWith_of_packet hwindow hsync hneed]
    simp [State.groupClosed]
  · rw [hfault]
    simp [State.groupClosed]
  · rw [hfault]
    simp [State.groupClosed]

theorem decoderOk_hostInvariant : HostInvariant State.DecoderOk where
  inputs _ _ _ _ _ _ _ h := h.of_same_group rfl rfl rfl rfl rfl rfl
  assemble s _ := (assembleWith_groupClosed Config.checks s).decoderOk
  clear _ _ := State.groupClosed.decoderOk ⟨rfl, rfl, rfl, rfl, rfl, rfl⟩
  reject _ _ h := h.of_same_group rfl rfl rfl rfl rfl rfl
  startDecode _ _ _ := State.groupClosed.decoderOk ⟨rfl, rfl, rfl, rfl, rfl, rfl⟩
  skip _ h _ := h.of_same_group rfl rfl rfl rfl rfl rfl
  reset _ _ := State.groupClosed.decoderOk ⟨rfl, rfl, rfl, rfl, rfl, rfl⟩

/-- A value of `pw` bits shifted above the accumulator's bits is added to it without carry out of the new width. -/
theorem State.DecoderOk.acc_add (h : s.DecoderOk) {pw v : Nat} (hw : s.accw.toNat + pw ≤ 48) (hv : v < 2 ^ pw) :
    (s.acc + BitVec.ofNat 48 (v <<< s.accw.toNat)).toNat = s.acc.toNat + v * 2 ^ s.accw.toNat ∧
      s.acc.toNat + v * 2 ^ s.accw.toNat < 2 ^ (s.accw.toNat + pw) := by
  have hsum : s.acc.toNat + v * 2 ^ s.accw.toNat < 2 ^ (s.accw.toNat + pw) :=
    calc s.acc.toNat + v * 2 ^ s.accw.toNat
        < (v + 1) * 2 ^ s.accw.toNat := by linarith [h.accLt]
      _ ≤ 2 ^ pw * 2 ^ s.accw.toNat := Nat.mul_le_mul_right _ hv
      _ = 2 ^ (s.accw.toNat + pw) := by rw [← pow_add, add_comm]
  have hfit : 2 ^ (s.accw.toNat + pw) ≤ 2 ^ 48 := Nat.pow_le_pow_right (by decide) hw
  refine ⟨?_, hsum⟩
  rw [Nat.shiftLeft_eq, BitVec.toNat_add, BitVec.toNat_ofNat, Nat.add_mod_mod, Nat.mod_eq_of_lt (hsum.trans_le hfit)]

/-- In each range class of a part the accumulator stays below the new width (R122). -/
theorem State.DecoderOk.latchPart_acc_lt (h : s.DecoderOk) {offset : BitVec 32} {mask : BitVec 8} {size : BitVec 3}
    (hlegal : partLegal mask size = true) (hw : s.accw.toNat + partWidth mask size ≤ 48) :
    (latchPart offset mask size s).acc.toNat < 2 ^ (s.accw.toNat + partWidth mask size) := by
  have hsame : s.acc.toNat < 2 ^ (s.accw.toNat + partWidth mask size) :=
    h.accLt.trans_le (Nat.pow_le_pow_right (by decide) (Nat.le_add_right _ _))
  rcases latchPart_cases offset mask size s with ⟨-, hlatch⟩ | ⟨-, -, hlatch⟩ | ⟨-, -, hlatch⟩
  · rw [hlatch]; exact hsame
  · rw [hlatch]; exact hsame
  · rw [hlatch]
    obtain ⟨hadd, hlt⟩ := h.acc_add hw (partValue_lt hlegal (leNat_lt s.payByte offset.toNat size.toNat))
    exact hadd.trans_lt hlt

/-- OOB_DPC is written only together with OOBP (R121). -/
theorem State.DecoderOk.latchPart_latch (h : s.DecoderOk) (offset : BitVec 32) (mask : BitVec 8) (size : BitVec 3) :
    (latchPart offset mask size s).oobp = false → (latchPart offset mask size s).oobDpc = 0#32 := by
  rcases latchPart_cases offset mask size s with ⟨-, hlatch⟩ | ⟨-, -, hlatch⟩ | ⟨-, -, hlatch⟩
  · rw [hlatch]; exact h.latch
  · rw [hlatch]; exact nofun
  · rw [hlatch]; exact h.latch

/-- PART adds the part's width to ACCW and 1 to NPARTS, and a legal part is at least one bit wide. -/
theorem State.DecoderOk.of_partWord {offset : BitVec 32} {mask : BitVec 8} {size : BitVec 3} (h : s.DecoderOk)
    (hp : partWord offset mask size s = .ok t) : t.DecoderOk := by
  obtain ⟨hlegal, hw, rfl⟩ := partWord_ok_legal hp
  have hpos := partWidth_pos hlegal
  have hle := h.npartsLe
  have haccw : (s.accw + BitVec.ofNat 6 (partWidth mask size)).toNat = s.accw.toNat + partWidth mask size := by
    rw [BitVec.toNat_add, BitVec.toNat_ofNat]
    omega
  have hnparts : (s.nparts + 1).toNat = s.nparts.toNat + 1 := by bv_omega
  exact
    { accLt := by
        simpa only [State.advance_acc, State.advance_accw, State.countPart_acc, State.countPart_accw,
          State.latchPart_accw, haccw] using h.latchPart_acc_lt hlegal hw
      accwLe := by simpa [haccw] using hw
      npartsLe := by
        simp only [State.advance_nparts, State.advance_accw, State.countPart_nparts, State.countPart_accw,
          State.latchPart_nparts, State.latchPart_accw, haccw, hnparts]
        omega
      clean := fun hzero => by
        have : s.nparts + 1 = 0#6 := by simpa using hzero
        bv_omega
      latch := h.latchPart_latch offset mask size }

theorem State.DecoderOk.of_wordEffect {i : Instr} (h : s.DecoderOk) (hi : wordEffect i s = .ok t) : t.DecoderOk := by
  cases i with
  | part offset mask size => exact h.of_partWord hi
  | field tag signed mul div =>
    obtain ⟨-, -, -, ⟨-, rfl⟩ | ⟨-, -, rfl⟩⟩ := fieldWord_ok hi
    · exact State.groupClosed.decoderOk (by simp [State.groupClosed])
    · exact State.groupClosed.decoderOk (by simp [State.groupClosed])
  | endList =>
    obtain ⟨-, rfl⟩ := endWord_ok hi
    exact h.of_same_group rfl rfl rfl rfl rfl rfl
  | rdu tag offset size =>
    obtain ⟨-, -, -, v, -, rfl⟩ := readWord_ok hi
    exact h.of_same_group rfl rfl rfl rfl rfl rfl
  | rdi tag offset size =>
    obtain ⟨-, -, -, v, -, rfl⟩ := readWord_ok hi
    exact h.of_same_group rfl rfl rfl rfl rfl rfl

end DecoderOk

/-- Settles O56: PART stays inside the width it checks, FIELD and every clear close the group, and nothing else writes a
field-group register. -/
theorem stepKeepsDecoderOk : Obligations.StepKeepsDecoderOk := by
  unfold Obligations.StepKeepsDecoderOk
  intro s t h hs
  exact decoderOk_hostInvariant.of_step (fun _ _ _ => h.of_same_group rfl rfl rfl rfl rfl rfl)
    (fun _ _ _ => h.of_wordEffect) h hs

end Sys2Proof.Machine

namespace Sys2Proof.Machine

/-! ### The STATUS flags (R19) -/

theorem StatusFlag.bit_lt (f : StatusFlag) : f.bit < 8 := by
  cases f <;> decide

/-- Setting a flag sets its bit of STATUS and no other. -/
theorem getLsbD_or_flag (x : BitVec 8) (f : StatusFlag) (b : Nat) :
    (x ||| (1#8 <<< f.bit)).getLsbD b = (x.getLsbD b || decide (b = f.bit)) := by
  have hf := f.bit_lt
  simp only [BitVec.getLsbD_or, BitVec.getLsbD_shiftLeft, BitVec.getLsbD_one]
  grind

/-- Clearing a flag clears its bit of STATUS and no other. -/
theorem getLsbD_andNot_flag (x : BitVec 8) (f : StatusFlag) (b : Nat) :
    (x &&& ~~~(1#8 <<< f.bit)).getLsbD b = (x.getLsbD b && !decide (b = f.bit)) := by
  have hf := f.bit_lt
  have hb : 8 ≤ b → x.getLsbD b = false := BitVec.getLsbD_of_ge x b
  simp only [BitVec.getLsbD_and, BitVec.getLsbD_not, BitVec.getLsbD_shiftLeft, BitVec.getLsbD_one]
  grind

/-- STATUS after the initial clear of DECODE (R139). -/
theorem startDecode_getLsbD (s : State) (b : Nat) :
    (startDecode s).status.getLsbD b = (s.status.getLsbD b && b != 3 && b != 4) := by
  rw [State.startDecode_status, getLsbD_andNot_flag, getLsbD_andNot_flag]
  rfl

/-- STATUS after SKIP (R140). -/
theorem skip_getLsbD (s : State) (b : Nat) :
    (skip s).status.getLsbD b = ((s.status.getLsbD b && b != 4) || b == 3) := by
  rw [State.skip_status, getLsbD_or_flag, getLsbD_andNot_flag]
  rfl

/-- The reserved bits 7:5 of STATUS are 0 exactly when it is below 32. -/
theorem status_lt_iff {x : BitVec 8} : x.toNat < 32 ↔ ∀ b, 5 ≤ b → x.getLsbD b = false := by
  constructor
  · intro h b hb
    exact Nat.testBit_lt_two_pow (h.trans_le (Nat.pow_le_pow_right (n := 2) (by decide) hb))
  · intro h
    exact Nat.lt_pow_two_of_testBit x.toNat (n := 5) h

/-! ### What a descriptor word leaves alone (R34, R36, R120) -/

/-- `t` differs from `s` as the effect of a descriptor word may: in the field-group registers, DPC and RES_COUNT, in RES
at RES_COUNT alone, in STATUS in ABSENT alone, and in PHASE only by END. -/
structure WordKeeps (s t : State) : Prop where
  frame : t = { s with
    phase := t.phase, status := t.status, dpc := t.dpc
    acc := t.acc, accw := t.accw, nparts := t.nparts, abs := t.abs, oobp := t.oobp, oobDpc := t.oobDpc
    resCount := t.resCount, res := t.res }
  phase : t.phase = s.phase ∨ t.phase = .done
  status : ∀ b, b ≠ 4 → t.status.getLsbD b = s.status.getLsbD b
  res : ∀ j, j ≠ s.resCount.toNat → t.res.get? j = s.res.get? j

section WordKeeps

variable {s t : State}

theorem wordKeeps_of_readWord {tag : BitVec 16} {size : BitVec 3} {v : Option Int} (h : readWord tag size v s = .ok t) :
    t.status = s.status ∧ WordKeeps s t := by
  obtain ⟨-, -, -, x, -, rfl⟩ := readWord_ok h
  exact ⟨by simp,
    { frame := by apply State.ext <;> simp
      phase := .inl (by simp)
      status := fun b _ => by simp
      res := fun j hj => by simpa using Memory.get?_set_of_ne _ _ hj }⟩

theorem wordKeeps_of_wordEffect {i : Instr} (hi : wordEffect i s = .ok t) : WordKeeps s t := by
  cases i with
  | part offset mask size =>
    obtain ⟨-, -, rfl⟩ := partWord_ok_legal hi
    exact
      { frame := by apply State.ext <;> simp
        phase := .inl (by simp)
        status := fun b _ => by simp
        res := fun j _ => by simp }
  | field tag signed mul div =>
    obtain ⟨-, -, -, ⟨-, rfl⟩ | ⟨-, -, rfl⟩⟩ := fieldWord_ok hi
    · exact
        { frame := by apply State.ext <;> simp
          phase := .inl (by simp)
          status := fun b hb => by
            have hbit : b ≠ StatusFlag.absent.bit := hb
            rw [State.advance_status, State.clearGroup_status, State.setFlag_status, getLsbD_or_flag]
            simp [hbit]
          res := fun j hj => by simpa using Memory.get?_set_of_ne _ _ hj }
    · exact
        { frame := by apply State.ext <;> simp
          phase := .inl (by simp)
          status := fun b _ => by simp
          res := fun j hj => by simpa using Memory.get?_set_of_ne _ _ hj }
  | endList =>
    obtain ⟨-, rfl⟩ := endWord_ok hi
    exact ⟨rfl, .inr rfl, fun _ _ => rfl, fun _ _ => rfl⟩
  | rdu tag offset size => exact (wordKeeps_of_readWord hi).2
  | rdi tag offset size => exact (wordKeeps_of_readWord hi).2

/-- Only a word that emits writes RES. -/
theorem wordEffect_res {i : Instr} (hi : wordEffect i s = .ok t)
    (h : i = .endList ∨ ∃ offset mask size, i = .part offset mask size) : t.res = s.res := by
  obtain rfl | ⟨offset, mask, size, rfl⟩ := h
  · obtain ⟨-, rfl⟩ := endWord_ok hi
    rfl
  · obtain ⟨-, -, rfl⟩ := partWord_ok_legal hi
    simp

/-- Only FIELD writes STATUS. -/
theorem wordEffect_status {i : Instr} (hi : wordEffect i s = .ok t)
    (h : ∀ tag signed mul div, i ≠ .field tag signed mul div) : t.status = s.status := by
  cases i with
  | part offset mask size =>
    obtain ⟨-, -, rfl⟩ := partWord_ok_legal hi
    simp
  | field tag signed mul div => exact absurd rfl (h tag signed mul div)
  | endList =>
    obtain ⟨-, rfl⟩ := endWord_ok hi
    rfl
  | rdu tag offset size => exact (wordKeeps_of_readWord hi).1
  | rdi tag offset size => exact (wordKeeps_of_readWord hi).1

end WordKeeps

/-- Settles O24: a fault writes what fault entry writes, and the effect of a word is inside `WordKeeps`. -/
theorem wordFrame : Obligations.WordFrame := by
  unfold Obligations.WordFrame
  intro i s t h
  obtain ⟨r, -, rfl⟩ | hi := exec_cases h
  · refine ⟨fun _ => rfl, fun _ => rfl, fun _ => rfl, fun _ _ => rfl, fun _ => rfl, fun _ _ => rfl, fun _ => rfl,
      fun hne => absurd (State.raise_phase s r) hne, ?_⟩
    simp
  · have hkeeps := wordKeeps_of_wordEffect hi
    have hframe := hkeeps.frame
    refine ⟨fun _ => ?_, fun _ => ?_, fun _ => ?_, hkeeps.res, wordEffect_res hi, hkeeps.status, wordEffect_status hi,
      fun _ => ?_, ?_⟩
    · rw [hframe]; rfl
    · rw [hframe]; rfl
    · rw [hframe]; rfl
    · rw [hframe]; exact ⟨rfl, rfl, rfl⟩
    · rw [hframe]; simp

/-! ### ASSEMBLE of a window that holds a packet (R87) -/

section Assembled

/-- CONSUMED holds the length of the longest packet. -/
theorem needBytes_lt {hasTrailer : Bool} {nfr : Nat} (h : nfr < 2 ^ 8) : needBytes hasTrailer nfr < 2 ^ 32 := by
  unfold needBytes
  split <;> omega

/-- FERR_COUNT is 0 exactly when no frame is flagged. -/
theorem ferrCount_ne_zero_iff {count : BitVec 8} {ferr : BitVec 255}
    (h : count.toNat = (List.range 255).countP ferr.getLsbD) : count ≠ 0#8 ↔ ∃ i, ferr.getLsbD i = true := by
  rw [Ne, ← BitVec.toNat_inj, h, BitVec.toNat_ofNat, Nat.zero_mod, ← Ne, ← Nat.pos_iff_ne_zero, List.countP_pos_iff]
  constructor
  · rintro ⟨i, -, hi⟩
    exact ⟨i, hi⟩
  · rintro ⟨i, hi⟩
    exact ⟨i, List.mem_range.mpr (BitVec.lt_of_getLsbD hi), hi⟩

/-- Three warnings, each its own bit of STATUS and no other bit. -/
theorem getLsbD_of_warnings {x : BitVec 8} {hdrGood framesGood trlBad : Prop} [Decidable hdrGood] [Decidable framesGood]
    [Decidable trlBad]
    (h : x = ((if hdrGood then 0#8 else 1#8) ||| (if framesGood then 0#8 else 4#8)) ||| (if trlBad then 2#8 else 0#8)) :
    (x.getLsbD 0 = true ↔ ¬hdrGood) ∧ (x.getLsbD 1 = true ↔ trlBad) ∧ (x.getLsbD 2 = true ↔ ¬framesGood) ∧
      ∀ b, 3 ≤ b → x.getLsbD b = false := by
  have hlow : x.toNat < 2 ^ 3 := by
    rw [h]
    exact Nat.or_lt_two_pow (Nat.or_lt_two_pow (by split <;> decide) (by split <;> decide)) (by split <;> decide)
  refine ⟨?_, ?_, ?_, fun b hb => Nat.testBit_lt_two_pow (hlow.trans_le (Nat.pow_le_pow_right (by decide) hb))⟩
  · simp only [h, BitVec.getLsbD_or, apply_ite (BitVec.getLsbD · 0)]
    simp
  · simp only [h, BitVec.getLsbD_or, apply_ite (BitVec.getLsbD · 1)]
    simp
  · simp only [h, BitVec.getLsbD_or, apply_ite (BitVec.getLsbD · 2)]
    simp

variable {ck : Checks} {s : State} (hwindow : s.rawBase.toNat + s.rawLen.toNat ≤ s.par.rawSize)
  (hsync : s.rawAt 0 = s.par.syncByte) (hneed : needBytes s.par.hasTrailer (s.rawAt 7).toNat ≤ s.rawLen.toNat)

include hwindow hsync hneed

/-- What an ASSEMBLE that raises nothing leaves: the cleared state, but for the packet it took. -/
theorem assembleWith_frame :
    assembleWith ck s =
      { s.clearPacket with
        phase := .assembled
        status := (assembleWith ck s).status
        dst := s.rawAt 2 ++ s.rawAt 1
        src := s.rawAt 4 ++ s.rawAt 3
        pcmd := s.rawAt 6 ++ s.rawAt 5
        nfr := s.rawAt 7
        hck := s.rawAt 8
        payLen := BitVec.ofNat 10 (3 * (s.rawAt 7).toNat)
        consumed := BitVec.ofNat 32 (needBytes s.par.hasTrailer (s.rawAt 7).toNat)
        ferr := (assembleWith ck s).ferr
        ferrCount := (assembleWith ck s).ferrCount
        pay := (assembleWith ck s).pay } := by
  rw [assembleWith_of_packet hwindow hsync hneed]
  apply State.ext <;> simp

/-- PAY_LEN and CONSUMED after ASSEMBLE (R99). -/
theorem assembleWith_lengths :
    (assembleWith ck s).payLen.toNat = 3 * (s.rawAt 7).toNat ∧
      (assembleWith ck s).consumed.toNat = needBytes s.par.hasTrailer (s.rawAt 7).toNat := by
  have hn := (s.rawAt 7).isLt
  rw [assembleWith_of_packet hwindow hsync hneed]
  simp only [State.finishPacket_payLen, State.finishPacket_consumed, BitVec.toNat_ofNat]
  exact ⟨Nat.mod_eq_of_lt (by omega), Nat.mod_eq_of_lt (needBytes_lt hn)⟩

/-- PAY after ASSEMBLE: the data bytes of the frames, every other address as before (R96). -/
theorem assembleWith_pay_get? (a : Nat) :
    (assembleWith ck s).pay.get? a =
      if a < 3 * (s.rawAt 7).toNat then some (s.rawAt (9 + 4 * (a / 3) + a % 3)) else s.pay.get? a := by
  simp [assembleWith_of_packet hwindow hsync hneed, State.takeFrames_pay]

/-- FERR and FERR_COUNT after ASSEMBLE (R24, R96). -/
theorem assembleWith_ferr :
    (∀ i, (assembleWith ck s).ferr.getLsbD i = (decide (i < (s.rawAt 7).toNat) && !s.frameGood ck i)) ∧
      (assembleWith ck s).ferrCount.toNat = (List.range 255).countP (assembleWith ck s).ferr.getLsbD := by
  have hflags := State.takeFrames_flags ck (s.rawAt 7).toNat (s.clearPacket.latchHeader.checkHeader ck) (by simp)
    (by simp) (Nat.le_of_lt_succ (s.rawAt 7).isLt)
  have hgood : ∀ i, (s.clearPacket.latchHeader.checkHeader ck).frameGood ck i = s.frameGood ck i := fun i => by
    simp [State.frameGood]
  rw [assembleWith_of_packet hwindow hsync hneed]
  simp only [State.finishPacket_ferr, State.finishPacket_ferrCount, State.checkTrailer_ferr,
    State.checkTrailer_ferrCount]
  exact ⟨fun i => by rw [hflags.ferr, hgood], hflags.count⟩

end Assembled

/-! ### The packet registers (R18, R19, R22 to R24, R144) -/

/-- `t` holds the packet that `s` holds; its warnings are in the bits of STATUS other than NOTFOUND and ABSENT. -/
structure SamePacket (s t : State) : Prop where
  par : t.par = s.par
  nfr : t.nfr = s.nfr
  payLen : t.payLen = s.payLen
  consumed : t.consumed = s.consumed
  pay : t.pay = s.pay
  ferr : t.ferr = s.ferr
  ferrCount : t.ferrCount = s.ferrCount
  status : ∀ b, b ≠ 3 → b ≠ 4 → t.status.getLsbD b = s.status.getLsbD b

section PacketOk

variable {s t : State}

/-- A state that keeps the packet meets `PacketOk` again, if it is not IDLE and uses NOTFOUND and the phases that
promise a packet rightly. -/
theorem State.PacketOk.of_samePacket (h : s.PacketOk) (hk : SamePacket s t) (hidle : t.phase ≠ .idle)
    (hphase : t.phase = .fault ∨ s.phase = .assembled ∨ s.phase = .done ∨ s.phase = .busy)
    (hnotFound : t.flag .notFound = true → t.resCount = 0#17 ∧ (t.phase = .done ∨ t.phase = .fault)) :
    t.PacketOk where
  len := by rw [hk.payLen, hk.nfr]; exact h.len
  assembled := fun ht => by
    rw [hk.payLen, hk.nfr, hk.consumed, hk.par]
    exact h.assembled (hphase.resolve_left (by rintro hf; simp [hf] at ht))
  idle := fun hi => absurd hi hidle
  listed := by rw [hk.payLen, hk.pay]; exact h.listed
  ferrHigh := by rw [hk.nfr, hk.ferr]; exact h.ferrHigh
  ferrCount := by rw [hk.ferrCount, hk.ferr]; exact h.ferrCount
  fck := by
    rw [hk.ferrCount]
    exact (hk.status 2 (by decide) (by decide)).trans h.fck
  reserved := status_lt_iff.mpr fun b hb =>
    (hk.status b (by omega) (by omega)).trans (status_lt_iff.mp h.reserved b hb)
  trailer := fun ht => by
    rw [hk.par]
    exact h.trailer ((hk.status 1 (by decide) (by decide)).symm.trans ht)
  notFound := hnotFound

/-- No packet held: an ASSEMBLE that faulted, with PCK_HDR at most in STATUS, or a state cleared altogether. -/
theorem packetOk_of_noPacket (hlen : s.payLen = 0#10) (hferr : s.ferr = 0#255) (hcount : s.ferrCount = 0#8)
    (hstatus : s.status = 0#8 ∨ s.status = 1#8)
    (hphase : s.phase = .fault ∨ s.phase = .idle ∧ s.status = 0#8 ∧ s.dst = 0#16 ∧ s.src = 0#16 ∧ s.pcmd = 0#16 ∧
      s.nfr = 0#8 ∧ s.hck = 0#8 ∧ s.consumed = 0#32 ∧ s.dpc = 0#32 ∧ s.resCount = 0#17) :
    s.PacketOk := by
  have hflag : s.flag .fck = false ∧ s.flag .pckTrl = false ∧ s.flag .notFound = false ∧ s.status.toNat < 32 := by
    simp only [State.flag]
    rcases hstatus with hz | ho
    · rw [hz]; decide
    · rw [ho]; decide
  obtain ⟨hfck, htrl, hnf, hlow⟩ := hflag
  exact
    { len := .inl (by rw [hlen]; rfl)
      assembled := fun hp => by
        rcases hphase with hf | ⟨hi, -⟩
        · simp [hf] at hp
        · simp [hi] at hp
      idle := fun hp => by
        rcases hphase with hf | ⟨-, hst, hdst, hsrc, hpcmd, hnfr, hhck, hcons, hdpc, hres⟩
        · simp [hf] at hp
        · exact ⟨hst, hdst, hsrc, hpcmd, hnfr, hhck, hlen, hcons, hdpc, hres⟩
      listed := fun a ha => by simp [hlen] at ha
      ferrHigh := fun i _ => by simp [hferr]
      ferrCount := by
        rw [hcount, hferr]
        exact (List.countP_eq_zero.mpr fun i _ => by simp).symm
      fck := by simp [hfck, hcount]
      reserved := hlow
      trailer := fun h => by simp [htrl] at h
      notFound := fun h => by simp [hnf] at h }

/-- ASSEMBLE leaves a consistent packet, or none and a fault, whatever the state before it. -/
theorem State.PacketOk.assembleWith (ck : Checks) (s : State) : (assembleWith ck s).PacketOk := by
  rcases assembleWith_cases ck s with ⟨hwindow, hsync, hneed⟩ | ⟨r, hfault, -⟩ | ⟨-, -, -, -, hfault⟩
  · have hframe := assembleWith_frame (ck := ck) hwindow hsync hneed
    obtain ⟨hlen, hcons⟩ := assembleWith_lengths (ck := ck) hwindow hsync hneed
    obtain ⟨hferr, hcount⟩ := assembleWith_ferr (ck := ck) hwindow hsync hneed
    obtain ⟨-, htrl, hfck, hlow⟩ := getLsbD_of_warnings (assembleWith_status (ck := ck) hwindow hsync hneed)
    have hpay := assembleWith_pay_get? (ck := ck) hwindow hsync hneed
    generalize Machine.assembleWith ck s = t at *
    have hphase : t.phase = .assembled := by rw [hframe]
    have hnfr : t.nfr = s.rawAt 7 := by rw [hframe]
    have hpar : t.par = s.par := by rw [hframe]; rfl
    rw [← hnfr] at hlen hcons
    rw [← hpar] at hcons
    exact
      { len := .inr hlen
        assembled := fun _ => ⟨hlen, hcons⟩
        idle := fun hi => by simp [hphase] at hi
        listed := fun a ha => by
          rw [hlen, hnfr] at ha
          rw [hpay, if_pos ha]
          rfl
        ferrHigh := fun i hi => by
          rw [hnfr] at hi
          simp [hferr, Nat.not_lt.mpr hi]
        ferrCount := hcount
        fck := by
          rw [Bool.eq_iff_iff, bne_iff_ne]
          exact hfck
        reserved := status_lt_iff.mpr fun b hb => hlow b (by omega)
        trailer := fun ht => by
          rw [hpar]
          exact (htrl.mp ht).1
        notFound := fun ht => absurd ((hlow 3 le_rfl).symm.trans ht) (by decide) }
  · rw [hfault]
    exact packetOk_of_noPacket rfl rfl rfl (.inl rfl) (.inl rfl)
  · rw [hfault]
    refine packetOk_of_noPacket (by simp) (by simp) (by simp) ?_ (.inl rfl)
    rw [State.raise_status, State.checkHeader_status, State.latchHeader_status, State.clearPacket_status]
    split
    · exact .inl rfl
    · exact .inr rfl

/-- Fault entry changes no register of the packet (R161). -/
theorem State.PacketOk.raise (h : s.PacketOk) (r : Raise) : (s.raise r).PacketOk :=
  h.of_samePacket ⟨rfl, rfl, rfl, rfl, rfl, rfl, rfl, fun _ _ _ => rfl⟩ (by simp) (.inl rfl)
    fun _ => ⟨rfl, .inr rfl⟩

theorem samePacket_startDecode (s : State) : SamePacket s (startDecode s) where
  par := rfl
  nfr := rfl
  payLen := rfl
  consumed := rfl
  pay := rfl
  ferr := rfl
  ferrCount := rfl
  status b h3 h4 := by
    rw [startDecode_getLsbD]
    simp [bne_iff_ne.mpr h3, bne_iff_ne.mpr h4]

theorem samePacket_skip (s : State) : SamePacket s (skip s) where
  par := rfl
  nfr := rfl
  payLen := rfl
  consumed := rfl
  pay := rfl
  ferr := rfl
  ferrCount := rfl
  status b h3 h4 := by
    rw [skip_getLsbD]
    simp [beq_false_of_ne h3, bne_iff_ne.mpr h4]

theorem packetOk_hostInvariant : HostInvariant State.PacketOk where
  inputs _ _ _ _ _ _ _ h := { h with }
  assemble s _ := State.PacketOk.assembleWith Config.checks s
  clear _ _ :=
    packetOk_of_noPacket rfl rfl rfl (.inl rfl) (.inr ⟨rfl, rfl, rfl, rfl, rfl, rfl, rfl, rfl, rfl, rfl⟩)
  reject _ _ h := h.raise _
  startDecode s h hp :=
    h.of_samePacket (samePacket_startDecode s) (by simp) (.inr (hp.imp_right .inl))
      fun hnf => absurd ((startDecode_getLsbD s 3).symm.trans hnf) (by simp)
  skip s h hp :=
    h.of_samePacket (samePacket_skip s) (by simp) (.inr (hp.imp_right .inl)) fun _ => ⟨rfl, .inl rfl⟩
  reset _ _ :=
    packetOk_of_noPacket rfl rfl rfl (.inl rfl) (.inr ⟨rfl, rfl, rfl, rfl, rfl, rfl, rfl, rfl, rfl, rfl⟩)

theorem WordKeeps.samePacket (h : WordKeeps s t) : SamePacket s t where
  par := by rw [h.frame]
  nfr := by rw [h.frame]
  payLen := by rw [h.frame]
  consumed := by rw [h.frame]
  pay := by rw [h.frame]
  ferr := by rw [h.frame]
  ferrCount := by rw [h.frame]
  status b _ hb := h.status b hb

/-- A word keeps the packet; NOTFOUND is clear where it runs, since that flag is set in DONE and FAULT alone. -/
theorem State.PacketOk.of_wordEffect {i : Instr} (h : s.PacketOk) (hbusy : s.phase = .busy)
    (hi : wordEffect i s = .ok t) : t.PacketOk := by
  have hkeeps := wordKeeps_of_wordEffect hi
  refine h.of_samePacket hkeeps.samePacket ?_ (.inr (.inr (.inr hbusy))) fun hnf => ?_
  · rcases hkeeps.phase with hp | hp
    · simp [hp, hbusy]
    · simp [hp]
  · obtain ⟨-, hp⟩ := h.notFound ((hkeeps.status 3 (by decide)).symm.trans hnf)
    simp [hbusy] at hp

end PacketOk

/-- Settles O58: ASSEMBLE makes the packet registers anew, CLEAR and reset empty them, and whatever else a step does
keeps the packet and the warnings that stand in STATUS. -/
theorem stepKeepsPacketOk : Obligations.StepKeepsPacketOk := by
  unfold Obligations.StepKeepsPacketOk
  intro s t h hs
  exact packetOk_hostInvariant.of_step (fun _ r _ => h.raise r) (fun hbusy _ _ => h.of_wordEffect hbusy) h hs

/-- Settles O40, assembled from what each step of ASSEMBLE leaves when the window holds a packet. -/
theorem assembleDeframes : Obligations.AssembleDeframes := by
  unfold Obligations.AssembleDeframes
  intro ck s hwindow hsync hneed
  have hframe := assembleWith_frame (ck := ck) hwindow hsync hneed
  obtain ⟨hpayLen, hconsumed⟩ := assembleWith_lengths (ck := ck) hwindow hsync hneed
  obtain ⟨hferr, hcount⟩ := assembleWith_ferr (ck := ck) hwindow hsync hneed
  obtain ⟨hhdr, htrl, hfck, hlow⟩ := getLsbD_of_warnings (assembleWith_status (ck := ck) hwindow hsync hneed)
  have hpay := assembleWith_pay_get? (ck := ck) hwindow hsync hneed
  generalize assembleWith ck s = t at hframe hpayLen hconsumed hferr hcount hhdr htrl hfck hlow hpay
  refine ⟨t, rfl, ?_, ?_, ?_, ?_, ?_, ?_, hpayLen, hconsumed, ?_, ?_, ?_, hcount, hhdr, ?_, htrl, hlow, ?_⟩
  · rw [hframe]
  · rw [hframe, toNat_append_eq]; omega
  · rw [hframe, toNat_append_eq]; omega
  · rw [hframe, toNat_append_eq]; omega
  · rw [hframe]
  · rw [hframe]
  · intro i j hi hj
    rw [State.payByte, hpay, if_pos (by omega), Option.getD_some]
    congr 1
    omega
  · intro a ha
    have hresets : t.resets = s.resets := by rw [hframe]; rfl
    rw [State.payByte, hpay, if_neg (by omega), hresets]
    rfl
  · intro i
    rw [hferr, State.frameGood]
    simp
  · exact hfck.trans (ferrCount_ne_zero_iff hcount)
  · rw [hframe]

end Sys2Proof.Machine

namespace Sys2Proof.Machine

/-! ### The error registers (R20, R21, R148, R161) -/

/-- The sub-codes each fatal error takes (R148). -/
def Raise.Legal (r : Raise) : Prop :=
  match r.fatal with
  | .descriptorError => 1 ≤ r.sub.toNat ∧ r.sub.toNat ≤ 10
  | .badCommand => 1 ≤ r.sub.toNat ∧ r.sub.toNat ≤ 3
  | .outOfBounds => r.sub = 0#8
  | .truncatedPacket => r.sub = 0#8
  | .syncError => r.sub = 0#8
  | .resultOverflow => r.sub = 0#8

theorem WordRaise.legal {s : State} {r : Raise} (h : WordRaise s r) : r.Legal := by
  cases h with
  | descriptor sub hlo hhi => exact ⟨hlo, hhi⟩
  | outOfBounds => rfl
  | straddles _ => rfl
  | resultOverflow => rfl

theorem badCommand_legal (c : BitVec 32) : (badCommand c).Legal := by
  simp only [Raise.Legal, badCommand]
  split <;> decide

section FaultRecordOk

variable {s t : State}

/-- Fault entry with a legal code and sub-code. -/
theorem Raise.Legal.faultRecordOk {r : Raise} (h : r.Legal) (s : State) : (s.raise r).FaultRecordOk where
  quiet := fun hp => absurd (State.raise_phase s r) hp
  code := fun _ => by
    rw [State.raise_errCode]
    cases r.fatal <;> decide
  sub := fun _ => by
    rw [State.raise_errCode, State.raise_errSub]
    simp only [Raise.Legal] at h
    cases hf : r.fatal <;> simp_all [Fatal.code]
  emptied := fun _ => rfl

theorem faultRecordOk_of_quiet (hphase : s.phase ≠ .fault)
    (hquiet : s.errCode = 0#8 ∧ s.errSub = 0#8 ∧ s.errInfo = 0#32) : s.FaultRecordOk where
  quiet := fun _ => hquiet
  code := fun hf => absurd hf hphase
  sub := fun hf => absurd hf hphase
  emptied := fun hf => absurd hf hphase

/-- ASSEMBLE clears the error registers, then raises a legal fault or none (R88, R150). -/
theorem assembleWith_faultRecordOk (ck : Checks) (s : State) : (assembleWith ck s).FaultRecordOk := by
  rcases assembleWith_cases ck s with ⟨hwindow, hsync, hneed⟩ | ⟨r, hfault, hr⟩ | ⟨-, -, -, -, hfault⟩
  · rw [assembleWith_of_packet hwindow hsync hneed]
    exact faultRecordOk_of_quiet (by simp) (by simp)
  · rw [hfault]
    refine Raise.Legal.faultRecordOk ?_ _
    obtain ⟨fatal, sub, info⟩ := r
    obtain ⟨rfl, rfl⟩ | ⟨rfl | rfl, rfl⟩ := hr
    · exact (by decide : 1 ≤ (3#8).toNat ∧ (3#8).toNat ≤ 3)
    · exact (rfl : 0#8 = 0#8)
    · exact (rfl : 0#8 = 0#8)
  · rw [hfault]
    exact Raise.Legal.faultRecordOk (r := ⟨.truncatedPacket, 0, _⟩) rfl _

theorem faultRecordOk_hostInvariant : HostInvariant State.FaultRecordOk where
  inputs _ _ _ _ _ _ _ h := { h with }
  assemble s _ := assembleWith_faultRecordOk Config.checks s
  clear _ _ := faultRecordOk_of_quiet (by simp) ⟨rfl, rfl, rfl⟩
  reject s c _ := (badCommand_legal c).faultRecordOk s
  startDecode _ h hp := faultRecordOk_of_quiet (by simp) (h.quiet (by rcases hp with hp | hp <;> simp [hp]))
  skip _ h hp := faultRecordOk_of_quiet (by simp) (h.quiet (by rcases hp with hp | hp <;> simp [hp]))
  reset _ _ := faultRecordOk_of_quiet (by simp) ⟨rfl, rfl, rfl⟩

theorem State.FaultRecordOk.of_wordEffect {i : Instr} (h : s.FaultRecordOk) (hbusy : s.phase = .busy)
    (hi : wordEffect i s = .ok t) : t.FaultRecordOk := by
  have hkeeps := wordKeeps_of_wordEffect hi
  refine faultRecordOk_of_quiet ?_ ?_
  · rcases hkeeps.phase with hp | hp
    · simp [hp, hbusy]
    · simp [hp]
  · rw [hkeeps.frame]
    exact h.quiet (by simp [hbusy])

end FaultRecordOk

/-- Settles O57: every fault raised has a legal code and sub-code and empties RES, and FAULT is left only by what clears
the error registers. -/
theorem stepKeepsFaultRecordOk : Obligations.StepKeepsFaultRecordOk := by
  unfold Obligations.StepKeepsFaultRecordOk
  intro s t h hs
  exact faultRecordOk_hostInvariant.of_step (fun _ _ hr => hr.legal.faultRecordOk s)
    (fun hbusy _ _ => h.of_wordEffect hbusy) h hs

/-! ### The numbers of a record (R73, R80, R124, R125) -/

/-- Sign correction at the composed width subtracts 2^w exactly when the top bit is set (R124). -/
theorem signCorrect_eq {signed : Bool} {w acc : Nat} (hw : 1 ≤ w) (hacc : acc < 2 ^ w) :
    signCorrect signed w acc =
      if signed = true ∧ 2 ^ (w - 1) ≤ acc then (acc : Int) - 2 ^ w else acc := by
  cases signed with
  | false => simp [signCorrect]
  | true => simp [signCorrect, signExtend, testBit_top hw hacc]

theorem signCorrect_range {signed : Bool} {w acc : Nat} (hw : 1 ≤ w) (hw48 : w ≤ 48) (hacc : acc < 2 ^ w) :
    -(2 ^ 47) ≤ signCorrect signed w acc ∧ signCorrect signed w acc < 2 ^ 48 := by
  have htop : 2 ^ w = 2 * 2 ^ (w - 1) := by rw [← pow_succ', Nat.sub_add_cancel hw]
  have hhalf : 2 ^ (w - 1) ≤ 2 ^ 47 := Nat.pow_le_pow_right (by decide) (by omega)
  rw [signCorrect_eq hw hacc]
  split
  · have hcast : (2 : Int) ^ w = (2 ^ w : Nat) := by push_cast; rfl
    rw [hcast]
    omega
  · omega

/-- The Byte Reader's sign rule keeps a number of at most six bytes in the range of RAW (R80). -/
theorem readerSign_range {n u : Nat} (hn : n ≤ 6) (hu : u < 256 ^ n) :
    -(2 ^ 47) ≤ readerSign n u ∧ readerSign n u < 2 ^ 48 := by
  have hwide : 256 ^ n ≤ 256 ^ 6 := Nat.pow_le_pow_right (by decide) hn
  unfold readerSign
  split
  · next h => subst h; exact signCorrect_range (signed := true) (by decide) (by decide) hu
  split
  · next h => subst h; exact signCorrect_range (signed := true) (by decide) (by decide) hu
  · omega

/-- The product of the scaler fits in 65 bits with sign, and truncating division does not enlarge it (R125). -/
theorem tdiv_range {raw : Int} {mul : BitVec 16} (d : Nat) (hlo : -(2 ^ 47) ≤ raw) (hhi : raw < 2 ^ 48) :
    -(2 ^ 64) < tdiv (raw * mul.toNat) d ∧ tdiv (raw * mul.toNat) d < 2 ^ 64 := by
  have hprod : (raw * mul.toNat).natAbs < 2 ^ 64 := by
    rw [Int.natAbs_mul, Int.natAbs_natCast]
    calc raw.natAbs * mul.toNat ≤ (2 ^ 48 - 1) * (2 ^ 16 - 1) :=
          Nat.mul_le_mul (by omega) (Nat.le_sub_one_of_lt mul.isLt)
      _ < 2 ^ 64 := by decide
  have hquot : (tdiv (raw * mul.toNat) d).natAbs ≤ (raw * mul.toNat).natAbs := by
    rw [tdiv, Int.natAbs_tdiv]
    exact Nat.div_le_self _ _
  omega

theorem trem_range (p : Int) {div : BitVec 16} (h : div ≠ 0#16) :
    -(div.toNat : Int) < trem p div.toNat ∧ trem p div.toNat < div.toNat := by
  have hpos : (0 : Int) < div.toNat := by bv_omega
  rw [trem_eq_tmod]
  exact ⟨Int.lt_tmod_of_pos p hpos, Int.tmod_lt_of_pos p hpos⟩

/-- The remainder takes the sign of the raw value (R125). -/
theorem trem_sign (raw : Int) (mul d : Nat) :
    (0 < raw → 0 ≤ trem (raw * mul) d) ∧ (raw < 0 → trem (raw * mul) d ≤ 0) := by
  rw [trem_eq_tmod]
  refine ⟨fun h => Int.tmod_nonneg _ (by positivity), fun h => ?_⟩
  have hneg : 0 ≤ -raw * mul := mul_nonneg (by omega) (by positivity)
  have hrem := Int.tmod_nonneg d hneg
  rw [neg_mul, Int.neg_tmod] at hrem
  omega

/-! ### The records of the descriptor words (R74, R127) -/

theorem absentRecord_ok (tag : BitVec 16) {div : BitVec 16} (h : div ≠ 0#16) : (absentRecord tag div).Ok where
  absent := fun _ => ⟨rfl, rfl, rfl, rfl, rfl, rfl⟩
  width := nofun
  rawRange := by simp [absentRecord]
  quotRange := by simp [absentRecord]
  divPos := h
  remLt := by
    simp only [absentRecord]
    bv_omega
  remSign := by simp [absentRecord]
  read := nofun
  flag := nofun
  noFlag := fun _ => rfl

theorem readRecord_ok (tag : BitVec 16) {size : BitVec 3} {v : Int} (hsize : sizeLegal size = true)
    (hv : -(2 ^ 47) ≤ v ∧ v < 2 ^ 48) : (readRecord tag size v).Ok where
  absent := nofun
  width := fun _ => by
    rw [sizeLegal_iff] at hsize
    simp only [readRecord]
    omega
  rawRange := hv
  quotRange := by
    simp only [readRecord]
    omega
  divPos := by simp [readRecord]
  remLt := by simp [readRecord]
  remSign := by simp [readRecord]
  read := fun _ => ⟨rfl, rfl, rfl, rfl⟩
  flag := nofun
  noFlag := fun _ => rfl

/-- A single-bit field is flagged exactly when its bit is set, whether its RAW reads 1 or -1 (R127). -/
theorem signCorrect_one_ne_zero {signed : Bool} {acc : Nat} (h : acc < 2 ^ 1) :
    signCorrect signed 1 acc ≠ 0 ↔ acc ≠ 0 := by
  rw [signCorrect_eq le_rfl h]
  split <;> omega

theorem isFlag_iff {w : Nat} {mul div : BitVec 16} : isFlag w mul div = true ↔ w = 1 ∧ mul = div := by
  simp [isFlag]

theorem fieldRecord_kind (tag : BitVec 16) (signed : Bool) (mul div : BitVec 16) (w acc : Nat) :
    (fieldRecord tag signed mul div w acc).kind = if isFlag w mul div then .flag else .value := rfl

theorem fieldRecord_ok (tag : BitVec 16) {signed : Bool} {mul div : BitVec 16} {w acc : Nat} (hdiv : div ≠ 0#16)
    (hw : 1 ≤ w) (hw48 : w ≤ 48) (hacc : acc < 2 ^ w) : (fieldRecord tag signed mul div w acc).Ok := by
  have hraw := signCorrect_range (signed := signed) hw hw48 hacc
  exact
    { absent := nofun
      width := fun _ => ⟨hw, hw48⟩
      rawRange := hraw
      quotRange := tdiv_range div.toNat hraw.1 hraw.2
      divPos := hdiv
      remLt := trem_range _ hdiv
      remSign := trem_sign _ _ _
      read := fun h => by
        rw [fieldRecord_kind] at h
        split at h <;> cases h
      flag := fun h => by
        rw [fieldRecord_kind] at h
        split at h
        · next hflag =>
          obtain ⟨rfl, -⟩ := isFlag_iff.mp hflag
          refine ⟨rfl, rfl, ?_⟩
          simpa [fieldRecord, hflag] using (signCorrect_one_ne_zero hacc).symm
        · cases h
      noFlag := fun h => by
        rw [fieldRecord_kind] at h
        split at h
        · exact absurd rfl h
        · next hflag => simp [fieldRecord, hflag] }

/-! ### The result list (R19, R28, R33) -/

section ResultOk

variable {s t : State}

/-- `ResultOk` reads RES below RES_COUNT, RES_COUNT and STATUS.ABSENT, and PHASE where it is FAULT. -/
theorem State.ResultOk.of_same_results (h : s.ResultOk) (hres : t.res = s.res) (hcount : t.resCount = s.resCount)
    (hflag : t.flag .absent = s.flag .absent) (hphase : s.phase ≠ .fault) : t.ResultOk where
  records := by rw [hres, hcount]; exact h.records
  absentFlag := fun _ => by rw [hres, hcount, hflag]; exact h.absentFlag hphase

/-- With RES empty there is nothing to summarise. -/
theorem resultOk_of_empty (hcount : s.resCount = 0#17) (hflag : s.phase ≠ .fault → s.flag .absent = false) :
    s.ResultOk where
  records := fun i hi => by simp [hcount] at hi
  absentFlag := fun hphase => by simp [hcount, hflag hphase]

/-- Emitting a legal record keeps the list legal, and its summary where ABSENT is set just when the record is absent. -/
theorem State.ResultOk.of_append (h : s.ResultOk) {r : Record} (hr : r.Ok)
    (hroom : (s.resCount + 1).toNat = s.resCount.toNat + 1) (hphase : s.phase ≠ .fault)
    (hres : t.res = s.res.set s.resCount.toNat r) (hcount : t.resCount = s.resCount + 1)
    (hflag : t.flag .absent = (s.flag .absent || decide (r.st = .absent))) : t.ResultOk := by
  have hnew : t.res.get? s.resCount.toNat = some r := by rw [hres, Memory.get?_set_self]
  have hold : ∀ i, i < s.resCount.toNat → t.res.get? i = s.res.get? i := fun i hi => by
    rw [hres, Memory.get?_set_of_ne _ _ (by omega)]
  have hlt : ∀ i, i < t.resCount.toNat ↔ i < s.resCount.toNat ∨ i = s.resCount.toNat := fun i => by
    rw [hcount, hroom]
    omega
  refine ⟨fun i hi => ?_, fun _ => ?_⟩
  · obtain hi | rfl := (hlt i).mp hi
    · rw [hold i hi]
      exact h.records i hi
    · exact ⟨r, hnew, hr⟩
  · rw [hflag, Bool.or_eq_true, h.absentFlag hphase, decide_eq_true_eq]
    constructor
    · rintro (⟨i, r', hi, hget, hst⟩ | hst)
      · exact ⟨i, r', (hlt i).mpr (.inl hi), (hold i hi).trans hget, hst⟩
      · exact ⟨_, r, (hlt _).mpr (.inr rfl), hnew, hst⟩
    · rintro ⟨i, r', hi, hget, hst⟩
      obtain hi | rfl := (hlt i).mp hi
      · exact .inl ⟨i, r', hi, (hold i hi).symm.trans hget, hst⟩
      · cases hnew.symm.trans hget
        exact .inr hst

/-- Fault entry empties RES (R161). -/
theorem raise_resultOk (s : State) (r : Raise) : (s.raise r).ResultOk :=
  resultOk_of_empty rfl fun hne => absurd (State.raise_phase s r) hne

/-- ASSEMBLE empties RES and leaves ABSENT clear unless it faults (R88). -/
theorem assembleWith_resultOk (ck : Checks) (s : State) : (assembleWith ck s).ResultOk := by
  rcases assembleWith_cases ck s with ⟨hwindow, hsync, hneed⟩ | ⟨r, hfault, -⟩ | ⟨-, -, -, -, hfault⟩
  · have hframe := assembleWith_frame (ck := ck) hwindow hsync hneed
    obtain ⟨-, -, -, hlow⟩ := getLsbD_of_warnings (assembleWith_status (ck := ck) hwindow hsync hneed)
    refine resultOk_of_empty ?_ fun _ => hlow 4 (by decide)
    rw [hframe]
    rfl
  · rw [hfault]
    exact raise_resultOk _ _
  · rw [hfault]
    exact raise_resultOk _ _

theorem resultOk_hostInvariant : HostInvariant State.ResultOk where
  inputs _ _ _ _ _ _ _ h := { h with }
  assemble s _ := assembleWith_resultOk Config.checks s
  clear _ _ := resultOk_of_empty rfl fun _ => by simp [State.flag]
  reject s c _ := raise_resultOk s _
  startDecode s _ _ := resultOk_of_empty rfl fun _ => (startDecode_getLsbD s 4).trans (by simp)
  skip s _ _ := resultOk_of_empty rfl fun _ => (skip_getLsbD s 4).trans (by simp)
  reset _ _ := resultOk_of_empty rfl fun _ => by simp [State.flag]

/-- RES_COUNT has a bit more than RES_CAP needs, so counting one record more does not wrap (R11, R28). -/
theorem State.MemoryOk.resCount_add_one (h : s.MemoryOk) : (s.resCount + 1).toNat = s.resCount.toNat + 1 := by
  have hcap : s.par.resCap ≤ 2 ^ 16 := by
    have hpar := h.par
    simp only [Params.wf, decide_eq_true_eq] at hpar
    omega
  have hle := h.count
  bv_omega

theorem State.readUInt_lt {offset : BitVec 32} {n u : Nat} (h : s.readUInt offset n = some u) : u < 256 ^ n := by
  obtain ⟨-, rfl⟩ := readUInt_eq_some.mp h
  exact leNat_lt _ _ _

theorem sizeLegal_le {size : BitVec 3} (h : sizeLegal size = true) : size.toNat ≤ 6 := by
  rw [sizeLegal_iff] at h
  omega

/-- What RDU reads is in the range of RAW (R73). -/
theorem State.readUInt_range {offset : BitVec 32} {size : BitVec 3} (hsize : sizeLegal size = true) {v : Int}
    (h : (s.readUInt offset size.toNat).map Int.ofNat = some v) : -(2 ^ 47) ≤ v ∧ v < 2 ^ 48 := by
  obtain ⟨u, hu, rfl⟩ := Option.map_eq_some_iff.mp h
  have hlt := State.readUInt_lt hu
  have hwide : 256 ^ size.toNat ≤ 256 ^ 6 := Nat.pow_le_pow_right (by decide) (sizeLegal_le hsize)
  simp only [Int.ofNat_eq_natCast]
  omega

/-- What RDI reads is in the range of RAW (R73). -/
theorem State.readInt_range {offset : BitVec 32} {size : BitVec 3} (hsize : sizeLegal size = true) {v : Int}
    (h : s.readInt offset size.toNat = some v) : -(2 ^ 47) ≤ v ∧ v < 2 ^ 48 := by
  obtain ⟨u, hu, rfl⟩ := Option.map_eq_some_iff.mp h
  exact readerSign_range (sizeLegal_le hsize) (State.readUInt_lt hu)

theorem State.ResultOk.of_readWord {tag : BitVec 16} {size : BitVec 3} {v : Option Int} (h : s.ResultOk)
    (hmem : s.MemoryOk) (hphase : s.phase ≠ .fault)
    (hv : sizeLegal size = true → ∀ x, v = some x → -(2 ^ 47) ≤ x ∧ x < 2 ^ 48)
    (hr : readWord tag size v s = .ok t) : t.ResultOk := by
  obtain ⟨hsize, -, -, x, hx, rfl⟩ := readWord_ok hr
  exact h.of_append (readRecord_ok tag hsize (hv hsize x hx)) hmem.resCount_add_one hphase (by simp) (by simp)
    (by simp [State.flag, readRecord])

/-- Between PART words the accumulator holds a value of ACCW bits, at least one if a part is in it. -/
theorem State.ResultOk.of_fieldWord {tag : BitVec 16} {signed : Bool} {mul div : BitVec 16} (h : s.ResultOk)
    (hmem : s.MemoryOk) (hdec : s.DecoderOk) (hphase : s.phase ≠ .fault)
    (hf : fieldWord tag signed mul div s = .ok t) : t.ResultOk := by
  obtain ⟨hnparts, hdiv, -, ⟨-, rfl⟩ | ⟨-, -, rfl⟩⟩ := fieldWord_ok hf
  · refine h.of_append (absentRecord_ok tag hdiv) hmem.resCount_add_one hphase (by simp) (by simp) ?_
    exact getLsbD_or_flag s.status .absent 4
  · have hwidth : 1 ≤ s.accw.toNat := by
      have hle := hdec.npartsLe
      bv_omega
    have hrecord : (fieldRecord tag signed mul div s.accw.toNat s.acc.toNat).Ok :=
      fieldRecord_ok tag hdiv hwidth hdec.accwLe hdec.accLt
    exact h.of_append hrecord hmem.resCount_add_one hphase (by simp) (by simp)
      (by simp [State.flag, fieldRecord])

theorem State.ResultOk.of_wordEffect {i : Instr} (h : s.ResultOk) (hmem : s.MemoryOk) (hdec : s.DecoderOk)
    (hphase : s.phase ≠ .fault) (hi : wordEffect i s = .ok t) : t.ResultOk := by
  cases i with
  | part offset mask size =>
    obtain ⟨-, -, rfl⟩ := partWord_ok_legal hi
    exact h.of_same_results (by simp) (by simp) (by simp [State.flag]) hphase
  | field tag signed mul div => exact h.of_fieldWord hmem hdec hphase hi
  | endList =>
    obtain ⟨-, rfl⟩ := endWord_ok hi
    exact h.of_same_results rfl rfl rfl hphase
  | rdu tag offset size => exact h.of_readWord hmem hphase (fun hsize _ => State.readUInt_range hsize) hi
  | rdi tag offset size => exact h.of_readWord hmem hphase (fun hsize _ => State.readInt_range hsize) hi

end ResultOk

/-- Settles O59: the records of FIELD, RDU and RDI are legal where the field-group registers and RES_COUNT are in range,
and whatever else writes RES_COUNT empties the list. -/
theorem stepKeepsResultOk : Obligations.StepKeepsResultOk := by
  unfold Obligations.StepKeepsResultOk
  intro s t hmem hdec h hs
  exact resultOk_hostInvariant.of_step (fun _ r _ => raise_resultOk s r)
    (fun hbusy _ _ => h.of_wordEffect hmem hdec (by simp [hbusy])) h hs

end Sys2Proof.Machine

namespace Sys2Proof.Machine

/-! ### What the host reads (R16 to R28, R31, R33, R144) -/

section HostReads

variable (s : State)

theorem readReg_unassigned {n : Nat} (h : n = 0x00 ∨ n = 0x0F ∨ 0x18 ≤ n) : s.readReg n = 0#32 := by
  obtain rfl | rfl | h := h
  · rfl
  · rfl
  · obtain ⟨k, rfl⟩ := Nat.exists_eq_add_of_le' h
    rfl

theorem readReg_phase : s.readReg 0x01 = s.phase.code.setWidth 32 := rfl

/-- Bit `j` of FERRW[k] (R24). -/
theorem ferrw_getLsbD {k j : Nat} (hk : k < 8) (hj : j < 32) : (s.ferrw k).getLsbD j = s.ferr.getLsbD (32 * k + j) := by
  unfold State.ferrw
  rw [BitVec.getLsbD_setWidth, BitVec.getLsbD_ushiftRight, BitVec.getLsbD_setWidth]
  simp only [hj, decide_true, Bool.true_and, show 32 * k + j < 256 by omega]

theorem readReg_ferrw {k : Nat} (hk : k < 8) : s.readReg (0x10 + k) = s.ferrw k := by
  interval_cases k <;> rfl

theorem hostReadPay_none {a : Nat} (h : (s.phase ≠ .assembled ∧ s.phase ≠ .done) ∨ s.payLen.toNat ≤ a) :
    s.hostReadPay a = none := by
  refine if_neg ?_
  rintro ⟨hphase, ha⟩
  obtain ⟨hasm, hdone⟩ | hlen := h
  · exact hphase.elim hasm hdone
  · omega

theorem hostReadRes_none {i : Nat} (h : s.phase ≠ .done ∨ s.resCount.toNat ≤ i) : s.hostReadRes i = none := by
  refine if_neg ?_
  rintro ⟨hphase, hi⟩
  obtain hdone | hcount := h
  · exact hdone hphase
  · omega

/-- Two registers side by side in one word read as a sum. -/
theorem readReg_packed :
    (s.readReg 0x03).toNat = s.errCode.toNat + 2 ^ 8 * s.errSub.toNat ∧
      (s.readReg 0x08).toNat = s.dst.toNat + 2 ^ 16 * s.src.toNat ∧
      (s.readReg 0x09).toNat = s.pcmd.toNat + 2 ^ 16 * s.nfr.toNat + 2 ^ 24 * s.hck.toNat := by
  have h3 : (s.readReg 0x03).toNat = (0#16 ++ s.errSub ++ s.errCode).toNat := rfl
  have h8 : (s.readReg 0x08).toNat = (s.src ++ s.dst).toNat := rfl
  have h9 : (s.readReg 0x09).toNat = ((s.hck ++ s.nfr) ++ s.pcmd).toNat := rfl
  rw [h3, h8, h9]
  simp only [toNat_append_eq, BitVec.toNat_ofNat]
  omega

end HostReads

/-- Settles O47, register by register; a record the host reads is legal by the result list's invariant. -/
theorem hostRegisterReads : Obligations.HostRegisterReads := by
  unfold Obligations.HostRegisterReads
  intro s
  obtain ⟨herr, haddr, hhdr⟩ := readReg_packed s
  have hwide : ∀ {n : Nat} (x : BitVec n), n ≤ 32 → (x.setWidth 32).toNat = x.toNat := fun x hn =>
    BitVec.toNat_setWidth_of_le hn
  refine ⟨fun _ => readReg_unassigned s, ?_, ?_, ?_, ?_, ?_, hwide s.status (by decide), herr, rfl, rfl, rfl, rfl,
    haddr, hhdr, hwide s.payLen (by decide), rfl, hwide s.ferrCount (by decide), hwide s.resCount (by decide), rfl,
    ?_, ?_, fun _ => hostReadPay_of_readable, fun _ => hostReadPay_none s, ?_, fun _ => hostReadRes_none s⟩
  · intro hp; rw [readReg_phase, hp]; rfl
  · intro hp; rw [readReg_phase, hp]; rfl
  · intro hp; rw [readReg_phase, hp]; rfl
  · intro hp; rw [readReg_phase, hp]; rfl
  · intro hp; rw [readReg_phase, hp]; rfl
  · intro k j hk hj
    rw [readReg_ferrw s hk, ferrw_getLsbD s hk hj]
  · rw [readReg_ferrw s (k := 7) (by decide), ferrw_getLsbD s (by decide) (by decide)]
    exact BitVec.getLsbD_of_ge s.ferr 255 le_rfl
  · intro i hp hi
    have hread := hostReadRes_of_readable hp hi
    refine ⟨hread, fun hok => ?_⟩
    rw [hread]
    exact hok.records i hi

/-! ### What the host writes (R17, R30, R32, R34) -/

/-- Settles O46: the number selects the register, and a number that is none selects nothing. -/
theorem hostRegisterWrites : Obligations.HostRegisterWrites := by
  unfold Obligations.HostRegisterWrites
  intro s number v rest hp hhost
  have hstep : step s = writeReg number v { s with host := rest } :=
    (step_of_host hp hhost).trans (hostMove_of_not_busy _ hp)
  rw [hstep]
  refine ⟨?_, ?_, ?_, ?_⟩
  · rintro rfl; rfl
  · rintro rfl; rfl
  · rintro rfl; rfl
  · intro h0 h5 h6 h7
    simp only [writeReg]

theorem step_writeRaw {s : State} {a : Nat} {v : Byte} {rest : List HostMove} (hp : s.phase ≠ .busy)
    (hhost : s.host = .writeRaw a v :: rest) :
    step s = if a < s.par.rawSize then .next { s with host := rest, raw := s.raw.set a v }
      else .fault (.noRawAddress a) :=
  (step_of_host hp hhost).trans (hostMove_of_not_busy _ hp)

theorem step_writeDesc {s : State} {i : Nat} {w : Word} {rest : List HostMove} (hp : s.phase ≠ .busy)
    (hhost : s.host = .writeDesc i w :: rest) :
    step s = if i < s.par.descLen then .next { s with host := rest, desc := s.desc.set i w }
      else .fault (.noDescIndex i) :=
  (step_of_host hp hhost).trans (hostMove_of_not_busy _ hp)

/-- Settles O48, by read after write in the one space written. -/
theorem hostMemoryWrites : Obligations.HostMemoryWrites := by
  unfold Obligations.HostMemoryWrites
  intro s a v w rest hp
  refine ⟨fun hhost ha => ?_, fun hhost ha => ?_, fun hhost ha => ?_, fun hhost ha => ?_⟩
  · refine ⟨_, (step_writeRaw hp hhost).trans (if_pos ha), ?_, fun b hb => ?_, rfl⟩
    · simp [State.rawByte]
    · simp [State.rawByte, Memory.get?_set_of_ne _ _ hb]
  · exact (step_writeRaw hp hhost).trans (if_neg (Nat.not_lt.mpr ha))
  · refine ⟨_, (step_writeDesc hp hhost).trans (if_pos ha), ?_, fun b hb => ?_, rfl⟩
    · simp [State.descWord]
    · simp [State.descWord, Memory.get?_set_of_ne _ _ hb]
  · exact (step_writeDesc hp hhost).trans (if_neg (Nat.not_lt.mpr ha))

/-! ### The invariant at reset (R35, R169) -/

/-- Settles O54: in the reset state the spaces are empty, no group is open, no error stands, no packet is held and no
record is listed. -/
theorem resetMeetsInvariant : Obligations.ResetMeetsInvariant := by
  unfold Obligations.ResetMeetsInvariant
  exact
    { memory := ⟨params_wf, rfl, rfl, rfl, rfl, Nat.zero_le _⟩
      decoder := State.groupClosed.decoderOk ⟨rfl, rfl, rfl, rfl, rfl, rfl⟩
      faultRecord := faultRecordOk_of_quiet (by decide) ⟨rfl, rfl, rfl⟩
      packet := packetOk_of_noPacket rfl rfl rfl (.inl rfl) (.inr ⟨rfl, rfl, rfl, rfl, rfl, rfl, rfl, rfl, rfl, rfl⟩)
      result := resultOk_of_empty rfl fun _ => rfl }

end Sys2Proof.Machine

namespace Sys2Proof

/-! ### The decoder as numbers of the word (R59 to R68) -/

/-- A field of a word from its number. -/
theorem slice_eq {w : Word} {lo n : Nat} {x : BitVec n} (h : w.toNat / 2 ^ lo % 2 ^ n = x.toNat) : slice w lo n = x :=
  BitVec.eq_of_toNat_eq ((slice_toNat w lo n).trans h)

theorem slice_eq_zero_iff {w : Word} {lo n : Nat} : slice w lo n = BitVec.ofNat n 0 ↔ w.toNat / 2 ^ lo % 2 ^ n = 0 := by
  rw [← BitVec.toNat_inj, slice_toNat, BitVec.toNat_ofNat, Nat.zero_mod]

/-- Bit `i` of a word from its number. -/
theorem getLsbD_eq_decide (w : Word) (i : Nat) : w.getLsbD i = decide (w.toNat / 2 ^ i % 2 = 1) :=
  Nat.testBit_eq_decide_div_mod_eq

/-- OP is the top field of the word (R59). -/
theorem slice_op_toNat (w : Word) : (slice w 60 4).toNat = w.toNat / 2 ^ 60 := by
  rw [slice_toNat]
  omega

section Formats

variable {w : Word}

theorem decodeWord_illegal (hop : w.toNat / 2 ^ 60 = 0 ∨ 6 ≤ w.toNat / 2 ^ 60) : decodeWord w = .error .illegalOp := by
  obtain hop | hop := hop
  · simp only [decodeWord, slice_op_toNat, hop]
  · obtain ⟨k, hk⟩ := Nat.exists_eq_add_of_le' hop
    simp only [decodeWord, slice_op_toNat, hk]

theorem decodeWord_part (hop : w.toNat / 2 ^ 60 = 1) :
    decodeWord w = if w.toNat / 2 ^ 43 % 2 ^ 17 = 0 then .ok (.part (slice w 0 32) (slice w 32 8) (slice w 40 3))
      else .error .reservedBits := by
  simp only [decodeWord, slice_op_toNat, hop, slice_eq_zero_iff]

theorem decodeWord_field (hop : w.toNat / 2 ^ 60 = 2) :
    decodeWord w = if w.toNat / 2 ^ 49 % 2 ^ 11 = 0 then
        .ok (.field (slice w 32 16) (w.getLsbD 48) (slice w 0 16) (slice w 16 16))
      else .error .reservedBits := by
  simp only [decodeWord, slice_op_toNat, hop, slice_eq_zero_iff]

theorem decodeWord_endList (hop : w.toNat / 2 ^ 60 = 3) :
    decodeWord w = if w.toNat % 2 ^ 60 = 0 then .ok .endList else .error .reservedBits := by
  simp only [decodeWord, slice_op_toNat, hop, slice_eq_zero_iff, pow_zero, Nat.div_one]

theorem decodeWord_rdu (hop : w.toNat / 2 ^ 60 = 4) :
    decodeWord w = if w.toNat / 2 ^ 59 % 2 = 0 ∧ w.toNat / 2 ^ 32 % 2 ^ 8 = 0 then
        .ok (.rdu (slice w 43 16) (slice w 0 32) (slice w 40 3))
      else .error .reservedBits := by
  simp only [decodeWord, slice_op_toNat, hop, slice_eq_zero_iff, pow_one]

theorem decodeWord_rdi (hop : w.toNat / 2 ^ 60 = 5) :
    decodeWord w = if w.toNat / 2 ^ 59 % 2 = 0 ∧ w.toNat / 2 ^ 32 % 2 ^ 8 = 0 then
        .ok (.rdi (slice w 43 16) (slice w 0 32) (slice w 40 3))
      else .error .reservedBits := by
  simp only [decodeWord, slice_op_toNat, hop, slice_eq_zero_iff, pow_one]

end Formats

/-- Settles O1, format by format: the OP and the reserved bits of the encoder's word select the arm, and each operand is
the field of the word it was written to. -/
theorem decodeOfEncode : Obligations.DecodeOfEncode := by
  unfold Obligations.DecodeOfEncode
  intro i
  cases i with
  | part offset mask size =>
    have hw := encode_part_toNat offset mask size
    have hoffset := offset.isLt
    have hmask := mask.isLt
    have hsize := size.isLt
    rw [decodeWord_part (by omega), if_pos (by omega), slice_eq (x := offset) (by omega),
      slice_eq (x := mask) (by omega), slice_eq (x := size) (by omega)]
  | field tag signed mul div =>
    have hw := encode_field_toNat tag signed mul div
    have htag := tag.isLt
    have hmul := mul.isLt
    have hdiv := div.isLt
    have hlt := Bool.toNat_lt signed
    have hsigned : (encode (.field tag signed mul div)).getLsbD 48 = signed := by
      rw [getLsbD_eq_decide, show (encode (.field tag signed mul div)).toNat / 2 ^ 48 % 2 = signed.toNat by omega]
      cases signed <;> rfl
    rw [decodeWord_field (by omega), if_pos (by omega), hsigned, slice_eq (x := tag) (by omega),
      slice_eq (x := mul) (by omega), slice_eq (x := div) (by omega)]
  | endList =>
    have hw := encode_endList_toNat
    rw [decodeWord_endList (by omega), if_pos (by omega)]
  | rdu tag offset size =>
    have hw := encode_rdu_toNat tag offset size
    have htag := tag.isLt
    have hoffset := offset.isLt
    have hsize := size.isLt
    rw [decodeWord_rdu (by omega), if_pos (by omega), slice_eq (x := tag) (by omega),
      slice_eq (x := offset) (by omega), slice_eq (x := size) (by omega)]
  | rdi tag offset size =>
    have hw := encode_rdi_toNat tag offset size
    have htag := tag.isLt
    have hoffset := offset.isLt
    have hsize := size.isLt
    rw [decodeWord_rdi (by omega), if_pos (by omega), slice_eq (x := tag) (by omega),
      slice_eq (x := offset) (by omega), slice_eq (x := size) (by omega)]

/-! ### What a word decodes to, said once -/

/-- A reserved bit of the format that the OP of `w` selects is 1 (R68). -/
def ReservedBitSet (w : Word) : Prop :=
  (w.toNat / 2 ^ 60 = 1 ∧ w.toNat / 2 ^ 43 % 2 ^ 17 ≠ 0) ∨
  (w.toNat / 2 ^ 60 = 2 ∧ w.toNat / 2 ^ 49 % 2 ^ 11 ≠ 0) ∨
  (w.toNat / 2 ^ 60 = 3 ∧ w.toNat % 2 ^ 60 ≠ 0) ∨
  ((w.toNat / 2 ^ 60 = 4 ∨ w.toNat / 2 ^ 60 = 5) ∧ (w.toNat / 2 ^ 59 % 2 ≠ 0 ∨ w.toNat / 2 ^ 32 % 2 ^ 8 ≠ 0))

/-- The decoder's answers for `w`, each with the OP and the reserved bits it stands for. -/
inductive DecodesTo (w : Word) : Except DecodeReject Instr → Prop
  | illegalOp (hop : w.toNat / 2 ^ 60 = 0 ∨ 6 ≤ w.toNat / 2 ^ 60) : DecodesTo w (.error .illegalOp)
  | reservedBits (hset : ReservedBitSet w) : DecodesTo w (.error .reservedBits)
  | part (hop : w.toNat / 2 ^ 60 = 1) (hclear : w.toNat / 2 ^ 43 % 2 ^ 17 = 0) :
    DecodesTo w (.ok (.part (slice w 0 32) (slice w 32 8) (slice w 40 3)))
  | field (hop : w.toNat / 2 ^ 60 = 2) (hclear : w.toNat / 2 ^ 49 % 2 ^ 11 = 0) :
    DecodesTo w (.ok (.field (slice w 32 16) (w.getLsbD 48) (slice w 0 16) (slice w 16 16)))
  | endList (hop : w.toNat / 2 ^ 60 = 3) (hclear : w.toNat % 2 ^ 60 = 0) : DecodesTo w (.ok .endList)
  | rdu (hop : w.toNat / 2 ^ 60 = 4) (hclear : w.toNat / 2 ^ 59 % 2 = 0 ∧ w.toNat / 2 ^ 32 % 2 ^ 8 = 0) :
    DecodesTo w (.ok (.rdu (slice w 43 16) (slice w 0 32) (slice w 40 3)))
  | rdi (hop : w.toNat / 2 ^ 60 = 5) (hclear : w.toNat / 2 ^ 59 % 2 = 0 ∧ w.toNat / 2 ^ 32 % 2 ^ 8 = 0) :
    DecodesTo w (.ok (.rdi (slice w 43 16) (slice w 0 32) (slice w 40 3)))

theorem decodesTo_decodeWord (w : Word) : DecodesTo w (decodeWord w) := by
  have hops : (w.toNat / 2 ^ 60 = 0 ∨ 6 ≤ w.toNat / 2 ^ 60) ∨ w.toNat / 2 ^ 60 = 1 ∨ w.toNat / 2 ^ 60 = 2 ∨
      w.toNat / 2 ^ 60 = 3 ∨ w.toNat / 2 ^ 60 = 4 ∨ w.toNat / 2 ^ 60 = 5 := by omega
  obtain hop | hop | hop | hop | hop | hop := hops
  · rw [decodeWord_illegal hop]
    exact .illegalOp hop
  · rw [decodeWord_part hop]
    split
    · next hclear => exact .part hop hclear
    · next hset => exact .reservedBits (.inl ⟨hop, hset⟩)
  · rw [decodeWord_field hop]
    split
    · next hclear => exact .field hop hclear
    · next hset => exact .reservedBits (.inr (.inl ⟨hop, hset⟩))
  · rw [decodeWord_endList hop]
    split
    · next hclear => exact .endList hop hclear
    · next hset => exact .reservedBits (.inr (.inr (.inl ⟨hop, hset⟩)))
  · rw [decodeWord_rdu hop]
    split
    · next hclear => exact .rdu hop hclear
    · next hset => exact .reservedBits (.inr (.inr (.inr ⟨.inl hop, not_and_or.mp hset⟩)))
  · rw [decodeWord_rdi hop]
    split
    · next hclear => exact .rdi hop hclear
    · next hset => exact .reservedBits (.inr (.inr (.inr ⟨.inr hop, not_and_or.mp hset⟩)))

theorem decodesTo_of_eq {w : Word} {x : Except DecodeReject Instr} (h : decodeWord w = x) : DecodesTo w x :=
  h ▸ decodesTo_decodeWord w

/-- A word that decodes has every reserved bit of its format clear. -/
theorem DecodesTo.not_reservedBitSet {w : Word} {i : Instr} (h : DecodesTo w (.ok i)) : ¬ReservedBitSet w := by
  unfold ReservedBitSet
  cases h with
  | part hop hclear => omega
  | field hop hclear => omega
  | endList hop hclear => omega
  | rdu hop hclear => omega
  | rdi hop hclear => omega

/-- A reserved bit belongs to a format, so the OP is legal. -/
theorem ReservedBitSet.op_range {w : Word} (h : ReservedBitSet w) : 1 ≤ w.toNat / 2 ^ 60 ∧ w.toNat / 2 ^ 60 ≤ 5 := by
  unfold ReservedBitSet at h
  omega

theorem decodeWord_illegalOp_iff (w : Word) :
    decodeWord w = .error .illegalOp ↔ w.toNat / 2 ^ 60 = 0 ∨ 6 ≤ w.toNat / 2 ^ 60 := by
  refine ⟨fun h => ?_, decodeWord_illegal⟩
  cases decodesTo_of_eq h with
  | illegalOp hop => exact hop

theorem decodeWord_reservedBits_iff (w : Word) : decodeWord w = .error .reservedBits ↔ ReservedBitSet w := by
  refine ⟨fun h => ?_, fun hset => ?_⟩
  · cases decodesTo_of_eq h with
    | reservedBits hset => exact hset
  · match h : decodeWord w with
    | .error .reservedBits => rfl
    | .error .illegalOp =>
      have hop := (decodeWord_illegalOp_iff w).mp h
      have hlegal := hset.op_range
      omega
    | .ok i => exact absurd hset (decodesTo_of_eq h).not_reservedBitSet

/-- Settles O2: the OP, the reserved bits and the operands of a format make up the word. -/
theorem encodeOfDecode : Obligations.EncodeOfDecode := by
  unfold Obligations.EncodeOfDecode
  intro w i h
  apply BitVec.eq_of_toNat_eq
  cases decodesTo_of_eq h with
  | part hop hclear =>
    simp only [encode_part_toNat, slice_toNat]
    omega
  | field hop hclear =>
    have hsigned : (w.getLsbD 48).toNat = w.toNat / 2 ^ 48 % 2 := Nat.toNat_testBit w.toNat 48
    simp only [encode_field_toNat, slice_toNat, hsigned]
    omega
  | endList hop hclear =>
    rw [encode_endList_toNat]
    omega
  | rdu hop hclear =>
    simp only [encode_rdu_toNat, slice_toNat]
    omega
  | rdi hop hclear =>
    simp only [encode_rdi_toNat, slice_toNat]
    omega

/-- Settles O3: each answer of the decoder stands for its OP. -/
theorem opAloneSelects : Obligations.OpAloneSelects := by
  unfold Obligations.OpAloneSelects
  refine ⟨decodeWord_illegalOp_iff, fun w i h => ?_, by decide, by decide⟩
  cases decodesTo_of_eq h with
  | part hop => exact hop
  | field hop => exact hop
  | endList hop => exact hop
  | rdu hop => exact hop
  | rdi hop => exact hop

/-- Settles O4, which writes out `ReservedBitSet`. -/
theorem reservedBitsRejected : Obligations.ReservedBitsRejected :=
  decodeWord_reservedBits_iff

/-- Settles O5: an operand is a slice of the word, which is a field of its number. -/
theorem operandsAreWordFields : Obligations.OperandsAreWordFields := by
  unfold Obligations.OperandsAreWordFields
  intro w i h
  have hlow : ∀ n, (slice w 0 n).toNat = w.toNat % 2 ^ n := fun n => by rw [slice_toNat, pow_zero, Nat.div_one]
  cases decodesTo_of_eq h with
  | part hop hclear => exact ⟨hlow 32, slice_toNat w 32 8, slice_toNat w 40 3⟩
  | field hop hclear =>
    exact ⟨hlow 16, slice_toNat w 16 16, slice_toNat w 32 16, by rw [getLsbD_eq_decide, decide_eq_true_eq]⟩
  | endList hop hclear =>
    dsimp only
    omega
  | rdu hop hclear => exact ⟨hlow 32, slice_toNat w 40 3, slice_toNat w 43 16⟩
  | rdi hop hclear => exact ⟨hlow 32, slice_toNat w 40 3, slice_toNat w 43 16⟩

/-- Settles O6, by running the decoder on the five words. -/
theorem sampleWordsDecode : Obligations.SampleWordsDecode := by
  unfold Obligations.SampleWordsDecode
  decide

end Sys2Proof

namespace Sys2Proof.Machine

/-! ### DescriptorError (R68, R156, R161) -/

theorem exec_of_ok {i : Instr} {s t : State} (h : wordEffect i s = .ok t) : exec i s = .next t := by
  rw [exec_eq_complete, h, complete_ok]

theorem exec_of_error {i : Instr} {s : State} {r : Raise} (h : wordEffect i s = .error r) :
    exec i s = .next (s.raise r) := by
  rw [exec_eq_complete, h, complete_error]

/-- Fault entry by DescriptorError, written out. -/
theorem State.raise_descriptorError (s : State) (sub : BitVec 8) :
    s.raise (descriptorError sub s) = s.faulted 8 sub s.dpc := rfl

theorem decodeStep_of_overrun {s : State} (h : s.par.descLen ≤ s.dpc.toNat) :
    decodeStep s = .next (s.raise (descriptorError 10 s)) := by
  simp only [decodeStep, fetch_of_le h]

theorem decodeStep_of_reject {s : State} {e : DecodeReject} (h : s.dpc.toNat < s.par.descLen)
    (he : decodeWord (s.descWord s.dpc.toNat) = .error e) :
    decodeStep s = .next (s.raise (descriptorError e.sub s)) := by
  simp only [decodeStep, fetch_of_lt h, he]

theorem decodeStep_of_decodes {s : State} {i : Instr} (h : s.dpc.toNat < s.par.descLen)
    (hi : decodeWord (s.descWord s.dpc.toNat) = .ok i) : decodeStep s = exec i s := by
  simp only [decodeStep, fetch_of_lt h, hi]

/-- Settles O8: Overrun, IllegalOp and ReservedBits are the three ways a step of the decode loop finds no instruction. -/
theorem illegalWordFaults : Obligations.IllegalWordFaults := by
  unfold Obligations.IllegalWordFaults
  intro s hbusy
  simp only [step_of_busy hbusy, ← State.raise_descriptorError]
  exact ⟨decodeStep_of_overrun, decodeStep_of_reject, decodeStep_of_reject⟩

/-! ### Contiguous masks (R61, R106, R107) -/

theorem maskContiguous_iff {mask : BitVec 8} :
    maskContiguous mask = true ↔ ∃ k sh : Nat, 1 ≤ k ∧ sh + k ≤ 8 ∧ mask.toNat = (2 ^ k - 1) * 2 ^ sh := by
  simp only [maskContiguous, List.any_eq_true, List.mem_range, beq_iff_eq]
  constructor
  · rintro ⟨j, hj, sh, hsh, hmask⟩
    exact ⟨j + 1, sh, by omega, by omega, hmask⟩
  · rintro ⟨k, sh, hk, hfit, hmask⟩
    exact ⟨k - 1, by omega, sh, by omega, by rwa [Nat.sub_add_cancel hk]⟩

/-- `((1 << k) - 1) << sh` as a byte. -/
def runMask (k sh : Nat) : BitVec 8 :=
  BitVec.ofNat 8 ((2 ^ k - 1) * 2 ^ sh)

/-- A run of `k` bits from bit `sh` on, in a byte: its number, how many bits it selects, and where it begins. -/
theorem runMask_bits {k sh : Nat} (hk : 1 ≤ k) (hfit : sh + k ≤ 8) :
    (runMask k sh).toNat = (2 ^ k - 1) * 2 ^ sh ∧ popcount (runMask k sh) = k ∧ trailingZeros (runMask k sh) = sh := by
  have hall : ∀ (k : Fin 9) (sh : Fin 8), 1 ≤ k.val → sh.val + k.val ≤ 8 →
      (runMask k sh).toNat = (2 ^ k.val - 1) * 2 ^ sh.val ∧ popcount (runMask k sh) = k ∧
        trailingZeros (runMask k sh) = sh := by decide
  exact hall ⟨k, by omega⟩ ⟨sh, by omega⟩ hk hfit

/-- Masking with a run of bits and shifting it down takes the run out of a number. -/
theorem and_run_shiftRight (u k sh : Nat) : (u &&& (2 ^ k - 1) * 2 ^ sh) >>> sh = u / 2 ^ sh % 2 ^ k := by
  rw [Nat.shiftRight_and_distrib, ← Nat.shiftLeft_eq, Nat.shiftLeft_shiftRight, Nat.and_two_pow_sub_one_eq_mod,
    Nat.shiftRight_eq_div_pow]

/-- Settles O10: the bits of the 36 masks are counted, and what a mask takes out of a byte is arithmetic. -/
theorem maskSelectsBits : Obligations.MaskSelectsBits := by
  unfold Obligations.MaskSelectsBits
  refine ⟨fun k sh hk hfit => ?_, fun mask h => maskContiguous_iff.mp h⟩
  obtain ⟨hnum, hcount, hlow⟩ := runMask_bits hk hfit
  refine ⟨maskContiguous_iff.mpr ⟨k, sh, hk, hfit, hnum⟩, hcount, fun b => ?_⟩
  calc partValue (runMask k sh) 1 b.toNat
      = (b.toNat &&& (runMask k sh).toNat) >>> trailingZeros (runMask k sh) := rfl
    _ = (b.toNat &&& (2 ^ k - 1) * 2 ^ sh) >>> sh := by rw [hnum, hlow]
    _ = b.toNat / 2 ^ sh % 2 ^ k := and_run_shiftRight b.toNat k sh

/-! ### The checks of PART (R68, R121, R160) -/

section PartChecks

variable {offset : BitVec 32} {mask : BitVec 8} {size : BitVec 3} {s : State}

theorem partWord_of_badSize (h : sizeLegal size = false) :
    partWord offset mask size s = .error (descriptorError 3 s) :=
  if_pos h

theorem partWord_of_badMask (hsize : size.toNat = 1) (hmask : maskContiguous mask = false) :
    partWord offset mask size s = .error (descriptorError 4 s) := by
  simp [partWord, sizeLegal, hsize, hmask]

theorem partWord_of_badWideMask (hsize : sizeLegal size = true) (hwide : size.toNat ≠ 1) (hmask : mask ≠ 0xFF#8) :
    partWord offset mask size s = .error (descriptorError 5 s) := by
  simp [partWord, hsize, hwide, hmask]

/-- A legal part passes the checks of PART but for that of the group's width. -/
theorem partWord_of_legal (h : partLegal mask size = true) :
    partWord offset mask size s =
      if s.accw.toNat + partWidth mask size > 48 then .error (descriptorError 6 s)
      else .ok (countPart (partWidth mask size) (latchPart offset mask size s)).advance := by
  have hsize : sizeLegal size = true := (Bool.and_eq_true_iff.mp h).1
  obtain ⟨hone, hmask⟩ | ⟨hwide, hmask⟩ := partLegal_cases h
  · simp [partWord, hsize, hone, hmask]
  · have hne : size.toNat ≠ 1 := by omega
    simp [partWord, hsize, hne, hmask]

end PartChecks

/-- Settles O13: the checks of PART in the order of R160, each with its own sub-code. -/
theorem illFormedPartFaults : Obligations.IllFormedPartFaults := by
  unfold Obligations.IllFormedPartFaults
  intro p s
  have hfault : ∀ sub, partWord p.offset p.mask p.size s = .error (descriptorError sub s) →
      exec (.part p.offset p.mask p.size) s = .next (s.faulted 8 sub s.dpc) := fun sub h => by
    rw [exec_of_error (i := .part p.offset p.mask p.size) h, State.raise_descriptorError]
  refine ⟨fun hsize => ?_, fun hone hmask => ?_, fun hwide hmask => ?_, fun hlegal hwidth => ?_⟩
  · exact hfault 3 (partWord_of_badSize (Bool.eq_false_iff.mpr fun h => hsize (sizeLegal_iff.mp h)))
  · exact hfault 4 (partWord_of_badMask hone (Bool.eq_false_iff.mpr fun h => hmask (maskContiguous_iff.mp h)))
  · exact hfault 5 (partWord_of_badWideMask (sizeLegal_iff.mpr (.inr hwide)) (by omega) hmask)
  · exact hfault 6 ((partWord_of_legal hlegal).trans (if_pos hwidth))

/-! ### Emitting a record (R128) -/

/-- What `emit` leaves in RES, in a state `t` reached by appending `r` to the results of `s`: one more record. -/
structure Emits (s : State) (r : Record) (t : State) : Prop where
  last : t.res.get? s.resCount.toNat = some r
  count : t.resCount.toNat = s.resCount.toNat + 1
  others : ∀ j, j ≠ s.resCount.toNat → t.res.get? j = s.res.get? j

/-- With room in RES, RES_COUNT does not wrap: RES_CAP is at most 2^16 (R11, R28). -/
theorem resCount_add_one_of_lt {s : State} (hpar : s.par.wf = true) (hroom : s.resCount.toNat < s.par.resCap) :
    (s.resCount + 1).toNat = s.resCount.toNat + 1 := by
  simp only [Params.wf, decide_eq_true_eq] at hpar
  bv_omega

theorem emits_of_append {s t : State} {r : Record} (hpar : s.par.wf = true) (hroom : s.resCount.toNat < s.par.resCap)
    (hres : t.res = s.res.set s.resCount.toNat r) (hcount : t.resCount = s.resCount + 1) : Emits s r t where
  last := by rw [hres, Memory.get?_set_self]
  count := by rw [hcount, resCount_add_one_of_lt hpar hroom]
  others := fun j hj => by rw [hres, Memory.get?_set_of_ne _ _ hj]

/-! ### FIELD and the direct reads when they raise nothing (R83, R84, R123) -/

section Emitting

variable {s : State}

theorem fieldWord_of_absent {tag : BitVec 16} {signed : Bool} {mul div : BitVec 16} (hnparts : s.nparts ≠ 0#6)
    (hdiv : div ≠ 0#16) (habs : s.abs = true) (hroom : s.resCount.toNat ≠ s.par.resCap) :
    fieldWord tag signed mul div s =
      .ok (((s.append (absentRecord tag div)).setFlag .absent).clearGroup).advance := by
  simp [fieldWord, hnparts, hdiv, habs, emit_of_ne hroom]

theorem fieldWord_of_inRange {tag : BitVec 16} {signed : Bool} {mul div : BitVec 16} (hnparts : s.nparts ≠ 0#6)
    (hdiv : div ≠ 0#16) (habs : s.abs = false) (hoobp : s.oobp = false) (hroom : s.resCount.toNat ≠ s.par.resCap) :
    fieldWord tag signed mul div s =
      .ok ((s.append (fieldRecord tag signed mul div s.accw.toNat s.acc.toNat)).clearGroup).advance := by
  simp [fieldWord, hnparts, hdiv, habs, hoobp, emit_of_ne hroom]

theorem readWord_of_some {tag : BitVec 16} {size : BitVec 3} {v : Int} (hsize : sizeLegal size = true)
    (hnparts : s.nparts = 0#6) (hroom : s.resCount.toNat ≠ s.par.resCap) :
    readWord tag size (some v) s = .ok (s.append (readRecord tag size v)).advance := by
  simp [readWord, hsize, hnparts, emit_of_ne hroom]

/-- A read inside PAY (R79). -/
theorem State.readUInt_of_inRange {offset : BitVec 32} {n : Nat} (h : offset.toNat + n ≤ s.payLen.toNat) :
    s.readUInt offset n = some (leNat s.payByte offset.toNat n) :=
  readUInt_eq_some.mpr ⟨h, rfl⟩

theorem State.readInt_of_inRange {offset : BitVec 32} {n : Nat} (h : offset.toNat + n ≤ s.payLen.toNat) :
    s.readInt offset n = some (readerSign n (leNat s.payByte offset.toNat n)) :=
  congrArg (Option.map (readerSign n)) (State.readUInt_of_inRange h)

end Emitting

/-- Settles O15: FIELD looks at ABS before OOBP, and sets STATUS.ABSENT beside the record. -/
theorem fieldEmitsAbsent : Obligations.FieldEmitsAbsent := by
  unfold Obligations.FieldEmitsAbsent
  intro tag signed mul div s hpar hnparts hdiv habs hroom
  refine ⟨(((s.append (absentRecord tag div)).setFlag .absent).clearGroup).advance,
    exec_of_ok (fieldWord_of_absent hnparts hdiv habs hroom.ne), ?_⟩
  obtain ⟨hlast, hcount, hothers⟩ := emits_of_append (r := absentRecord tag div) hpar hroom
    (t := (((s.append (absentRecord tag div)).setFlag .absent).clearGroup).advance) rfl rfl
  exact ⟨hlast, hcount, hothers, getLsbD_or_flag s.status .absent, rfl⟩

/-- A direct read of `v`: one READ record more, DPC past the word, nothing else changed. -/
theorem readWord_emits {s : State} {size : BitVec 3} (tag : BitVec 16) (v : Int) (hpar : s.par.wf = true)
    (hsize : size.toNat = 1 ∨ size.toNat = 2 ∨ size.toNat = 4 ∨ size.toNat = 6) (hnparts : s.nparts = 0#6)
    (hroom : s.resCount.toNat < s.par.resCap) :
    ∃ t, readWord tag size (some v) s = .ok t ∧ Emits s (readRecord tag size v) t ∧
      t = { s with res := t.res, resCount := t.resCount, dpc := s.dpc + 1 } :=
  ⟨_, readWord_of_some (sizeLegal_iff.mpr hsize) hnparts hroom.ne, emits_of_append hpar hroom rfl rfl, rfl⟩

/-- Settles O21: the Byte Reader gives the little-endian sum, and the word emits it. -/
theorem rduEmitsUnsigned : Obligations.RduEmitsUnsigned := by
  unfold Obligations.RduEmitsUnsigned
  intro tag offset size s hpar hsize hnparts hrange hroom
  have hu := State.readUInt_of_inRange hrange
  generalize hsum : leNat s.payByte offset.toNat size.toNat = u at hu
  obtain ⟨t, hread, ⟨hlast, hcount, hothers⟩, hframe⟩ := readWord_emits tag u hpar hsize hnparts hroom
  have heffect : wordEffect (.rdu tag offset size) s = .ok t := by
    rw [wordEffect, hu]
    exact hread
  exact ⟨t, u, exec_of_ok heffect, hsum ▸ leNat_eq_sum _ _ _, hlast, hcount, hothers, hframe⟩

/-- The Byte Reader's sign rule on the numbers `n` bytes hold (R80). -/
theorem readerSign_eq {n u : Nat} (hu : u < 256 ^ n) :
    readerSign n u = if n = 1 ∧ 128 ≤ u then (u : Int) - 256 else if n = 2 ∧ 32768 ≤ u then (u : Int) - 65536 else u := by
  unfold readerSign
  by_cases hone : n = 1
  · subst hone
    have hbyte := signCorrect_eq (signed := true) (w := 8) (by decide) hu
    simpa [signCorrect] using hbyte
  by_cases htwo : n = 2
  · subst htwo
    have hpair := signCorrect_eq (signed := true) (w := 16) (by decide) hu
    simpa [signCorrect] using hpair
  · simp [hone, htwo]

/-- Settles O22: as O21, with the sign rule applied to the sum. -/
theorem rdiEmitsSigned : Obligations.RdiEmitsSigned := by
  unfold Obligations.RdiEmitsSigned
  intro tag offset size s hpar hsize hnparts hrange hroom
  have hv := State.readInt_of_inRange hrange
  have hlt := leNat_lt s.payByte offset.toNat size.toNat
  generalize hsum : leNat s.payByte offset.toNat size.toNat = u at hv hlt
  obtain ⟨t, hread, ⟨hlast, hcount, hothers⟩, hframe⟩ :=
    readWord_emits tag (readerSign size.toNat u) hpar hsize hnparts hroom
  have heffect : wordEffect (.rdi tag offset size) s = .ok t := by
    rw [wordEffect, hv]
    exact hread
  exact ⟨t, u, _, exec_of_ok heffect, hsum ▸ leNat_eq_sum _ _ _, readerSign_eq hlt, hlast, hcount, hothers, hframe⟩

end Sys2Proof.Machine

namespace Sys2Proof.Machine

/-! ### Descriptor lists in DESC (R59, R70, R116) -/

section HoldsList

variable {s t : State}

/-- A list in DESC is its first word and, from the next index on, the words after it. -/
theorem State.holdsList_cons {i : Nat} {x : Instr} {l : List Instr} :
    s.holdsList i (x :: l) ↔ i < s.par.descLen ∧ s.descWord i = encode x ∧ s.holdsList (i + 1) l := by
  constructor
  · rintro ⟨hlen, hwords⟩
    rw [List.length_cons] at hlen
    refine ⟨by omega, hwords 0 (by simp), by omega, fun k hk => ?_⟩
    have hword := hwords (k + 1) (by simpa using hk)
    rwa [List.getElem_cons_succ, ← Nat.add_assoc, Nat.add_right_comm] at hword
  · rintro ⟨hlt, hfirst, hlen, hwords⟩
    refine ⟨by rw [List.length_cons]; omega, fun k hk => ?_⟩
    cases k with
    | zero => exact hfirst
    | succ k =>
      rw [List.getElem_cons_succ, ← hwords k (by simpa using hk), Nat.add_assoc, Nat.add_comm 1]

/-- `holdsList` reads the parameters and DESC alone. -/
theorem State.holdsList.of_same_desc {i : Nat} {l : List Instr} (h : s.holdsList i l) (hpar : t.par = s.par)
    (hdesc : t.desc = s.desc) : t.holdsList i l := by
  simpa only [State.holdsList, State.descWord, hpar, hdesc] using h

/-- In BUSY a step runs the first word of the list that stands at DPC. -/
theorem step_of_holdsList {x : Instr} {l : List Instr} (hbusy : s.phase = .busy)
    (h : s.holdsList s.dpc.toNat (x :: l)) : step s = exec x s := by
  obtain ⟨hlt, hword, -⟩ := State.holdsList_cons.mp h
  rw [step_of_busy hbusy]
  exact decodeStep_of_decodes hlt (hword ▸ decodeOfEncode x)

/-- DPC does not wrap on an index of DESC: DESC_LEN is at most 2^31 (R11). -/
theorem dpc_add_toNat {n : Nat} (hpar : s.par.wf = true) (h : s.dpc.toNat + n ≤ s.par.descLen) :
    (s.dpc + BitVec.ofNat 32 n).toNat = s.dpc.toNat + n := by
  simp only [Params.wf, decide_eq_true_eq] at hpar
  rw [BitVec.toNat_add, BitVec.toNat_ofNat, Nat.add_mod_mod, Nat.mod_eq_of_lt (by omega)]

end HoldsList

/-! ### The composed value (R106 to R110) -/

section Composition

variable {ps : List FieldPart} (hlegal : ∀ p ∈ ps, partLegal p.mask p.size = true)

include hlegal

/-- Every part is at least one bit wide. -/
theorem length_le_composedWidth : ps.length ≤ composedWidth ps := by
  induction ps with
  | nil => exact Nat.le_refl 0
  | cons p ps ih =>
    obtain ⟨hp, hps⟩ := List.forall_mem_cons.mp hlegal
    have hpos : 1 ≤ p.pw := partWidth_pos hp
    have hle := ih hps
    simp only [List.length_cons, composedWidth]
    omega

/-- The composed value fits in the composed width. -/
theorem composeFrom_zero_lt (P : Nat → Byte) : composeFrom P 0 ps < 2 ^ composedWidth ps := by
  induction ps with
  | nil => exact Nat.one_pos
  | cons p ps ih =>
    obtain ⟨hp, hps⟩ := List.forall_mem_cons.mp hlegal
    have hpv : p.pv P < 2 ^ p.pw := partValue_lt hp (leNat_lt P p.offset.toNat p.size.toNat)
    calc composeFrom P 0 (p :: ps)
        = p.pv P + composeFrom P 0 ps * 2 ^ p.pw := by
          rw [composeFrom, composeFrom_eq_mul P (0 + p.pw), Nat.shiftLeft_zero, Nat.zero_add]
      _ < (composeFrom P 0 ps + 1) * 2 ^ p.pw := by linarith
      _ ≤ 2 ^ composedWidth ps * 2 ^ p.pw := Nat.mul_le_mul_right _ (ih hps)
      _ = 2 ^ composedWidth (p :: ps) := by rw [composedWidth, ← pow_add, Nat.add_comm]

end Composition

/-- What `FieldSpec.wf` says. -/
theorem FieldSpec.wf_iff {f : FieldSpec} :
    f.wf = true ↔ f.parts ≠ [] ∧ (∀ p ∈ f.parts, partLegal p.mask p.size = true) ∧ composedWidth f.parts ≤ 48 ∧
      f.div ≠ 0#16 := by
  simp [FieldSpec.wf, and_assoc]

/-! ### A run of PART words in range (R71, R108, R121) -/

/-- The state after the PART words of `ps`, all in range: the parts' values added above the bits composed before. -/
def State.afterParts (ps : List FieldPart) (s : State) : State :=
  { s with
    acc := s.acc + BitVec.ofNat 48 (composeFrom s.payByte s.accw.toNat ps)
    accw := s.accw + BitVec.ofNat 6 (composedWidth ps)
    nparts := s.nparts + BitVec.ofNat 6 ps.length
    dpc := s.dpc + BitVec.ofNat 32 ps.length }

section Parts

variable {s : State} {p : FieldPart} {ps : List FieldPart}

theorem accw_add_toNat {w : Nat} (h : s.accw.toNat + w ≤ 48) : (s.accw + BitVec.ofNat 6 w).toNat = s.accw.toNat + w := by
  rw [BitVec.toNat_add, BitVec.toNat_ofNat]
  omega

theorem State.afterParts_acc (s : State) (ps : List FieldPart) :
    (s.afterParts ps).acc = s.acc + BitVec.ofNat 48 (composeFrom s.payByte s.accw.toNat ps) := rfl

theorem State.afterParts_accw (s : State) (ps : List FieldPart) :
    (s.afterParts ps).accw = s.accw + BitVec.ofNat 6 (composedWidth ps) := rfl

theorem State.afterParts_nparts (s : State) (ps : List FieldPart) :
    (s.afterParts ps).nparts = s.nparts + BitVec.ofNat 6 ps.length := rfl

theorem State.afterParts_dpc (s : State) (ps : List FieldPart) :
    (s.afterParts ps).dpc = s.dpc + BitVec.ofNat 32 ps.length := rfl

theorem State.payByte_afterParts (s : State) (ps : List FieldPart) : (s.afterParts ps).payByte = s.payByte := rfl

theorem State.afterParts_nil (s : State) : s.afterParts [] = s := by
  apply State.ext <;> simp [State.afterParts, composeFrom, composedWidth]

theorem State.afterParts_singleton_accw (h : s.accw.toNat + p.pw ≤ 48) :
    (s.afterParts [p]).accw.toNat = s.accw.toNat + p.pw :=
  accw_add_toNat h

/-- The first part, then the others above its bits. -/
theorem State.afterParts_cons (h : s.accw.toNat + p.pw ≤ 48) :
    s.afterParts (p :: ps) = (s.afterParts [p]).afterParts ps := by
  have haccw := State.afterParts_singleton_accw h
  apply State.ext
  case acc =>
    rw [State.afterParts_acc, State.afterParts_acc, State.payByte_afterParts, haccw, State.afterParts_acc]
    simp [composeFrom, BitVec.ofNat_add, BitVec.add_assoc]
  case accw =>
    rw [State.afterParts_accw, State.afterParts_accw, State.afterParts_accw]
    simp [composedWidth, BitVec.ofNat_add, BitVec.add_assoc]
  case nparts =>
    rw [State.afterParts_nparts, State.afterParts_nparts, State.afterParts_nparts, List.length_cons, Nat.add_comm,
      BitVec.ofNat_add, BitVec.add_assoc]
    rfl
  case dpc =>
    rw [State.afterParts_dpc, State.afterParts_dpc, State.afterParts_dpc, List.length_cons, Nat.add_comm,
      BitVec.ofNat_add, BitVec.add_assoc]
    rfl
  all_goals rfl

/-- A legal part in range adds its value and its width to the group. -/
theorem partWord_of_inRange (hlegal : partLegal p.mask p.size = true) (hfit : s.accw.toNat + p.pw ≤ 48)
    (hrange : p.offset.toNat + p.size.toNat ≤ s.payLen.toNat) : wordEffect p.word s = .ok (s.afterParts [p]) := by
  have hsize : 1 ≤ p.size.toNat := by
    have := partLegal_cases hlegal
    omega
  have hlatch : latchPart p.offset p.mask p.size s =
      { s with acc := s.acc + BitVec.ofNat 48 (p.pv s.payByte <<< s.accw.toNat) } := by
    obtain ⟨hout, -⟩ | ⟨-, hout, -⟩ | ⟨-, -, hlatch⟩ := latchPart_cases p.offset p.mask p.size s
    · omega
    · omega
    · exact hlatch
  calc wordEffect p.word s
      = .ok (countPart p.pw (latchPart p.offset p.mask p.size s)).advance :=
        (partWord_of_legal hlegal).trans (if_neg (Nat.not_lt.mpr hfit))
    _ = .ok (s.afterParts [p]) := by rw [hlatch]; rfl

/-- The PART words of a group's parts, run from inside the group (R71, R108). -/
theorem run_parts {rest : List Instr} (hlegal : ∀ p ∈ ps, partLegal p.mask p.size = true) (hbusy : s.phase = .busy)
    (hpar : s.par.wf = true) (hfit : s.accw.toNat + composedWidth ps ≤ 48)
    (hrange : ∀ p ∈ ps, p.offset.toNat + p.size.toNat ≤ s.payLen.toNat)
    (hlist : s.holdsList s.dpc.toNat (ps.map FieldPart.word ++ rest)) :
    Sys2Proof.core.run ps.length s = .next (s.afterParts ps) ∧
      (s.afterParts ps).holdsList (s.afterParts ps).dpc.toNat rest := by
  induction ps generalizing s with
  | nil =>
    rw [State.afterParts_nil]
    exact ⟨rfl, hlist⟩
  | cons p ps ih =>
    obtain ⟨hp, hps⟩ := List.forall_mem_cons.mp hlegal
    obtain ⟨hrangep, hrangeps⟩ := List.forall_mem_cons.mp hrange
    obtain ⟨hlt, -, htail⟩ := State.holdsList_cons.mp hlist
    rw [composedWidth] at hfit
    have hstep : step s = .next (s.afterParts [p]) :=
      (step_of_holdsList hbusy hlist).trans (exec_of_ok (partWord_of_inRange hp (by omega) hrangep))
    have haccw : (s.afterParts [p]).accw.toNat = s.accw.toNat + p.pw := State.afterParts_singleton_accw (by omega)
    have hdpc : (s.afterParts [p]).dpc.toNat = s.dpc.toNat + 1 := dpc_add_toNat hpar hlt
    have htail' : (s.afterParts [p]).holdsList (s.afterParts [p]).dpc.toNat (ps.map FieldPart.word ++ rest) := by
      rw [hdpc]
      exact htail.of_same_desc rfl rfl
    rw [State.afterParts_cons (by omega), List.length_cons, run_succ_of_step hstep]
    exact ih hps hbusy hpar (by omega) hrangeps htail'

/-- After the parts of a whole group the registers hold the composed value, its width and how many parts there were. -/
theorem State.groupClosed.afterParts (h : s.groupClosed) (hlegal : ∀ p ∈ ps, partLegal p.mask p.size = true)
    (hwidth : composedWidth ps ≤ 48) :
    (s.afterParts ps).acc.toNat = compose s.payByte ps ∧ (s.afterParts ps).accw.toNat = composedWidth ps ∧
      (s.afterParts ps).nparts.toNat = ps.length := by
  obtain ⟨hacc, haccw, hnparts, -, -, -⟩ := h
  have hlt : composeFrom s.payByte 0 ps < 2 ^ 48 :=
    (composeFrom_zero_lt hlegal s.payByte).trans_le (Nat.pow_le_pow_right (by decide) hwidth)
  have hlen := length_le_composedWidth hlegal
  rw [State.afterParts_acc, State.afterParts_accw, State.afterParts_nparts, hacc, haccw, hnparts]
  simp only [BitVec.zero_add, BitVec.toNat_ofNat, Nat.zero_mod, compose]
  exact ⟨Nat.mod_eq_of_lt hlt, Nat.mod_eq_of_lt (by omega), Nat.mod_eq_of_lt (by omega)⟩

end Parts

/-- Settles O32: the PART words leave the composed value and its width in the group's registers, and FIELD emits the record
of these and closes the group. -/
theorem fieldGroupEmitsComposedValue : Obligations.FieldGroupEmitsComposedValue := by
  unfold Obligations.FieldGroupEmitsComposedValue
  intro f s hwf hbusy hclosed hpar hlist hroom hrange
  obtain ⟨hne, hlegal, hwidth, hdiv⟩ := FieldSpec.wf_iff.mp hwf
  obtain ⟨hacc, haccw, hnparts⟩ := hclosed.afterParts hlegal hwidth
  obtain ⟨hacc0, haccw0, hnparts0, habs0, hoobp0, hoobDpc0⟩ := hclosed
  have hlen : f.group.length = f.parts.length + 1 := by simp [FieldSpec.group]
  obtain ⟨hparts, hfield⟩ := run_parts hlegal hbusy hpar (by simpa [haccw0] using hwidth) hrange hlist
  have hopen : (s.afterParts f.parts).nparts ≠ 0#6 := fun h =>
    hne (List.length_eq_zero_iff.mp (by rw [← hnparts, h, BitVec.toNat_ofNat]))
  have heffect : wordEffect f.word (s.afterParts f.parts) = _ :=
    fieldWord_of_inRange hopen hdiv habs0 hoobp0 hroom.ne
  rw [hacc, haccw] at heffect
  generalize fieldRecord f.tag f.signed f.mul f.div (composedWidth f.parts) (compose s.payByte f.parts) = r at heffect ⊢
  have hstep := (step_of_holdsList (s := s.afterParts f.parts) hbusy hfield).trans (exec_of_ok heffect)
  have hdpc : (s.afterParts f.parts).dpc + 1 = s.dpc + BitVec.ofNat 32 f.group.length := by
    rw [State.afterParts_dpc, BitVec.add_assoc, hlen, BitVec.ofNat_add]
    rfl
  obtain ⟨hlast, hcount, hothers⟩ := emits_of_append (r := r) hpar hroom
    (t := (((s.afterParts f.parts).append r).clearGroup).advance) rfl rfl
  refine ⟨_, ?_, hlast, hothers, hcount, (congrArg BitVec.toNat hdpc).trans (dpc_add_toNat hpar hlist.1), ?_⟩
  · rw [hlen, run_add_of_run hparts]
    exact run_one_of_step hstep
  · apply State.ext
    case acc => exact hacc0.symm
    case accw => exact haccw0.symm
    case nparts => exact hnparts0.symm
    case abs => exact habs0.symm
    case oobp => exact hoobp0.symm
    case oobDpc => exact hoobDpc0.symm
    all_goals rfl

end Sys2Proof.Machine

namespace Sys2Proof.Machine

/-! ### A well-formed list raises no DescriptorError (R70) -/

section ListWf

variable {n w : Nat} {l : List Instr}

theorem listWfFrom_part {offset : BitVec 32} {mask : BitVec 8} {size : BitVec 3} :
    listWfFrom n w (.part offset mask size :: l) = true ↔
      partLegal mask size = true ∧ w + partWidth mask size ≤ 48 ∧
        listWfFrom (n + 1) (w + partWidth mask size) l = true := by
  simp [listWfFrom, Instr.wf, and_assoc]

theorem listWfFrom_field {tag : BitVec 16} {signed : Bool} {mul div : BitVec 16} :
    listWfFrom n w (.field tag signed mul div :: l) = true ↔ div ≠ 0#16 ∧ 0 < n ∧ listWfFrom 0 0 l = true := by
  simp [listWfFrom, Instr.wf, and_assoc]

theorem listWfFrom_endList : listWfFrom n w (.endList :: l) = true ↔ n = 0 ∧ l = [] := by
  simp [listWfFrom]

theorem listWfFrom_rdu {tag : BitVec 16} {offset : BitVec 32} {size : BitVec 3} :
    listWfFrom n w (.rdu tag offset size :: l) = true ↔ sizeLegal size = true ∧ n = 0 ∧ listWfFrom 0 0 l = true := by
  simp [listWfFrom, Instr.wf, and_assoc]

theorem listWfFrom_rdi {tag : BitVec 16} {offset : BitVec 32} {size : BitVec 3} :
    listWfFrom n w (.rdi tag offset size :: l) = true ↔ sizeLegal size = true ∧ n = 0 ∧ listWfFrom 0 0 l = true := by
  simp [listWfFrom, Instr.wf, and_assoc]

end ListWf

section WordErrors

variable {s : State} {r : Raise}

theorem emit_error_fatal {rec : Record} (h : emit rec s = .error r) : r.fatal = .resultOverflow := by
  obtain ⟨-, rfl⟩ := emit_error h
  rfl

/-- A FIELD of an open group with a divisor faults in range or in room alone. -/
theorem fieldWord_error {tag : BitVec 16} {signed : Bool} {mul div : BitVec 16} (hnparts : s.nparts ≠ 0#6)
    (hdiv : div ≠ 0#16) (h : fieldWord tag signed mul div s = .error r) :
    r.fatal = .outOfBounds ∨ r.fatal = .resultOverflow := by
  rw [fieldWord, if_neg hnparts, if_neg hdiv] at h
  split at h
  · split at h
    · next hemit => cases h; exact .inr (emit_error_fatal hemit)
    · cases h
  split at h
  · cases h; exact .inl rfl
  split at h
  · next hemit => cases h; exact .inr (emit_error_fatal hemit)
  · cases h

/-- A direct read of legal size with no group open faults in range or in room alone. -/
theorem readWord_error {tag : BitVec 16} {size : BitVec 3} {v : Option Int} (hsize : sizeLegal size = true)
    (hnparts : s.nparts = 0#6) (h : readWord tag size v s = .error r) :
    r.fatal = .outOfBounds ∨ r.fatal = .resultOverflow := by
  rw [readWord.eq_def, if_neg (by simp [hsize]), if_neg (by simp [hnparts])] at h
  split at h
  · cases h; exact .inl rfl
  split at h
  · next hemit => cases h; exact .inr (emit_error_fatal hemit)
  · cases h

/-- The first word of a list that is well-formed from the group in progress on raises no DescriptorError. -/
theorem wordEffect_error_of_listWf {x : Instr} {l : List Instr}
    (hwf : listWfFrom s.nparts.toNat s.accw.toNat (x :: l) = true) (h : wordEffect x s = .error r) :
    r.fatal = .outOfBounds ∨ r.fatal = .resultOverflow := by
  cases x with
  | part offset mask size =>
    obtain ⟨hlegal, hfit, -⟩ := listWfFrom_part.mp hwf
    have hok := (partWord_of_legal (offset := offset) hlegal).trans (if_neg (Nat.not_lt.mpr hfit))
    cases hok.symm.trans h
  | field tag signed mul div =>
    obtain ⟨hdiv, hopen, -⟩ := listWfFrom_field.mp hwf
    exact fieldWord_error (fun hz => by simp [hz] at hopen) hdiv h
  | endList =>
    obtain ⟨hclosed, -⟩ := listWfFrom_endList.mp hwf
    have hok : endWord s = .ok { s with phase := .done } := if_neg (not_not.mpr (BitVec.eq_of_toNat_eq hclosed))
    cases hok.symm.trans h
  | rdu tag offset size =>
    obtain ⟨hsize, hclosed, -⟩ := listWfFrom_rdu.mp hwf
    exact readWord_error hsize (BitVec.eq_of_toNat_eq hclosed) h
  | rdi tag offset size =>
    obtain ⟨hsize, hclosed, -⟩ := listWfFrom_rdi.mp hwf
    exact readWord_error hsize (BitVec.eq_of_toNat_eq hclosed) h

end WordErrors

/-- A DECODE is running with the words of `l` still to come at DPC, well-formed from the group in progress on, and no host
move to come. -/
structure State.AtList (s : State) (l : List Instr) : Prop where
  busy : s.phase = .busy
  host : s.host = []
  par : s.par.wf = true
  decoder : s.DecoderOk
  wf : listWfFrom s.nparts.toNat s.accw.toNat l = true
  holds : s.holdsList s.dpc.toNat l

/-- A well-formed list is running, or it has ended and not by DescriptorError. -/
def State.ListSafe (s : State) : Prop :=
  (∃ l, s.AtList l) ∨ (s.phase ≠ .busy ∧ s.host = [] ∧ (s.phase = .fault → s.errCode ≠ 8#8))

section AtList

variable {s t : State} {x : Instr} {l : List Instr}

/-- What the effect of a word does to DPC and to the group in progress, if the list goes on. -/
theorem wordEffect_listWf (hdec : s.DecoderOk) (hwf : listWfFrom s.nparts.toNat s.accw.toNat (x :: l) = true)
    (hx : wordEffect x s = .ok t) :
    t.phase = .done ∨
      (t.phase = s.phase ∧ t.dpc = s.dpc + 1 ∧ listWfFrom t.nparts.toNat t.accw.toNat l = true) := by
  have hread : ∀ {tag size} {v : Option Int}, readWord tag size v s = .ok t → listWfFrom 0 0 l = true →
      t.phase = s.phase ∧ t.dpc = s.dpc + 1 ∧ listWfFrom t.nparts.toNat t.accw.toNat l = true := fun hr hl => by
    obtain ⟨-, hclosed, -, v, -, rfl⟩ := readWord_ok hr
    simpa [hclosed, (hdec.clean hclosed).1] using hl
  cases x with
  | part offset mask size =>
    obtain ⟨hlegal, hfit, hl⟩ := listWfFrom_part.mp hwf
    obtain ⟨-, -, rfl⟩ := partWord_ok_legal hx
    have haccw := accw_add_toNat hfit
    have hnparts : (s.nparts + 1).toNat = s.nparts.toNat + 1 := by
      have hle := hdec.npartsLe.trans hdec.accwLe
      bv_omega
    refine .inr ⟨by simp, by simp, ?_⟩
    simpa only [State.advance_nparts, State.advance_accw, State.countPart_nparts, State.countPart_accw,
      State.latchPart_nparts, State.latchPart_accw, hnparts, haccw] using hl
  | field tag signed mul div =>
    obtain ⟨-, -, hl⟩ := listWfFrom_field.mp hwf
    obtain ⟨-, -, -, ⟨-, rfl⟩ | ⟨-, -, rfl⟩⟩ := fieldWord_ok hx
    · exact .inr ⟨rfl, rfl, hl⟩
    · exact .inr ⟨rfl, rfl, hl⟩
  | endList =>
    obtain ⟨-, rfl⟩ := endWord_ok hx
    exact .inl rfl
  | rdu tag offset size => exact .inr (hread hx (listWfFrom_rdu.mp hwf).2.2)
  | rdi tag offset size => exact .inr (hread hx (listWfFrom_rdi.mp hwf).2.2)

theorem State.AtList.of_wordEffect (h : s.AtList (x :: l)) (hx : wordEffect x s = .ok t) : t.ListSafe := by
  obtain ⟨hlt, -, htail⟩ := State.holdsList_cons.mp h.holds
  have hframe := (wordKeeps_of_wordEffect hx).frame
  have hhost : t.host = [] := by rw [hframe]; exact h.host
  have hpar : t.par = s.par := by rw [hframe]
  have hdesc : t.desc = s.desc := by rw [hframe]
  obtain hdone | ⟨hphase, hdpc, hwf⟩ := wordEffect_listWf h.decoder h.wf hx
  · exact .inr ⟨by simp [hdone], hhost, by simp [hdone]⟩
  · have hnext : t.dpc.toNat = s.dpc.toNat + 1 := (congrArg BitVec.toNat hdpc).trans (dpc_add_toNat h.par hlt)
    exact .inl ⟨l,
      { busy := hphase.trans h.busy
        host := hhost
        par := hpar ▸ h.par
        decoder := h.decoder.of_wordEffect hx
        wf := hwf
        holds := hnext ▸ htail.of_same_desc hpar hdesc }⟩

theorem State.AtList.of_step (h : s.AtList l) (hs : step s = .next t) : t.ListSafe := by
  cases l with
  | nil => exact absurd h.wf Bool.false_ne_true
  | cons x l =>
    rw [step_of_holdsList h.busy h.holds] at hs
    obtain ⟨r, herr, rfl⟩ | hok := exec_cases hs
    · refine .inr ⟨by simp, h.host, fun _ => ?_⟩
      rw [State.raise_errCode]
      obtain hf | hf := wordEffect_error_of_listWf h.wf herr
      · rw [hf]; decide
      · rw [hf]; decide
    · exact h.of_wordEffect hok

theorem State.ListSafe.of_step (h : s.ListSafe) (hs : step s = .next t) : t.ListSafe := by
  obtain ⟨l, hl⟩ | hended := h
  · exact hl.of_step hs
  · obtain ⟨hbusy, -⟩ | ⟨-, -, rfl⟩ | ⟨m, rest, -, hmove, -⟩ := step_cases hs
    · exact absurd hbusy hended.1
    · exact .inr hended
    · simp [hended.2.1] at hmove

end AtList

/-- Settles O35: `ListSafe` holds where the list begins, and every step keeps it. -/
theorem wellFormedListNoDescriptorError : Obligations.WellFormedListNoDescriptorError := by
  unfold Obligations.WellFormedListNoDescriptorError
  intro l s hwf hbusy hclosed hpar hhost hlist n t hrun hfault
  have hdec := hclosed.decoderOk
  obtain ⟨-, haccw, hnparts, -, -, -⟩ := hclosed
  have hstart : s.AtList l := ⟨hbusy, hhost, hpar, hdec, by rw [haccw, hnparts]; exact hwf, hlist⟩
  obtain ⟨l', hl'⟩ | ⟨-, -, hcode⟩ := run_keeps (fun _ _ => State.ListSafe.of_step) (.inl ⟨l, hstart⟩) hrun
  · have hbusy' := hl'.busy
    rw [hfault] at hbusy'
    cases hbusy'
  · exact hcode hfault

end Sys2Proof.Machine

namespace Sys2Proof.Machine

/-! ### The Byte Reader (R77 to R80, R85) -/

section ByteReader

variable {buf : Nat → Byte} {len o m n u : Nat}

/-- Both reads fail where the bytes run past the buffer, and nowhere else (R78). -/
theorem readUInt_eq_none : readUInt buf len o n = none ↔ len < o + n := by
  simp [readUInt]

theorem readInt_eq_none_iff_readUInt : readInt buf len o n = none ↔ readUInt buf len o n = none :=
  Option.map_eq_none_iff

theorem readInt_eq_none : readInt buf len o n = none ↔ len < o + n :=
  readInt_eq_none_iff_readUInt.trans readUInt_eq_none

/-- The signed read is the sign rule on the unsigned one. -/
theorem readInt_of_readUInt (h : readUInt buf len o n = some u) : readInt buf len o n = some (readerSign n u) :=
  congrArg (Option.map (readerSign n)) h

theorem readUInt_lt (h : readUInt buf len o n = some u) : u < 256 ^ n := by
  obtain ⟨-, rfl⟩ := readUInt_eq_some.mp h
  exact leNat_lt buf o n

/-- The number of `m + n` bytes: that of the first `m`, and that of the others above it. -/
theorem leNat_add (buf : Nat → Byte) (o m n : Nat) :
    leNat buf o (m + n) = leNat buf o m + 256 ^ m * leNat buf (o + m) n := by
  induction n with
  | zero => simp [leNat]
  | succ n ih =>
    rw [← Nat.add_assoc, leNat, leNat, ih, pow_add, Nat.add_assoc o m n]
    ring

/-- A read of `m + n` bytes is two reads put together (R85 b). -/
theorem readUInt_add (h : readUInt buf len o (m + n) = some u) :
    ∃ a b, readUInt buf len o m = some a ∧ readUInt buf len (o + m) n = some b ∧ u = a + 256 ^ m * b := by
  obtain ⟨hfit, rfl⟩ := readUInt_eq_some.mp h
  exact ⟨_, _, readUInt_eq_some.mpr ⟨by omega, rfl⟩, readUInt_eq_some.mpr ⟨by omega, rfl⟩, leNat_add buf o m n⟩

/-- With the top bit of the last byte clear, the bytes hold a number of the lower half of their range. -/
theorem leNat_lt_half (h : (buf (o + n)).toNat < 128) : leNat buf o (n + 1) < 128 * 256 ^ n := by
  have hlow := leNat_lt buf o n
  calc leNat buf o (n + 1)
      = leNat buf o n + (buf (o + n)).toNat * 256 ^ n := rfl
    _ < ((buf (o + n)).toNat + 1) * 256 ^ n := by rw [Nat.add_mul]; omega
    _ ≤ 128 * 256 ^ n := Nat.mul_le_mul_right _ h

/-- The sign rule takes away a multiple of 256^n (R85 c). -/
theorem readerSign_congr (hu : u < 256 ^ n) : ∃ k : Int, readerSign n u = u + k * 256 ^ n := by
  rw [readerSign_eq hu]
  split
  · next hbyte =>
    obtain ⟨rfl, -⟩ := hbyte
    exact ⟨-1, by omega⟩
  split
  · next hpair =>
    obtain ⟨rfl, -⟩ := hpair
    exact ⟨-1, by omega⟩
  · exact ⟨0, by omega⟩

/-- Below the sign boundaries of 8 and 16 bits the sign rule changes nothing. -/
theorem readerSign_eq_self (hu : u < 256 ^ n) (hbyte : n = 1 → u < 128) (hpair : n = 2 → u < 32768) :
    readerSign n u = u := by
  rw [readerSign_eq hu, if_neg (by omega), if_neg (by omega)]

/-- Where the signed read is the unsigned one (R85 c). -/
theorem readerSign_leNat (h : n = 4 ∨ n = 6 ∨ (buf (o + n - 1)).toNat < 128) :
    readerSign n (leNat buf o n) = leNat buf o n := by
  refine readerSign_eq_self (leNat_lt buf o n) ?_ ?_
  · rintro rfl
    exact leNat_lt_half (n := 0) (by simpa using h)
  · rintro rfl
    exact leNat_lt_half (n := 1) (by simpa using h)

end ByteReader

/-- Settles O28: `readerSign_eq` at each of the four sizes. -/
theorem readIntSignRule : Obligations.ReadIntSignRule := by
  unfold Obligations.ReadIntSignRule
  intro buf len o n u _ hread
  have hlt := readUInt_lt hread
  have hv := readerSign_eq hlt
  refine ⟨_, readInt_of_readUInt hread, ?_, ?_, fun hwide => readerSign_eq_self hlt (by omega) (by omega)⟩
  · rintro rfl
    simp only [true_and] at hv
    omega
  · rintro rfl
    simp only [true_and] at hv
    omega

/-- Settles O29: the little-endian number splits at any byte, and the sign rule is a congruence. -/
theorem byteReaderLaws : Obligations.ByteReaderLaws := by
  unfold Obligations.ByteReaderLaws
  intro buf len o
  refine ⟨fun _ _ => readUInt_lt, fun _ => readUInt_add (m := 1) (n := 1), fun _ => readUInt_add (m := 2) (n := 2),
    fun _ => readUInt_add (m := 4) (n := 2), ?_, fun _ => readInt_eq_none_iff_readUInt.symm⟩
  intro n u v _ hu hv
  obtain rfl : readerSign n u = v := Option.some.inj ((readInt_of_readUInt hu).symm.trans hv)
  refine ⟨readerSign_congr (readUInt_lt hu), ?_⟩
  obtain ⟨-, rfl⟩ := readUInt_eq_some.mp hu
  exact readerSign_leNat

/-- Settles O26: a read in bounds gives `leNat`, which is the sum. -/
theorem readUIntIsLittleEndian : Obligations.ReadUIntIsLittleEndian := by
  unfold Obligations.ReadUIntIsLittleEndian
  intro buf len o n _ hfit
  refine ⟨leNat buf o n, readUInt_eq_some.mpr ⟨hfit, rfl⟩, leNat_eq_sum buf o n, Nat.le_pred_of_lt (leNat_lt buf o n), ?_⟩
  rintro rfl
  simp only [leNat, Nat.add_zero]
  omega

/-- Settles O27: the particular cases are arithmetic on the one bound. -/
theorem readOutOfBounds : Obligations.ReadOutOfBounds := by
  unfold Obligations.ReadOutOfBounds
  intro buf len o n hn
  simp only [ne_eq, readUInt_eq_none, readInt_eq_none, iff_self, true_and, and_self]
  exact ⟨fun hout => by omega, fun hfit => by omega⟩

/-! ### The faults of END and of the direct reads (R83, R84, R129, R160) -/

section DirectReadFaults

variable {tag : BitVec 16} {offset : BitVec 32} {size : BitVec 3} {v : Option Int} {s : State} {i : Instr}

theorem endWord_of_open (h : s.nparts ≠ 0#6) : endWord s = .error (descriptorError 9 s) :=
  if_pos h

theorem readWord_of_badSize (hsize : sizeLegal size = false) :
    readWord tag size v s = .error (descriptorError 3 s) := by
  simp [readWord, hsize]

theorem readWord_of_open (hsize : sizeLegal size = true) (hnparts : s.nparts ≠ 0#6) :
    readWord tag size v s = .error (descriptorError 9 s) := by
  simp [readWord, hsize, hnparts]

theorem readWord_of_none (hsize : sizeLegal size = true) (hnparts : s.nparts = 0#6) :
    readWord tag size none s = .error ⟨.outOfBounds, 0, s.dpc⟩ := by
  simp [readWord, hsize, hnparts]

theorem readWord_of_full {x : Int} (hsize : sizeLegal size = true) (hnparts : s.nparts = 0#6)
    (hfull : s.resCount.toNat = s.par.resCap) :
    readWord tag size (some x) s = .error ⟨.resultOverflow, 0, s.dpc⟩ := by
  simp [readWord, hsize, hnparts, emit_of_eq hfull]

/-- RDU and RDI are one word but for the value read, which there is exactly where the bytes lie in PAY (R83, R84). -/
theorem wordEffect_directRead (h : i = .rdu tag offset size ∨ i = .rdi tag offset size) :
    ∃ v, wordEffect i s = readWord tag size v s ∧ (v = none ↔ s.payLen.toNat < offset.toNat + size.toNat) := by
  obtain rfl | rfl := h
  · exact ⟨_, rfl, Option.map_eq_none_iff.trans readUInt_eq_none⟩
  · exact ⟨_, rfl, readInt_eq_none⟩

end DirectReadFaults

/-- Settles O23: the checks of the word in the order of R160, for RDU and RDI at once. -/
theorem readAndEndFaults : Obligations.ReadAndEndFaults := by
  unfold Obligations.ReadAndEndFaults
  intro tag offset size s
  refine ⟨fun hopen => exec_of_error (i := .endList) (endWord_of_open hopen), fun i hi => ?_⟩
  obtain ⟨v, heffect, hnone⟩ := wordEffect_directRead (s := s) hi
  refine ⟨fun hsize => ?_, fun hsize hopen => ?_, fun hsize hclosed hout => ?_, fun hsize hclosed hin hfull => ?_⟩
  · exact exec_of_error (heffect.trans (readWord_of_badSize hsize))
  · exact exec_of_error (heffect.trans (readWord_of_open hsize hopen))
  · obtain rfl := hnone.mpr hout
    exact exec_of_error (heffect.trans (readWord_of_none hsize hclosed))
  · cases v with
    | none => exact absurd (hnone.mp rfl) (Nat.not_lt.mpr hin)
    | some x => exact exec_of_error (heffect.trans (readWord_of_full hsize hclosed hfull))

end Sys2Proof.Machine

namespace Sys2Proof.Machine

/-! ### The faults of ASSEMBLE (R88 to R95, R160) -/

/-- What steps S1 to S4 raise, in their order (R89 to R92). -/
inductive WindowFault (s : State) : Raise → Prop
  | badWindow (hout : s.par.rawSize < s.rawBase.toNat + s.rawLen.toNat) : WindowFault s ⟨.badCommand, 3, s.rawLen⟩
  | empty (hin : s.rawBase.toNat + s.rawLen.toNat ≤ s.par.rawSize) (hlen : s.rawLen = 0#32) :
      WindowFault s ⟨.truncatedPacket, 0, 1⟩
  | badSync (hin : s.rawBase.toNat + s.rawLen.toNat ≤ s.par.rawSize) (hlen : s.rawLen ≠ 0#32)
      (hsync : s.rawAt 0 ≠ s.par.syncByte) : WindowFault s ⟨.syncError, 0, (s.rawAt 0).setWidth 32⟩
  | short (hin : s.rawBase.toNat + s.rawLen.toNat ≤ s.par.rawSize) (hlen : s.rawLen ≠ 0#32)
      (hsync : s.rawAt 0 = s.par.syncByte) (hshort : s.rawLen.toNat < 9) : WindowFault s ⟨.truncatedPacket, 0, 9⟩

section AssembleFaults

variable {ck : Checks} {s : State} {r : Raise}

theorem toNat_rawLen_ne_zero (h : s.rawLen ≠ 0#32) : s.rawLen.toNat ≠ 0 :=
  fun hz => h (BitVec.eq_of_toNat_eq hz)

/-- Such a fault is raised on the cleared state. -/
theorem assembleWith_of_windowFault (ck : Checks) (h : WindowFault s r) :
    assembleWith ck s = s.clearPacket.raise r := by
  cases h with
  | badWindow hout => exact if_pos hout
  | empty hin hlen => exact (if_neg hin.not_gt).trans (if_pos (congrArg BitVec.toNat hlen))
  | badSync hin hlen hsync =>
    exact (if_neg hin.not_gt).trans ((if_neg (toNat_rawLen_ne_zero hlen)).trans (if_pos hsync))
  | short hin hlen hsync hshort =>
    exact (if_neg hin.not_gt).trans
      ((if_neg (toNat_rawLen_ne_zero hlen)).trans ((if_neg (not_not.mpr hsync)).trans (if_pos hshort)))

/-- A window in which S1 to S4 raise nothing holds a header. -/
theorem windowFault_or_header (s : State) :
    (∃ r, WindowFault s r) ∨
      (s.rawBase.toNat + s.rawLen.toNat ≤ s.par.rawSize ∧ s.rawAt 0 = s.par.syncByte ∧ 9 ≤ s.rawLen.toNat) := by
  by_cases hin : s.rawBase.toNat + s.rawLen.toNat ≤ s.par.rawSize
  case neg => exact .inl ⟨_, .badWindow (Nat.lt_of_not_le hin)⟩
  by_cases hlen : s.rawLen = 0#32
  case pos => exact .inl ⟨_, .empty hin hlen⟩
  by_cases hsync : s.rawAt 0 = s.par.syncByte
  case neg => exact .inl ⟨_, .badSync hin hlen hsync⟩
  by_cases hshort : s.rawLen.toNat < 9
  case pos => exact .inl ⟨_, .short hin hlen hsync hshort⟩
  exact .inr ⟨hin, hsync, Nat.le_of_not_lt hshort⟩

/-- Truncated frames: the cleared state and fault entry, but for the header registers and PCK_HDR (R93 to R95). -/
theorem assembleWith_of_truncatedFrames (ck : Checks) (hin : s.rawBase.toNat + s.rawLen.toNat ≤ s.par.rawSize)
    (hsync : s.rawAt 0 = s.par.syncByte) (hheader : 9 ≤ s.rawLen.toNat)
    (hframes : s.rawLen.toNat < needBytes s.par.hasTrailer (s.rawAt 7).toNat) :
    assembleWith ck s =
      { s.clearPacket.faulted 2 0 (BitVec.ofNat 32 (needBytes s.par.hasTrailer (s.rawAt 7).toNat)) with
        dst := s.rawAt 2 ++ s.rawAt 1
        src := s.rawAt 4 ++ s.rawAt 3
        pcmd := s.rawAt 6 ++ s.rawAt 5
        nfr := s.rawAt 7
        hck := s.rawAt 8
        status := if s.rawAt 8 = ck.hdrCk s.headerBytes then 0#8 else 1#8 } := by
  have hlen : s.rawLen.toNat ≠ 0 := by omega
  have htake : assembleWith ck s = (s.clearPacket.latchHeader.checkHeader ck).takePacket ck :=
    (if_neg hin.not_gt).trans
      ((if_neg hlen).trans ((if_neg (not_not.mpr hsync)).trans (if_neg hheader.not_gt)))
  rw [htake, State.takePacket, if_pos (by simpa using hframes)]
  apply State.ext <;> simp [State.checkHeader_status, State.faulted, Fatal.code]
  rfl

end AssembleFaults

/-- Settles O39: S1 to S4 raise on the cleared state, S7 on the state that holds the header. -/
theorem assembleFaults : Obligations.AssembleFaults := by
  unfold Obligations.AssembleFaults
  intro ck s
  refine ⟨fun hout => ?_, fun hin => ⟨fun hlen => ?_, fun hlen hsync => ?_, fun hlen hsync hshort => ?_,
    fun hsync hheader hframes => ?_⟩⟩
  · exact assembleWith_of_windowFault ck (.badWindow hout)
  · exact assembleWith_of_windowFault ck (.empty hin hlen)
  · exact assembleWith_of_windowFault ck (.badSync hin hlen hsync)
  · exact assembleWith_of_windowFault ck (.short hin hlen hsync hshort)
  · refine ⟨_, assembleWith_of_truncatedFrames ck hin hsync hheader hframes, ?_, ?_, ?_, ?_, rfl⟩
    · exact (BitVec.toNat_ofNat _ _).trans (Nat.mod_eq_of_lt (needBytes_lt (s.rawAt 7).isLt))
    · rw [toNat_append_eq]; omega
    · rw [toNat_append_eq]; omega
    · rw [toNat_append_eq]; omega

/-! ### One flipped bit in a frame (R7, R56, R102) -/

/-- One flipped bit in a good frame: CK_SBF for its data bytes, and the checksum byte itself is another. -/
theorem State.frameGood_eq_false_of_flip {ck : Checks} {s s' : State} {i j k : Nat} (hj : j < 4) (hk : k < 8)
    (hflip : s'.rawAt (9 + 4 * i + j) = s.rawAt (9 + 4 * i + j) ^^^ (1#8 <<< k))
    (hsame : ∀ m, m ≠ 9 + 4 * i + j → s'.rawAt m = s.rawAt m) (hgood : s.frameGood ck i = true) :
    s'.frameGood ck i = false := by
  obtain ⟨hne0, hne1, hne2⟩ :=
    ck.frameCk.detects (s.rawAt (9 + 4 * i)) (s.rawAt (10 + 4 * i)) (s.rawAt (11 + 4 * i)) k hk
  rw [State.frameGood, beq_iff_eq] at hgood
  rw [State.frameGood, beq_eq_false_iff_ne]
  rw [Nat.add_right_comm] at hflip
  obtain rfl | rfl | rfl | rfl : j = 0 ∨ j = 1 ∨ j = 2 ∨ j = 3 := by omega
  · simpa (disch := omega) only [hflip, hsame, hgood] using hne0.symm
  · simpa (disch := omega) only [hflip, hsame, hgood] using hne1.symm
  · simpa (disch := omega) only [hflip, hsame, hgood] using hne2.symm
  · simpa (disch := omega) only [hflip, hsame, ← hgood] using flip_ne (s.rawAt (12 + 4 * i)) k hk

/-- FERR of an ASSEMBLE that ends in ASSEMBLED. -/
theorem getLsbD_ferr_of_assembled {ck : Checks} {s : State} (h : (assembleWith ck s).phase = .assembled) (i : Nat) :
    (assembleWith ck s).ferr.getLsbD i = (decide (i < (s.rawAt 7).toNat) && !s.frameGood ck i) := by
  obtain ⟨hwindow, hsync, hneed⟩ := packet_of_assembled h
  exact (assembleWith_ferr hwindow hsync hneed).1 i

/-- Settles O41: the flip is in neither state's NFR, so frame i is a frame of both. -/
theorem flippedBitFailsFrame : Obligations.FlippedBitFailsFrame := by
  unfold Obligations.FlippedBitFailsFrame
  intro ck s s' i j k hs hs' hi hj hk hflip hsame hclear
  obtain ⟨hwindow, hsync, hneed⟩ := packet_of_assembled hs
  have hnfr : (assembleWith ck s).nfr = s.rawAt 7 := by rw [assembleWith_frame hwindow hsync hneed]
  rw [hnfr] at hi
  have hgood : s.frameGood ck i = true := by simpa [getLsbD_ferr_of_assembled hs, hi] using hclear
  rw [getLsbD_ferr_of_assembled hs', State.frameGood_eq_false_of_flip hj hk hflip hsame hgood, hsame 7 (by omega)]
  simpa using hi

/-! ### Two states with one window (R88, R103) -/

/-- `s` and `t` have the same parameters and the same bytes in the same window of RAW. -/
structure SameWindow (s t : State) : Prop where
  par : s.par = t.par
  rawBase : s.rawBase = t.rawBase
  rawLen : s.rawLen = t.rawLen
  bytes : ∀ k, k < s.rawLen.toNat → s.rawAt k = t.rawAt k

/-- ASSEMBLE left `u` of `s`, and `v` of a state with the same window: one payload, and the same registers but for what
ASSEMBLE does not write. -/
def SameOutcome (s u v : State) : Prop :=
  (∀ a, a < u.payLen.toNat → u.payByte a = v.payByte a) ∧
    u = { v with
      descBase := s.descBase, raw := s.raw, pay := u.pay, desc := s.desc, res := s.res, host := s.host
      resets := s.resets }

section SameWindow

variable {ck : Checks} {s t : State} {r : Raise}

theorem SameWindow.inside (h : SameWindow s t) (hin : s.rawBase.toNat + s.rawLen.toNat ≤ s.par.rawSize) :
    t.rawBase.toNat + t.rawLen.toNat ≤ t.par.rawSize := by
  rwa [← h.par, ← h.rawBase, ← h.rawLen]

theorem SameWindow.sync (h : SameWindow s t) (hlen : 0 < s.rawLen.toNat) (hsync : s.rawAt 0 = s.par.syncByte) :
    t.rawAt 0 = t.par.syncByte := by
  rwa [← h.par, ← h.bytes 0 hlen]

/-- Faults of S1 to S4 are faults of the window. -/
theorem SameWindow.windowFault (h : SameWindow s t) (hs : WindowFault s r) : WindowFault t r := by
  cases hs with
  | badWindow hout =>
    rw [h.rawLen]
    exact .badWindow (by rwa [← h.par, ← h.rawBase, ← h.rawLen])
  | empty hin hzero => exact .empty (h.inside hin) (h.rawLen ▸ hzero)
  | badSync hin hne hsync =>
    rw [h.bytes 0 (Nat.pos_of_ne_zero (toNat_rawLen_ne_zero hne))] at hsync ⊢
    exact .badSync (h.inside hin) (h.rawLen ▸ hne) (h.par ▸ hsync)
  | short hin hne hsync hshort =>
    exact .short (h.inside hin) (h.rawLen ▸ hne) (h.sync (Nat.pos_of_ne_zero (toNat_rawLen_ne_zero hne)) hsync)
      (h.rawLen ▸ hshort)

theorem SameWindow.sameOutcome_of_windowFault (ck : Checks) (h : SameWindow s t) (hs : WindowFault s r) :
    SameOutcome s (assembleWith ck s) (assembleWith ck t) := by
  rw [assembleWith_of_windowFault ck hs, assembleWith_of_windowFault ck (h.windowFault hs)]
  refine ⟨fun a ha => absurd ha (Nat.not_lt_zero a), ?_⟩
  apply State.ext <;> simp [h.par, h.rawBase, h.rawLen]

section Header

variable (h : SameWindow s t) (hheader : 9 ≤ s.rawLen.toNat)

include h hheader

theorem SameWindow.headerByte_eq {k : Nat} (hk : k < 9) : s.rawAt k = t.rawAt k :=
  h.bytes k (hk.trans_le hheader)

theorem SameWindow.headerBytes_eq : s.headerBytes = t.headerBytes := by
  simp [State.headerBytes, h.headerByte_eq hheader]

theorem SameWindow.needBytes_eq :
    needBytes s.par.hasTrailer (s.rawAt 7).toNat = needBytes t.par.hasTrailer (t.rawAt 7).toNat := by
  rw [h.par, h.headerByte_eq hheader (by decide)]

theorem SameWindow.sameOutcome_of_truncatedFrames (ck : Checks)
    (hin : s.rawBase.toNat + s.rawLen.toNat ≤ s.par.rawSize) (hsync : s.rawAt 0 = s.par.syncByte)
    (hframes : s.rawLen.toNat < needBytes s.par.hasTrailer (s.rawAt 7).toNat) :
    SameOutcome s (assembleWith ck s) (assembleWith ck t) := by
  have ht := assembleWith_of_truncatedFrames ck (h.inside hin) (h.sync (by omega) hsync) (h.rawLen ▸ hheader)
    (by rwa [← h.needBytes_eq hheader, ← h.rawLen])
  rw [assembleWith_of_truncatedFrames ck hin hsync hheader hframes, ht]
  refine ⟨fun a ha => absurd ha (Nat.not_lt_zero a), ?_⟩
  apply State.ext <;>
    simp [State.faulted, h.par, h.rawBase, h.rawLen, h.headerByte_eq hheader, h.headerBytes_eq hheader]

end Header

theorem SameWindow.frameGood_eq {i : Nat} (h : SameWindow s t) (hi : 12 + 4 * i < s.rawLen.toNat) :
    s.frameGood ck i = t.frameGood ck i := by
  simp (disch := omega) only [State.frameGood, h.bytes]

theorem SameWindow.packetBytes_eq {n : Nat} (h : SameWindow s t) (hn : 9 + 4 * n ≤ s.rawLen.toNat) :
    s.packetBytes n = t.packetBytes n :=
  List.map_congr_left fun k hk => h.bytes k ((List.mem_range.mp hk).trans_le hn)

/-- The trailer is read only where it lies in the window. -/
theorem SameWindow.trailerByte_eq {n : Nat} (h : SameWindow s t)
    (hneed : needBytes s.par.hasTrailer n ≤ s.rawLen.toNat) (htrailer : s.par.hasTrailer = true) :
    s.rawAt (9 + 4 * n) = t.rawAt (9 + 4 * n) :=
  h.bytes _ (by rw [htrailer] at hneed; exact hneed)

/-- The bytes up to the trailer are part of what a packet needs (R95). -/
theorem le_needBytes (hasTrailer : Bool) (nfr : Nat) : 9 + 4 * nfr ≤ needBytes hasTrailer nfr :=
  Nat.le_add_right _ _

section Packet

variable (h : SameWindow s t) (hin : s.rawBase.toNat + s.rawLen.toNat ≤ s.par.rawSize)
  (hsync : s.rawAt 0 = s.par.syncByte) (hneed : needBytes s.par.hasTrailer (s.rawAt 7).toNat ≤ s.rawLen.toNat)

include h hin hsync hneed

/-- The other state's window holds the same packet. -/
theorem SameWindow.packet :
    s.rawAt 7 = t.rawAt 7 ∧ t.rawBase.toNat + t.rawLen.toNat ≤ t.par.rawSize ∧ t.rawAt 0 = t.par.syncByte ∧
      needBytes t.par.hasTrailer (t.rawAt 7).toNat ≤ t.rawLen.toNat := by
  have hheader : 9 ≤ s.rawLen.toNat := by
    have := le_needBytes s.par.hasTrailer (s.rawAt 7).toNat
    omega
  exact ⟨h.headerByte_eq hheader (by decide), h.inside hin, h.sync (by omega) hsync,
    by rwa [← h.needBytes_eq hheader, ← h.rawLen]⟩

theorem SameWindow.ferr_eq : (assembleWith ck s).ferr = (assembleWith ck t).ferr := by
  have hle := le_needBytes s.par.hasTrailer (s.rawAt 7).toNat
  obtain ⟨hnfr, hin', hsync', hneed'⟩ := h.packet hin hsync hneed
  refine BitVec.eq_of_getLsbD_eq fun i _ => ?_
  rw [(assembleWith_ferr hin hsync hneed).1, (assembleWith_ferr hin' hsync' hneed').1, ← hnfr]
  by_cases hi : i < (s.rawAt 7).toNat
  · rw [h.frameGood_eq (by omega)]
  · simp [hi]

theorem SameWindow.ferrCount_eq : (assembleWith ck s).ferrCount = (assembleWith ck t).ferrCount := by
  obtain ⟨-, hin', hsync', hneed'⟩ := h.packet hin hsync hneed
  rw [← BitVec.toNat_inj, (assembleWith_ferr hin hsync hneed).2, (assembleWith_ferr hin' hsync' hneed').2,
    h.ferr_eq hin hsync hneed]

theorem SameWindow.status_eq : (assembleWith ck s).status = (assembleWith ck t).status := by
  have hle := le_needBytes s.par.hasTrailer (s.rawAt 7).toNat
  obtain ⟨hnfr, hin', hsync', hneed'⟩ := h.packet hin hsync hneed
  have htrailer : (s.par.hasTrailer = true ∧
        s.rawAt (9 + 4 * (s.rawAt 7).toNat) ≠ ck.trailerCk (s.packetBytes (s.rawAt 7).toNat)) ↔
      (t.par.hasTrailer = true ∧
        t.rawAt (9 + 4 * (t.rawAt 7).toNat) ≠ ck.trailerCk (t.packetBytes (t.rawAt 7).toNat)) := by
    rw [← h.par, ← hnfr, h.packetBytes_eq (by omega)]
    exact and_congr_right fun hhas => by rw [h.trailerByte_eq hneed hhas]
  rw [assembleWith_status hin hsync hneed, assembleWith_status hin' hsync' hneed', h.ferrCount_eq hin hsync hneed,
    h.headerBytes_eq (by omega), h.headerByte_eq (by omega) (by decide : 8 < 9)]
  simp only [htrailer]

theorem SameWindow.sameOutcome_of_packet : SameOutcome s (assembleWith ck s) (assembleWith ck t) := by
  have hle := le_needBytes s.par.hasTrailer (s.rawAt 7).toNat
  have hheader : ∀ k, k < 9 → s.rawAt k = t.rawAt k := fun k => h.headerByte_eq (by omega)
  obtain ⟨hnfr, hin', hsync', hneed'⟩ := h.packet hin hsync hneed
  refine ⟨fun a ha => ?_, ?_⟩
  · rw [(assembleWith_lengths hin hsync hneed).1] at ha
    rw [State.payByte, State.payByte, assembleWith_pay_get? hin hsync hneed, assembleWith_pay_get? hin' hsync' hneed',
      ← hnfr, if_pos ha, if_pos ha, h.bytes _ (by omega)]
    rfl
  · have hs := assembleWith_frame (ck := ck) hin hsync hneed
    rw [h.status_eq hin hsync hneed, h.ferr_eq hin hsync hneed, h.ferrCount_eq hin hsync hneed] at hs
    have ht := assembleWith_frame (ck := ck) hin' hsync' hneed'
    generalize assembleWith ck s = u at hs
    generalize assembleWith ck t = v at hs ht
    rw [hs, ht]
    apply State.ext <;> simp [h.par, h.rawBase, h.rawLen, hheader]

end Packet

end SameWindow

/-- Settles O42: each way ASSEMBLE ends is a matter of the window. -/
theorem assembleForgetsThePast : Obligations.AssembleForgetsThePast := by
  unfold Obligations.AssembleForgetsThePast
  intro ck s t hpar hbase hlen hbytes
  have h : SameWindow s t := ⟨hpar, hbase, hlen, hbytes⟩
  obtain ⟨r, hfault⟩ | ⟨hin, hsync, hheader⟩ := windowFault_or_header s
  · exact h.sameOutcome_of_windowFault ck hfault
  · by_cases hframes : s.rawLen.toNat < needBytes s.par.hasTrailer (s.rawAt 7).toNat
    · exact h.sameOutcome_of_truncatedFrames hheader ck hin hsync hframes
    · exact h.sameOutcome_of_packet hin hsync (Nat.le_of_not_lt hframes)

end Sys2Proof.Machine

namespace Sys2Proof.Machine

/-! ### Composition is bitwise (R109) -/

/-- A number of `i` bits shares no bit with a number shifted up by `i`. -/
theorem and_shiftLeft_eq_zero {a i : Nat} (h : a < 2 ^ i) (b : Nat) : a &&& b <<< i = 0 := by
  refine Nat.eq_of_testBit_eq fun k => ?_
  rw [Nat.testBit_and, Nat.testBit_shiftLeft, Nat.zero_testBit]
  by_cases hk : i ≤ k
  · rw [Nat.testBit_lt_two_pow (h.trans_le (Nat.pow_le_pow_right (by decide) hk)), Bool.false_and]
  · simp [hk]

section Bitwise

variable (P : Nat → Byte)

/-- `composeFrom_eq_mul` with the shift that R108 writes. -/
theorem composeFrom_eq_shiftLeft (cum : Nat) (ps : List FieldPart) :
    composeFrom P cum ps = composeFrom P 0 ps <<< cum := by
  rw [composeFrom_eq_mul, Nat.shiftLeft_eq]

/-- A part's shifted term lies below the position where the next part starts. -/
theorem FieldPart.shifted_pv_lt {p : FieldPart} (h : partLegal p.mask p.size = true) (cum : Nat) :
    p.pv P <<< cum < 2 ^ (cum + p.pw) := by
  have hpv : p.pv P < 2 ^ p.pw := partValue_lt h (leNat_lt P p.offset.toNat p.size.toNat)
  rw [Nat.shiftLeft_eq, Nat.add_comm, pow_add]
  exact Nat.mul_lt_mul_of_pos_right hpv (Nat.two_pow_pos cum)

/-- The term of the first part shares no bit with the parts after it. -/
theorem shifted_pv_and_composeFrom {p : FieldPart} (h : partLegal p.mask p.size = true) (cum : Nat)
    (ps : List FieldPart) : (p.pv P <<< cum) &&& composeFrom P (cum + p.pw) ps = 0 := by
  rw [composeFrom_eq_shiftLeft]
  exact and_shiftLeft_eq_zero (FieldPart.shifted_pv_lt P h cum) _

/-- No carry passes out of the first part: the sum of R108 is an OR. -/
theorem composeFrom_cons_eq_or {p : FieldPart} (h : partLegal p.mask p.size = true) (cum : Nat)
    (ps : List FieldPart) :
    composeFrom P cum (p :: ps) = (p.pv P <<< cum) ||| composeFrom P (cum + p.pw) ps := by
  rw [composeFrom, composeFrom_eq_shiftLeft P (cum + p.pw), Nat.add_comm, Nat.or_comm]
  exact Nat.shiftLeft_add_eq_or_of_lt (FieldPart.shifted_pv_lt P h cum) _

end Bitwise

section WholePart

variable {off : BitVec 32} {size : BitVec 3}

/-- The mask 0xFF keeps the whole number that the bytes hold (R107). -/
theorem partValue_of_fullMask {u : Nat} (h : u < 256 ^ size.toNat) : partValue 0xFF#8 size u = u := by
  unfold partValue
  split
  · next hone =>
    have hbyte : u < 2 ^ 8 := by simpa [hone] using h
    calc (u &&& 2 ^ 8 - 1) >>> trailingZeros 0xFF#8
        = u &&& 2 ^ 8 - 1 := by rw [show trailingZeros 0xFF#8 = 0 by decide, Nat.shiftRight_zero]
      _ = u := by rw [Nat.and_two_pow_sub_one_eq_mod, Nat.mod_eq_of_lt hbyte]
  · rfl

theorem pv_of_fullMask (P : Nat → Byte) : (FieldPart.mk off 0xFF#8 size).pv P = leNat P off.toNat size.toNat :=
  partValue_of_fullMask (leNat_lt P off.toNat size.toNat)

theorem pw_of_fullMask : (FieldPart.mk off 0xFF#8 size).pw = 8 * size.toNat := by
  by_cases hone : size.toNat = 1
  · rw [FieldPart.pw, partWidth, if_pos hone, hone]
    exact (by decide : popcount 0xFF#8 = 8)
  · exact partWidth_of_wide hone

/-- One whole part composes to the unsigned read of its bytes. -/
theorem compose_singleton_of_fullMask (P : Nat → Byte) :
    compose P [⟨off, 0xFF#8, size⟩] = leNat P off.toNat size.toNat := by
  rw [compose, composeFrom, composeFrom, pv_of_fullMask, Nat.shiftLeft_zero, Nat.add_zero]

theorem composedWidth_singleton_of_fullMask : composedWidth [⟨off, 0xFF#8, size⟩] = 8 * size.toNat := by
  rw [composedWidth, composedWidth, pw_of_fullMask, Nat.add_zero]

/-- Two whole bytes at neighbouring offsets compose as the one two-byte part. -/
theorem compose_two_bytes (P : Nat → Byte) (hoff : off.toNat + 1 < 2 ^ 32) :
    compose P [⟨off, 0xFF#8, 1⟩, ⟨off + 1, 0xFF#8, 1⟩] = compose P [⟨off, 0xFF#8, 2⟩] := by
  have hnext : (off + 1).toNat = off.toNat + 1 := BitVec.toNat_add_of_lt hoff
  calc compose P [⟨off, 0xFF#8, 1⟩, ⟨off + 1, 0xFF#8, 1⟩]
      = leNat P off.toNat 1 + compose P [⟨off + 1, 0xFF#8, 1⟩] * 2 ^ 8 := by
        rw [compose, composeFrom, composeFrom_eq_mul, pv_of_fullMask, pw_of_fullMask, Nat.shiftLeft_zero]
        rfl
    _ = leNat P off.toNat 1 + 256 ^ 1 * leNat P (off.toNat + 1) 1 := by
        rw [compose_singleton_of_fullMask, hnext, Nat.mul_comm]
        rfl
    _ = compose P [⟨off, 0xFF#8, 2⟩] := by
        rw [compose_singleton_of_fullMask, ← leNat_add]
        rfl

end WholePart

/-- Settles O30: each term ends where the next begins, a whole part is its read, and a read of two bytes is two reads. -/
theorem compositionIsBitwise : Obligations.CompositionIsBitwise := by
  unfold Obligations.CompositionIsBitwise
  refine ⟨fun P cum p ps hlegal => ?_, fun P off size _ => ?_, fun P off hoff => compose_two_bytes P hoff⟩
  · have hp := (List.forall_mem_cons.mp hlegal).1
    exact ⟨composeFrom_cons_eq_or P hp cum ps, shifted_pv_and_composeFrom P hp cum ps, composeFrom_zero_lt hlegal P⟩
  · exact ⟨compose_singleton_of_fullMask P, composedWidth_singleton_of_fullMask⟩

end Sys2Proof.Machine

namespace Sys2Proof.Machine

/-! ### The multiply-divide pipeline (R125) -/

theorem tdiv_mul_add_trem (p : Int) (d : Nat) : tdiv p d * d + trem p d = p := by
  rw [trem_eq_tmod]
  exact Int.tdiv_mul_add_tmod p d

theorem tdiv_neg (p : Int) (d : Nat) : tdiv (-p) d = -tdiv p d :=
  Int.neg_tdiv p d

theorem trem_neg (p : Int) (d : Nat) : trem (-p) d = -trem p d := by
  rw [trem, trem, tdiv_neg]
  ring

/-- Quotient and remainder are not negative where the product is not. -/
theorem tdiv_trem_nonneg {p : Int} (h : 0 ≤ p) (d : Nat) : 0 ≤ tdiv p d ∧ 0 ≤ trem p d := by
  rw [trem_eq_tmod]
  exact ⟨Int.tdiv_nonneg h (Int.natCast_nonneg d), Int.tmod_nonneg d h⟩

/-- Quotient and remainder are not positive where the product is not. -/
theorem tdiv_trem_nonpos {p : Int} (h : p ≤ 0) (d : Nat) : tdiv p d ≤ 0 ∧ trem p d ≤ 0 := by
  have hneg := tdiv_trem_nonneg (Int.neg_nonneg.mpr h) d
  rw [tdiv_neg, trem_neg] at hneg
  omega

/-- The product of the scaler fits in 65 bits with sign. -/
theorem product_range {raw : Int} (mul : BitVec 16) (hlo : -(2 ^ 47) ≤ raw) (hhi : raw < 2 ^ 48) :
    -(2 ^ 64) < raw * mul.toNat ∧ raw * mul.toNat < 2 ^ 64 := by
  simpa [tdiv] using tdiv_range (mul := mul) 1 hlo hhi

/-- Settles O18: division by 1 bounds the product, and the signs are those of truncation. -/
theorem scalerIsExact : Obligations.ScalerIsExact := by
  unfold Obligations.ScalerIsExact
  intro raw mul div hlo hhi hdiv
  obtain ⟨hprodlo, hprodhi⟩ := product_range mul hlo (by omega)
  obtain ⟨hremlo, hremhi⟩ := trem_range (raw * mul.toNat) hdiv
  refine ⟨hprodlo, hprodhi, (tdiv_mul_add_trem _ _).symm, hremlo, hremhi, fun hpos => ?_, fun hneg => ?_, fun hzero => ?_⟩
  · exact tdiv_trem_nonneg (mul_nonneg hpos.le (Int.natCast_nonneg _)) _
  · exact tdiv_trem_nonpos (mul_nonpos_of_nonpos_of_nonneg hneg.le (Int.natCast_nonneg _)) _
  · have hprod : raw * mul.toNat = 0 := by
      obtain rfl | rfl := hzero
      · exact zero_mul _
      · exact mul_zero raw
    rw [hprod]
    simp [tdiv, trem]

/-! ### Sign correction at the composed width (R124) -/

theorem two_pow_eq_double {w : Nat} (hw : 1 ≤ w) : (2 : Int) ^ w = 2 * 2 ^ (w - 1) := by
  rw [← pow_succ', Nat.sub_add_cancel hw]

theorem signCorrect_true_eq {w acc : Nat} (hw : 1 ≤ w) (hacc : acc < 2 ^ w) :
    signCorrect true w acc = if 2 ^ (w - 1) ≤ acc then (acc : Int) - 2 ^ w else acc := by
  simpa using signCorrect_eq (signed := true) hw hacc

/-- Settles O17: the two halves of the range of a W-bit pattern. -/
theorem signAtComposedWidth : Obligations.SignAtComposedWidth := by
  unfold Obligations.SignAtComposedWidth
  intro w acc hw _ hacc
  have hdouble := two_pow_eq_double hw
  have haccInt : (acc : Int) < 2 ^ w := by exact_mod_cast hacc
  rw [signCorrect_true_eq hw hacc]
  refine ⟨rfl, fun hlow => if_neg (Nat.not_le.mpr hlow), fun hhigh => if_pos hhigh, ?_⟩
  split
  · next hhigh =>
    have hhighInt : (2 : Int) ^ (w - 1) ≤ acc := by exact_mod_cast hhigh
    omega
  · next hlow =>
    have hlowInt : (acc : Int) < 2 ^ (w - 1) := by exact_mod_cast Nat.lt_of_not_le hlow
    omega

/-- Sign correction takes the W-bit pattern of a number in its range back to the number. -/
theorem signCorrect_of_emod {signed : Bool} {w acc : Nat} {x : Int} (hw : 1 ≤ w) (hacc : (acc : Int) = x % 2 ^ w)
    (hsigned : signed = true → -(2 ^ (w - 1)) ≤ x ∧ x < 2 ^ (w - 1)) (hunsigned : signed = false → 0 ≤ x ∧ x < 2 ^ w) :
    signCorrect signed w acc = x := by
  cases signed with
  | false =>
    obtain ⟨hlo, hhi⟩ := hunsigned rfl
    exact hacc.trans (Int.emod_eq_of_lt hlo hhi)
  | true =>
    obtain ⟨hlo, hhi⟩ := hsigned rfl
    have hdouble := two_pow_eq_double hw
    have hpos : (0 : Int) < 2 ^ w := by positivity
    have hlt : acc < 2 ^ w := by exact_mod_cast hacc.trans_lt (Int.emod_lt_of_pos x hpos)
    have htop : 2 ^ (w - 1) ≤ acc ↔ (2 : Int) ^ (w - 1) ≤ acc := by exact_mod_cast Iff.rfl
    rw [signCorrect_true_eq hw hlt]
    simp only [htop]
    by_cases hx : 0 ≤ x
    · rw [Int.emod_eq_of_lt hx (by omega)] at hacc
      rw [if_neg (by omega), hacc]
    · rw [Int.emod_eq_add_self_emod, Int.emod_eq_of_lt (by omega) (by omega)] at hacc
      rw [if_pos (by omega), hacc]
      ring

/-! ### Round trip of a field (R108, R133) -/

/-- The low bits of a number, then the bits above them. -/
theorem emod_mul_eq (x : Int) {b c : Int} (hb : 0 < b) (hc : 0 < c) : x % (b * c) = x % b + b * (x / b % c) := by
  have hlow := Int.emod_lt_of_pos x hb
  have hhigh := Int.emod_lt_of_pos (x / b) hc
  refine ((Int.ediv_emod_unique (q := x / b / c) (mul_pos hb hc)).mpr ⟨?_, ?_, ?_⟩).2
  · calc x % b + b * (x / b % c) + b * c * (x / b / c)
        = x % b + b * (x / b % c + c * (x / b / c)) := by ring
      _ = x := by rw [Int.emod_add_mul_ediv, Int.emod_add_mul_ediv]
  · have := Int.emod_nonneg x hb.ne'
    have := Int.emod_nonneg (x / b) hc.ne'
    positivity
  · calc x % b + b * (x / b % c)
        < b * (x / b % c + 1) := by linarith
      _ ≤ b * c := mul_le_mul_of_nonneg_left hhigh hb.le

/-- The bits that the parts select in `P` hold the number `x`, the first part the least significant. -/
def HoldsValue (P : Nat → Byte) (ps : List FieldPart) (x : Int) : Prop :=
  ∀ k (h : k < ps.length), ((ps[k]).pv P : Int) = x / 2 ^ composedWidth (ps.take k) % 2 ^ (ps[k]).pw

section HoldsValue

variable {P : Nat → Byte} {p : FieldPart} {ps : List FieldPart} {x : Int}

theorem HoldsValue.head (h : HoldsValue P (p :: ps) x) : (p.pv P : Int) = x % 2 ^ p.pw := by
  have hpart := h 0 (Nat.succ_pos _)
  rwa [List.take_zero, composedWidth, pow_zero, Int.ediv_one] at hpart

theorem HoldsValue.tail (h : HoldsValue P (p :: ps) x) : HoldsValue P ps (x / 2 ^ p.pw) := fun k hk => by
  have hpart := h (k + 1) (by simpa using hk)
  rw [List.getElem_cons_succ, List.take_succ_cons, composedWidth, pow_add] at hpart
  rwa [Int.ediv_ediv_of_nonneg (by positivity)]

/-- Parts that hold `x` compose to the pattern of `x` at the composed width. -/
theorem HoldsValue.compose (h : HoldsValue P ps x) : (compose P ps : Int) = x % 2 ^ composedWidth ps := by
  induction ps generalizing x with
  | nil => simp [Machine.compose, composeFrom, composedWidth]
  | cons p ps ih =>
    have hps := ih h.tail
    rw [Machine.compose] at hps
    calc (Machine.compose P (p :: ps) : Int)
        = p.pv P + 2 ^ p.pw * composeFrom P 0 ps := by
          rw [Machine.compose, composeFrom, composeFrom_eq_mul, Nat.shiftLeft_zero, Nat.zero_add]
          push_cast
          ring
      _ = x % 2 ^ p.pw + 2 ^ p.pw * (x / 2 ^ p.pw % 2 ^ composedWidth ps) := by rw [hps, h.head]
      _ = x % 2 ^ composedWidth (p :: ps) := by
          rw [composedWidth, pow_add, emod_mul_eq x (by positivity) (by positivity)]

end HoldsValue

theorem FieldSpec.composedWidth_pos {f : FieldSpec} (h : f.wf = true) : 1 ≤ composedWidth f.parts := by
  obtain ⟨hne, hlegal, -, -⟩ := FieldSpec.wf_iff.mp h
  exact (List.length_pos_iff.mpr hne).trans_le (length_le_composedWidth hlegal)

/-- Settles O31: the composed value is the pattern of x at the composed width, and sign correction undoes the pattern. -/
theorem fieldRoundTrip : Obligations.FieldRoundTrip := by
  unfold Obligations.FieldRoundTrip
  intro f P x hwf hsigned hunsigned hparts
  have hpattern := HoldsValue.compose (P := P) (ps := f.parts) hparts
  have hraw : signCorrect f.signed (composedWidth f.parts) (compose P f.parts) = x :=
    signCorrect_of_emod (FieldSpec.composedWidth_pos hwf) hpattern hsigned hunsigned
  refine ⟨hraw, ?_⟩
  simp only [fieldRecord, hraw]
  exact tdiv_mul_add_trem _ _

end Sys2Proof.Machine

namespace Sys2Proof.Machine

/-! ### One word of the decode loop (R116, R129) -/

/-- Settles O7: fetch finds the word at DPC, and nothing stands between its decoding and `exec`. -/
theorem stepRunsDecodedWord : Obligations.StepRunsDecodedWord := by
  unfold Obligations.StepRunsDecodedWord
  intro s i hbusy hdpc hi
  rw [step_of_busy hbusy]
  exact decodeStep_of_decodes hdpc hi

theorem endWord_of_closed {s : State} (h : s.nparts = 0#6) : endWord s = .ok { s with phase := .done } :=
  if_neg (not_not.mpr h)

/-- Settles O19, by the one branch of END that raises nothing. -/
theorem endFinishes : Obligations.EndFinishes := by
  unfold Obligations.EndFinishes
  intro s hclosed
  exact exec_of_ok (i := .endList) (endWord_of_closed hclosed)

/-- Settles O20: with OP 3 a word is END or has a reserved bit set, and END looks at NPARTS. -/
theorem endWordAtDpc : Obligations.EndWordAtDpc := by
  unfold Obligations.EndWordAtDpc
  intro s hbusy hdpc hop
  have hdecode := decodeWord_endList hop
  have hend : (s.descWord s.dpc.toNat).toNat % 2 ^ 60 = 0 → step s = exec .endList s := fun hzero =>
    stepRunsDecodedWord s .endList hbusy hdpc (hdecode.trans (if_pos hzero))
  refine ⟨fun hset => ?_, fun hzero hopen => ?_, fun hzero hclosed => ?_⟩
  · obtain ⟨-, -, hreserved⟩ := illegalWordFaults s hbusy
    exact hreserved hdpc (hdecode.trans (if_neg hset))
  · exact (hend hzero).trans (exec_of_error (i := .endList) (endWord_of_open hopen))
  · exact (hend hzero).trans (endFinishes s hclosed)

/-! ### PART in and out of range (R121, R122) -/

section PartEffect

variable {s : State} {p : FieldPart}

/-- The state after one PART word, whatever its range class. -/
def State.takePart (p : FieldPart) (s : State) : State :=
  (countPart p.pw (latchPart p.offset p.mask p.size s)).advance

theorem wordEffect_part (hlegal : partLegal p.mask p.size = true) (hfit : s.accw.toNat + p.pw ≤ 48) :
    wordEffect p.word s = .ok (s.takePart p) :=
  (partWord_of_legal hlegal).trans (if_neg (Nat.not_lt.mpr hfit))

theorem State.takePart_accw (hfit : s.accw.toNat + p.pw ≤ 48) :
    (s.takePart p).accw.toNat = s.accw.toNat + p.pw := by
  simpa [State.takePart] using accw_add_toNat hfit

/-- NPARTS is at most ACCW, which is at most 48, so it does not wrap. -/
theorem State.DecoderOk.nparts_add_one (h : s.DecoderOk) : (s.nparts + 1).toNat = s.nparts.toNat + 1 := by
  have hle := h.npartsLe.trans h.accwLe
  bv_omega

theorem State.takePart_nparts (h : s.DecoderOk) : (s.takePart p).nparts.toNat = s.nparts.toNat + 1 := by
  simpa [State.takePart] using h.nparts_add_one

/-- A part at or beyond the end of the payload latches ABS (R122). -/
theorem State.takePart_of_absent (h : s.payLen.toNat ≤ p.offset.toNat) :
    s.takePart p = (countPart p.pw { s with abs := true }).advance := by
  rw [State.takePart, latchPart, if_pos h]

/-- A part that starts inside and ends outside latches OOBP, and OOB_DPC if it is the first (R122). -/
theorem State.takePart_of_straddles (hin : p.offset.toNat < s.payLen.toNat)
    (hout : s.payLen.toNat < p.offset.toNat + p.size.toNat) :
    s.takePart p =
      (countPart p.pw { s with oobp := true, oobDpc := if s.oobp then s.oobDpc else s.dpc }).advance := by
  obtain ⟨hle, -⟩ | ⟨-, -, hlatch⟩ | ⟨-, hle, -⟩ := latchPart_cases p.offset p.mask p.size s
  · exact absurd hin (Nat.not_lt.mpr hle)
  · rw [State.takePart, hlatch]
  · exact absurd hout (Nat.not_lt.mpr hle)

end PartEffect

/-- Settles O11: a part in range is `afterParts` of one part, whose value has room above the accumulator's bits. -/
theorem partInRangeAccumulates : Obligations.PartInRangeAccumulates := by
  unfold Obligations.PartInRangeAccumulates
  intro p s hdec hlegal hfit hrange
  obtain ⟨hacc, -⟩ := hdec.acc_add hfit (partValue_lt hlegal (leNat_lt s.payByte p.offset.toNat p.size.toNat))
  exact ⟨s.afterParts [p], exec_of_ok (partWord_of_inRange hlegal hfit hrange), hacc, accw_add_toNat hfit,
    hdec.nparts_add_one, rfl, rfl⟩

/-- Settles O12: the two classes out of range, the counting of the part in common. -/
theorem partOutOfRangeLatches : Obligations.PartOutOfRangeLatches := by
  unfold Obligations.PartOutOfRangeLatches
  intro p s hdec hlegal hfit hout
  refine ⟨s.takePart p, exec_of_ok (wordEffect_part hlegal hfit), State.takePart_accw hfit, State.takePart_nparts hdec,
    fun habsent => ?_, fun hin => ?_⟩
  · rw [State.takePart_of_absent habsent]
    rfl
  · rw [State.takePart_of_straddles hin hout]
    rfl

/-! ### FIELD (R123 to R128, R160) -/

section FieldWord

variable {tag : BitVec 16} {signed : Bool} {mul div : BitVec 16} {s : State}

theorem fieldWord_of_closed (h : s.nparts = 0#6) :
    fieldWord tag signed mul div s = .error (descriptorError 7 s) :=
  if_pos h

theorem fieldWord_of_zeroDivisor (hnparts : s.nparts ≠ 0#6) (hdiv : div = 0#16) :
    fieldWord tag signed mul div s = .error (descriptorError 8 s) := by
  simp [fieldWord, hnparts, hdiv]

theorem fieldWord_of_straddles (hnparts : s.nparts ≠ 0#6) (hdiv : div ≠ 0#16) (habs : s.abs = false)
    (hoobp : s.oobp = true) : fieldWord tag signed mul div s = .error ⟨.outOfBounds, 0, s.oobDpc⟩ := by
  simp [fieldWord, hnparts, hdiv, habs, hoobp]

/-- With RES full neither record can be emitted. -/
theorem fieldWord_of_full (hnparts : s.nparts ≠ 0#6) (hdiv : div ≠ 0#16) (hrange : s.abs = true ∨ s.oobp = false)
    (hfull : s.resCount.toNat = s.par.resCap) :
    fieldWord tag signed mul div s = .error ⟨.resultOverflow, 0, s.dpc⟩ := by
  cases habs : s.abs with
  | true => simp [fieldWord, hnparts, hdiv, habs, emit_of_eq hfull]
  | false =>
    have hoobp : s.oobp = false := by simpa [habs] using hrange
    simp [fieldWord, hnparts, hdiv, habs, hoobp, emit_of_eq hfull]

end FieldWord

/-- Settles O16: the checks of FIELD in the order of R160. -/
theorem fieldFaults : Obligations.FieldFaults := by
  unfold Obligations.FieldFaults
  intro tag signed mul div s
  have hfault : ∀ r, fieldWord tag signed mul div s = .error r →
      exec (.field tag signed mul div) s = .next (s.raise r) :=
    fun _ => exec_of_error (i := .field tag signed mul div)
  exact ⟨fun hclosed => hfault _ (fieldWord_of_closed hclosed),
    fun hnparts hdiv => hfault _ (fieldWord_of_zeroDivisor hnparts hdiv),
    fun hnparts hdiv habs hoobp => hfault _ (fieldWord_of_straddles hnparts hdiv habs hoobp),
    fun hnparts hdiv hrange hfull => hfault _ (fieldWord_of_full hnparts hdiv hrange hfull)⟩

/-- With a group open ACCW is not 0. -/
theorem State.DecoderOk.accw_pos {s : State} (h : s.DecoderOk) (hnparts : s.nparts ≠ 0#6) : 1 ≤ s.accw.toNat := by
  have hle := h.npartsLe
  bv_omega

theorem fieldRecord_flagv_iff (tag : BitVec 16) (signed : Bool) {mul div : BitVec 16} {w acc : Nat} :
    (fieldRecord tag signed mul div w acc).flagv = true ↔ w = 1 ∧ mul = div ∧ acc ≠ 0 := by
  simp [fieldRecord, isFlag_iff, and_assoc]

/-- Settles O14: FIELD appends the value record and closes the group. -/
theorem fieldEmitsValue : Obligations.FieldEmitsValue := by
  unfold Obligations.FieldEmitsValue
  intro tag signed mul div s hdec hpar hnparts hdiv habs hoobp hroom
  have heffect := fieldWord_of_inRange (tag := tag) (signed := signed) (mul := mul) hnparts hdiv habs hoobp hroom.ne
  have hraw := signCorrect_eq (signed := signed) (hdec.accw_pos hnparts) hdec.accLt
  have hkind := fieldRecord_kind tag signed mul div s.accw.toNat s.acc.toNat
  have hflagv := fieldRecord_flagv_iff tag signed (mul := mul) (div := div) (w := s.accw.toNat) (acc := s.acc.toNat)
  have hacc : s.acc.toNat ≠ 0 ↔ s.acc ≠ 0#48 := not_congr (BitVec.toNat_inj (y := 0#48))
  obtain ⟨hlast, hcount, hothers⟩ := emits_of_append hpar hroom rfl rfl
    (t := ((s.append (fieldRecord tag signed mul div s.accw.toNat s.acc.toNat)).clearGroup).advance)
  obtain ⟨hremlo, hremhi⟩ := trem_range (signCorrect signed s.accw.toNat s.acc.toNat * mul.toNat) hdiv
  refine ⟨_, _, exec_of_ok heffect, hlast, rfl, rfl, rfl, rfl, hraw, tdiv_mul_add_trem _ _, hremlo, hremhi,
    fun hnonneg => (tdiv_trem_nonneg hnonneg _).2, fun hnonpos => (tdiv_trem_nonpos hnonpos _).2, ?_, ?_, hcount,
    hothers, rfl⟩
  · simpa only [isFlag_iff] using hkind
  · rwa [hacc] at hflagv

end Sys2Proof.Machine

namespace Sys2Proof.Machine

/-! ### A run of PART words of any range class (R71, R122, R130) -/

theorem FieldPart.isAbsent_iff {p : FieldPart} {len : Nat} : p.isAbsent len = true ↔ len ≤ p.offset.toNat := by
  simp [FieldPart.isAbsent]

theorem FieldPart.straddles_iff {p : FieldPart} {len : Nat} :
    p.straddles len = true ↔ p.offset.toNat < len ∧ len < p.offset.toNat + p.size.toNat := by
  simp [FieldPart.straddles]

/-- `t` is `s` but for DPC and the field-group registers. -/
def SameOutsideGroup (s t : State) : Prop :=
  t.clearGroup = { s.clearGroup with dpc := t.dpc }

section SameOutsideGroup

variable {s t u : State}

theorem SameOutsideGroup.refl (s : State) : SameOutsideGroup s s := rfl

theorem SameOutsideGroup.trans (h : SameOutsideGroup s t) (h' : SameOutsideGroup t u) : SameOutsideGroup s u := by
  unfold SameOutsideGroup at h h' ⊢
  rw [h', h]

theorem SameOutsideGroup.par (h : SameOutsideGroup s t) : t.par = s.par := (congrArg State.par h :)

theorem SameOutsideGroup.phase (h : SameOutsideGroup s t) : t.phase = s.phase := (congrArg State.phase h :)

theorem SameOutsideGroup.status (h : SameOutsideGroup s t) : t.status = s.status := (congrArg State.status h :)

theorem SameOutsideGroup.payLen (h : SameOutsideGroup s t) : t.payLen = s.payLen := (congrArg State.payLen h :)

theorem SameOutsideGroup.resCount (h : SameOutsideGroup s t) : t.resCount = s.resCount := (congrArg State.resCount h :)

theorem SameOutsideGroup.desc (h : SameOutsideGroup s t) : t.desc = s.desc := (congrArg State.desc h :)

end SameOutsideGroup

/-- The state after the PART words of `ps`, whatever their range classes. -/
def State.takeParts (ps : List FieldPart) (s : State) : State :=
  ps.foldl (fun u p => u.takePart p) s

section TakeParts

variable {s : State} {p : FieldPart} {ps : List FieldPart}

theorem State.takeParts_cons (s : State) (p : FieldPart) (ps : List FieldPart) :
    s.takeParts (p :: ps) = (s.takePart p).takeParts ps := rfl

theorem State.takeParts_append (s : State) (ps qs : List FieldPart) :
    s.takeParts (ps ++ qs) = (s.takeParts ps).takeParts qs :=
  List.foldl_append

theorem State.takePart_outside (s : State) (p : FieldPart) : SameOutsideGroup s (s.takePart p) := by
  apply State.ext <;> simp [State.takePart]

theorem State.takeParts_outside (s : State) (ps : List FieldPart) : SameOutsideGroup s (s.takeParts ps) := by
  induction ps generalizing s with
  | nil => exact .refl s
  | cons p ps ih => exact (s.takePart_outside p).trans (ih (s.takePart p))

theorem State.takePart_dpc (s : State) (p : FieldPart) : (s.takePart p).dpc = s.dpc + 1 := by
  simp [State.takePart]

theorem State.takeParts_dpc (s : State) (ps : List FieldPart) :
    (s.takeParts ps).dpc = s.dpc + BitVec.ofNat 32 ps.length := by
  induction ps generalizing s with
  | nil => simp [State.takeParts]
  | cons p ps ih =>
    rw [State.takeParts_cons, ih, State.takePart_dpc, List.length_cons, Nat.add_comm, BitVec.ofNat_add,
      ← BitVec.add_assoc]
    rfl

theorem State.takeParts_nparts (s : State) (ps : List FieldPart) :
    (s.takeParts ps).nparts = s.nparts + BitVec.ofNat 6 ps.length := by
  induction ps generalizing s with
  | nil => simp [State.takeParts]
  | cons p ps ih =>
    rw [State.takeParts_cons, ih, List.length_cons, Nat.add_comm, BitVec.ofNat_add, ← BitVec.add_assoc]
    simp [State.takePart]

/-- What a part latches, by its range class (R122). -/
theorem State.takePart_latches (s : State) (p : FieldPart) :
    (s.takePart p).abs = (s.abs || p.isAbsent s.payLen.toNat) ∧
      (s.takePart p).oobp = (s.oobp || p.straddles s.payLen.toNat) ∧
      (s.takePart p).oobDpc = if s.oobp = false ∧ p.straddles s.payLen.toNat = true then s.dpc else s.oobDpc := by
  simp only [State.takePart, State.advance_abs, State.countPart_abs, State.advance_oobp, State.countPart_oobp,
    State.advance_oobDpc, State.countPart_oobDpc, FieldPart.straddles_iff]
  obtain ⟨habsent, hlatch⟩ | ⟨hin, hout, hlatch⟩ | ⟨hin, hrange, hlatch⟩ := latchPart_cases p.offset p.mask p.size s
  · have hnot : ¬p.offset.toNat < s.payLen.toNat := Nat.not_lt.mpr habsent
    simp [hlatch, FieldPart.isAbsent, FieldPart.straddles, habsent, hnot]
  · have hnot : ¬s.payLen.toNat ≤ p.offset.toNat := Nat.not_le.mpr hin
    cases hoobp : s.oobp <;> simp [hlatch, FieldPart.isAbsent, FieldPart.straddles, hin, hout, hnot, hoobp]
  · have hnot : ¬s.payLen.toNat ≤ p.offset.toNat := Nat.not_le.mpr hin
    have hnot' : ¬s.payLen.toNat < p.offset.toNat + p.size.toNat := Nat.not_lt.mpr hrange
    simp [hlatch, FieldPart.isAbsent, FieldPart.straddles, hnot, hnot']

/-- ABS after the parts tells whether one is absent, OOBP whether one straddles. -/
theorem State.takeParts_latches (s : State) (ps : List FieldPart) :
    (s.takeParts ps).abs = (s.abs || ps.any (·.isAbsent s.payLen.toNat)) ∧
      (s.takeParts ps).oobp = (s.oobp || ps.any (·.straddles s.payLen.toNat)) := by
  induction ps generalizing s with
  | nil => simp [State.takeParts]
  | cons p ps ih =>
    obtain ⟨habs, hoobp, -⟩ := s.takePart_latches p
    obtain ⟨ihabs, ihoobp⟩ := ih (s.takePart p)
    rw [State.takeParts_cons, ihabs, ihoobp, (s.takePart_outside p).payLen, habs, hoobp]
    simp [Bool.or_assoc]

/-- OOB_DPC keeps the first straddling part. -/
theorem State.takeParts_oobDpc_of_latched (h : s.oobp = true) (ps : List FieldPart) :
    (s.takeParts ps).oobDpc = s.oobDpc := by
  induction ps generalizing s with
  | nil => rfl
  | cons p ps ih =>
    obtain ⟨-, hoobp, hoobDpc⟩ := s.takePart_latches p
    rw [State.takeParts_cons, ih (by simp [hoobp, h]), hoobDpc]
    simp [h]

/-- The PART words of a group's parts, run from inside the group. -/
theorem run_takeParts {rest : List Instr} (hlegal : ∀ p ∈ ps, partLegal p.mask p.size = true)
    (hbusy : s.phase = .busy) (hpar : s.par.wf = true) (hfit : s.accw.toNat + composedWidth ps ≤ 48)
    (hlist : s.holdsList s.dpc.toNat (ps.map FieldPart.word ++ rest)) :
    Sys2Proof.core.run ps.length s = .next (s.takeParts ps) ∧
      (s.takeParts ps).holdsList (s.takeParts ps).dpc.toNat rest := by
  induction ps generalizing s with
  | nil => exact ⟨rfl, hlist⟩
  | cons p ps ih =>
    obtain ⟨hp, hps⟩ := List.forall_mem_cons.mp hlegal
    obtain ⟨hlt, -, htail⟩ := State.holdsList_cons.mp hlist
    rw [composedWidth] at hfit
    have hstep : step s = .next (s.takePart p) :=
      (step_of_holdsList hbusy hlist).trans (exec_of_ok (wordEffect_part hp (by omega)))
    have hsame := s.takePart_outside p
    have hdpc : (s.takePart p).dpc.toNat = s.dpc.toNat + 1 :=
      (congrArg BitVec.toNat (s.takePart_dpc p)).trans (dpc_add_toNat hpar hlt)
    rw [List.length_cons, run_succ_of_step hstep]
    refine ih hps (hsame.phase.trans hbusy) (hsame.par ▸ hpar) ?_ ?_
    · rw [State.takePart_accw (by omega)]
      omega
    · rw [hdpc]
      exact htail.of_same_desc hsame.par hsame.desc

end TakeParts

/-! ### Field groups with a part out of range (R130, R131, R149) -/

theorem FieldSpec.group_length (f : FieldSpec) : f.group.length = f.parts.length + 1 := by
  simp [FieldSpec.group]

section Group

variable {f : FieldSpec} {s t : State}

theorem State.groupClosed.clearGroup_eq (h : s.groupClosed) : s.clearGroup = s := by
  obtain ⟨hacc, haccw, hnparts, habs, hoobp, hoobDpc⟩ := h
  apply State.ext <;> simp [hacc, haccw, hnparts, habs, hoobp, hoobDpc]

/-- At the FIELD word of a well-formed group the group is open. -/
theorem State.groupClosed.takeParts_open (h : s.groupClosed) (hwf : f.wf = true) :
    (s.takeParts f.parts).nparts ≠ 0#6 := by
  obtain ⟨hne, hlegal, hwidth, -⟩ := FieldSpec.wf_iff.mp hwf
  obtain ⟨-, -, hnparts, -, -, -⟩ := h
  have hpos := List.length_pos_iff.mpr hne
  have hle := (length_le_composedWidth hlegal).trans hwidth
  rw [State.takeParts_nparts, hnparts]
  bv_omega

/-- A field group runs as its parts, then its FIELD word. -/
theorem run_group (hwf : f.wf = true) (hbusy : s.phase = .busy) (hclosed : s.groupClosed) (hpar : s.par.wf = true)
    (hlist : s.holdsList s.dpc.toNat f.group) (hfield : exec f.word (s.takeParts f.parts) = .next t) :
    Sys2Proof.core.run f.group.length s = .next t := by
  obtain ⟨-, hlegal, hwidth, -⟩ := FieldSpec.wf_iff.mp hwf
  obtain ⟨-, haccw, -, -, -, -⟩ := hclosed
  obtain ⟨hparts, hword⟩ := run_takeParts hlegal hbusy hpar (by simpa [haccw] using hwidth) hlist
  rw [FieldSpec.group_length, run_add_of_run hparts]
  exact run_one_of_step ((step_of_holdsList ((s.takeParts_outside f.parts).phase.trans hbusy) hword).trans hfield)

end Group

/-- Settles O33: the parts latch ABS and FIELD emits the absent record, on a state that differs from the one before the
group in DPC and the field-group registers alone. -/
theorem fieldGroupAbsent : Obligations.FieldGroupAbsent := by
  unfold Obligations.FieldGroupAbsent
  intro f s hwf hbusy hclosed hpar hlist hroom habsent
  obtain ⟨-, -, -, hdiv⟩ := FieldSpec.wf_iff.mp hwf
  have hsame := s.takeParts_outside f.parts
  have habs : (s.takeParts f.parts).abs = true := by
    rw [(s.takeParts_latches f.parts).1, Bool.or_eq_true, List.any_eq_true]
    simp only [FieldPart.isAbsent_iff]
    exact .inr habsent
  have hroom' : (s.takeParts f.parts).resCount.toNat ≠ (s.takeParts f.parts).par.resCap := by
    rw [hsame.resCount, hsame.par]
    exact hroom.ne
  generalize hr : absentRecord f.tag f.div = r
  have heffect : wordEffect f.word (s.takeParts f.parts) =
      .ok (((s.takeParts f.parts).clearGroup.append r).setFlag .absent).advance := by
    rw [← hr]
    exact fieldWord_of_absent (hclosed.takeParts_open hwf) hdiv habs hroom'
  rw [hsame, hclosed.clearGroup_eq, s.takeParts_dpc] at heffect
  obtain ⟨hlast, hcount, hothers⟩ := emits_of_append hpar hroom rfl rfl
    (t := (({ s with dpc := s.dpc + BitVec.ofNat 32 f.parts.length }.append r).setFlag .absent).advance)
  refine ⟨_, run_group hwf hbusy hclosed hpar hlist (exec_of_ok heffect), hr ▸ hlast, hothers, hcount, ?_,
    getLsbD_or_flag s.status .absent, rfl⟩
  have hdpc : s.dpc + BitVec.ofNat 32 f.parts.length + 1 = s.dpc + BitVec.ofNat 32 f.group.length := by
    rw [FieldSpec.group_length, BitVec.ofNat_add, BitVec.add_assoc]
    rfl
  exact (congrArg BitVec.toNat hdpc).trans (dpc_add_toNat hpar hlist.1)

/-- OOB_DPC after a group whose parts before part `k` are in range and whose part `k` straddles. -/
theorem State.groupClosed.takeParts_oobDpc {s : State} (h : s.groupClosed) {ps : List FieldPart} {k : Nat}
    (hk : k < ps.length) (hstraddles : (ps[k]).straddles s.payLen.toNat = true)
    (hbefore : ∀ p ∈ ps.take k, p.offset.toNat + p.size.toNat ≤ s.payLen.toNat) :
    (s.takeParts ps).oobDpc = s.dpc + BitVec.ofNat 32 k := by
  obtain ⟨-, -, -, -, hoobp0, -⟩ := h
  have hoobp : (s.takeParts (ps.take k)).oobp = false := by
    rw [(s.takeParts_latches _).2, hoobp0, Bool.false_or, List.any_eq_false]
    intro p hp
    rw [FieldPart.straddles_iff]
    exact fun hst => absurd hst.2 (Nat.not_lt.mpr (hbefore p hp))
  obtain ⟨-, hlatch, hfirst⟩ := (s.takeParts (ps.take k)).takePart_latches ps[k]
  rw [(s.takeParts_outside _).payLen, hstraddles] at hlatch hfirst
  calc (s.takeParts ps).oobDpc
      = (((s.takeParts (ps.take k)).takePart ps[k]).takeParts (ps.drop (k + 1))).oobDpc := by
        rw [← State.takeParts_cons, ← List.drop_eq_getElem_cons hk, ← State.takeParts_append, List.take_append_drop]
    _ = ((s.takeParts (ps.take k)).takePart ps[k]).oobDpc :=
        State.takeParts_oobDpc_of_latched (hlatch.trans (Bool.or_true _)) _
    _ = (s.takeParts (ps.take k)).dpc := hfirst.trans (if_pos ⟨hoobp, rfl⟩)
    _ = s.dpc + BitVec.ofNat 32 k := by rw [State.takeParts_dpc, List.length_take_of_le hk.le]

/-- Settles O34: with no part absent FIELD raises OutOfBounds at the latched PART, and fault entry keeps the rest. -/
theorem fieldGroupStraddles : Obligations.FieldGroupStraddles := by
  unfold Obligations.FieldGroupStraddles
  intro f s k hk hwf hbusy hclosed hpar hlist hpresent hout hbefore
  obtain ⟨-, -, -, hdiv⟩ := FieldSpec.wf_iff.mp hwf
  have hsame := s.takeParts_outside f.parts
  have hlen : s.dpc.toNat + (f.parts.length + 1) ≤ s.par.descLen := f.group_length ▸ hlist.1
  have hstraddles : (f.parts[k]).straddles s.payLen.toNat = true :=
    FieldPart.straddles_iff.mpr ⟨hpresent _ (List.getElem_mem hk), hout⟩
  have hoobDpc := hclosed.takeParts_oobDpc hk hstraddles hbefore
  obtain ⟨habs, hoobp⟩ := s.takeParts_latches f.parts
  have hnotAbs : (s.takeParts f.parts).abs = false := by
    obtain ⟨-, -, -, habs0, -, -⟩ := hclosed
    rw [habs, habs0, Bool.false_or, List.any_eq_false]
    intro p hp
    rw [FieldPart.isAbsent_iff]
    exact Nat.not_le.mpr (hpresent p hp)
  have hlatched : (s.takeParts f.parts).oobp = true := by
    rw [hoobp, Bool.or_eq_true, List.any_eq_true]
    exact .inr ⟨_, List.getElem_mem hk, hstraddles⟩
  have heffect : wordEffect f.word (s.takeParts f.parts) = _ :=
    fieldWord_of_straddles (hclosed.takeParts_open hwf) hdiv hnotAbs hlatched
  refine ⟨_, run_group hwf hbusy hclosed hpar hlist (exec_of_error heffect), rfl, rfl, rfl, ?_, ?_, rfl,
    hsame.status, hsame.payLen⟩
  · exact (congrArg BitVec.toNat hoobDpc).trans (dpc_add_toNat hpar (by omega))
  · exact (congrArg BitVec.toNat (s.takeParts_dpc f.parts)).trans (dpc_add_toNat hpar (by omega))

end Sys2Proof.Machine

namespace Sys2Proof.Machine

/-! ### Every DECODE ends (R116, R118) -/

section Progress

variable {s t : State}

/-- The effect of a word is to move on to the next word, or to end the list and stay at its END. -/
theorem wordEffect_progress {i : Instr} (h : wordEffect i s = .ok t) :
    (t.phase = .done ∧ t.dpc = s.dpc) ∨ (t.phase = s.phase ∧ t.dpc = s.dpc + 1) := by
  cases i with
  | part offset mask size =>
    obtain ⟨-, -, rfl⟩ := partWord_ok_legal h
    exact .inr (by simp)
  | field tag signed mul div =>
    obtain ⟨-, -, -, ⟨-, rfl⟩ | ⟨-, -, rfl⟩⟩ := fieldWord_ok h
    · exact .inr ⟨rfl, rfl⟩
    · exact .inr ⟨rfl, rfl⟩
  | endList =>
    obtain ⟨-, rfl⟩ := endWord_ok h
    exact .inl ⟨rfl, rfl⟩
  | rdu tag offset size =>
    obtain ⟨-, -, -, v, -, rfl⟩ := readWord_ok h
    exact .inr ⟨rfl, rfl⟩
  | rdi tag offset size =>
    obtain ⟨-, -, -, v, -, rfl⟩ := readWord_ok h
    exact .inr ⟨rfl, rfl⟩

/-- What a step of the decode loop keeps, whatever its outcome, and that only fault entry writes the error registers. -/
theorem decodeStep_keeps (h : decodeStep s = .next t) :
    t.par = s.par ∧ t.desc = s.desc ∧
      (t.phase = .fault ∨ t.errCode = s.errCode ∧ t.errSub = s.errSub ∧ t.errInfo = s.errInfo) := by
  obtain ⟨r, -, rfl⟩ | ⟨i, hi⟩ := decodeStep_wordEffect h
  · exact ⟨rfl, rfl, .inl rfl⟩
  · rw [(wordKeeps_of_wordEffect hi).frame]
    exact ⟨rfl, rfl, .inr ⟨rfl, rfl, rfl⟩⟩

/-- A step of the decode loop faults, ends the DECODE, or runs a word inside DESC and adds 1 to DPC. -/
theorem decodeStep_progress (hpar : s.par.wf = true) (h : decodeStep s = .next t) :
    (t.phase = .fault ∧ t.dpc = s.dpc) ∨ (t.phase = .done ∧ t.dpc = s.dpc) ∨
      (t.phase = s.phase ∧ s.dpc.toNat < s.par.descLen ∧ t.dpc.toNat = s.dpc.toNat + 1) := by
  obtain ⟨r, rfl⟩ | ⟨i, hlt, -, hexec⟩ := decodeStep_cases h
  · exact .inl ⟨rfl, rfl⟩
  obtain ⟨r, -, rfl⟩ | hi := exec_cases hexec
  · exact .inl ⟨rfl, rfl⟩
  obtain hdone | ⟨hphase, hdpc⟩ := wordEffect_progress hi
  · exact .inr (.inl hdone)
  · exact .inr (.inr ⟨hphase, hlt, (congrArg BitVec.toNat hdpc).trans (dpc_add_toNat hpar hlt)⟩)

/-- What is left of DESC bounds the steps to the end of a DECODE. -/
theorem run_ends (hbusy : s.phase = .busy) (hpar : s.par.wf = true) :
    ∃ n t, 1 ≤ n ∧ n ≤ s.par.descLen - s.dpc.toNat + 1 ∧ Sys2Proof.core.run n s = .next t ∧
      (t.phase = .done ∨ t.phase = .fault) := by
  induction hleft : s.par.descLen - s.dpc.toNat using Nat.strong_induction_on generalizing s with
  | _ left ih =>
    obtain ⟨t, hd⟩ := decodeStep_next s
    have hstep : step s = .next t := (step_of_busy hbusy).trans hd
    obtain ⟨hfault, -⟩ | ⟨hdone, -⟩ | ⟨hphase, hlt, hdpc⟩ := decodeStep_progress hpar hd
    · exact ⟨1, t, le_rfl, by omega, run_one_of_step hstep, .inr hfault⟩
    · exact ⟨1, t, le_rfl, by omega, run_one_of_step hstep, .inl hdone⟩
    · obtain ⟨hpart, -, -⟩ := decodeStep_keeps hd
      have hless : t.par.descLen - t.dpc.toNat < left := by rw [hpart]; omega
      obtain ⟨n, u, -, hn, hrun, hend⟩ := ih _ hless (hphase.trans hbusy) (hpart ▸ hpar) rfl
      exact ⟨n + 1, u, by omega, by omega, (run_succ_of_step hstep).trans hrun, hend⟩

end Progress

/-- Settles O36: the trichotomy of one step, and what is left of DESC as the measure. -/
theorem everyDecodeEnds : Obligations.EveryDecodeEnds := by
  unfold Obligations.EveryDecodeEnds
  intro s hbusy hpar
  refine ⟨?_, run_ends hbusy hpar⟩
  obtain ⟨t, hd⟩ := decodeStep_next s
  refine ⟨t, (step_of_busy hbusy).trans hd, ?_, fun hover => ?_⟩
  · obtain ⟨hfault, -⟩ | ⟨hdone, -⟩ | ⟨hphase, -, hdpc⟩ := decodeStep_progress hpar hd
    · exact .inl hfault
    · exact .inr (.inl hdone)
    · exact .inr (.inr ⟨hphase.trans hbusy, hdpc⟩)
  · cases hd.symm.trans (decodeStep_of_overrun hover)
    rfl

end Sys2Proof.Machine

namespace Sys2Proof.Machine

/-! ### DECODE reads the words it runs and the payload alone (R132) -/

/-- `s` and `s'` are alike in everything a descriptor word reads, in the records emitted so far, in NOTFOUND and ABSENT,
and in the error registers of a fault. -/
structure DecodeAlike (s s' : State) : Prop where
  descLen : s.par.descLen = s'.par.descLen
  resCap : s.par.resCap = s'.par.resCap
  payLen : s.payLen = s'.payLen
  phase : s.phase = s'.phase
  dpc : s.dpc = s'.dpc
  acc : s.acc = s'.acc
  accw : s.accw = s'.accw
  nparts : s.nparts = s'.nparts
  abs : s.abs = s'.abs
  oobp : s.oobp = s'.oobp
  oobDpc : s.oobDpc = s'.oobDpc
  resCount : s.resCount = s'.resCount
  pay : ∀ a, a < s.payLen.toNat → s.payByte a = s'.payByte a
  res : ∀ i, i < s.resCount.toNat → s.res.get? i = s'.res.get? i
  status : ∀ b, b = 3 ∨ b = 4 → s.status.getLsbD b = s'.status.getLsbD b
  errors : s.phase = .fault → s.errCode = s'.errCode ∧ s.errSub = s'.errSub ∧ s.errInfo = s'.errInfo

/-- Two words raise the same fault, or leave states that are alike. -/
inductive EndAlike : Except Raise State → Except Raise State → Prop
  | error (r : Raise) : EndAlike (.error r) (.error r)
  | ok {t t' : State} (h : DecodeAlike t t') : EndAlike (.ok t) (.ok t')

theorem EndAlike.ite {c c' : Prop} [Decidable c] [Decidable c'] {x x' y y' : Except Raise State} (hc : c ↔ c')
    (hx : EndAlike x x') (hy : EndAlike y y') : EndAlike (if c then x else y) (if c' then x' else y') := by
  by_cases h : c
  · rwa [if_pos h, if_pos (hc.mp h)]
  · rwa [if_neg h, if_neg (mt hc.mpr h)]

theorem EndAlike.map {x x' : Except Raise State} {f : State → State} (h : EndAlike x x')
    (hf : ∀ {t t'}, DecodeAlike t t' → DecodeAlike (f t) (f t')) : EndAlike (x.map f) (x'.map f) := by
  cases h with
  | error r => exact .error r
  | ok h => exact .ok (hf h)

/-- The number of the bytes reads no other byte. -/
theorem leNat_congr {buf buf' : Nat → Byte} {o n : Nat} (h : ∀ i, i < n → buf (o + i) = buf' (o + i)) :
    leNat buf o n = leNat buf' o n := by
  induction n with
  | zero => rfl
  | succ n ih => rw [leNat, leNat, ih fun i hi => h i (by omega), h n n.lt_succ_self]

/-- FIELD with `emit` in the place of its match. -/
theorem fieldWord_eq_map (tag : BitVec 16) (signed : Bool) (mul div : BitVec 16) (s : State) :
    fieldWord tag signed mul div s =
      if s.nparts = 0#6 then .error (descriptorError 7 s)
      else if div = 0#16 then .error (descriptorError 8 s)
      else if s.abs then (emit (absentRecord tag div) s).map fun t => (t.setFlag .absent).clearGroup.advance
      else if s.oobp then .error ⟨.outOfBounds, 0, s.oobDpc⟩
      else (emit (fieldRecord tag signed mul div s.accw.toNat s.acc.toNat) s).map fun t => t.clearGroup.advance := by
  unfold fieldWord
  cases emit (absentRecord tag div) s <;>
    cases emit (fieldRecord tag signed mul div s.accw.toNat s.acc.toNat) s <;> rfl

/-- A direct read that finds its bytes, with `emit` in the place of its match. -/
theorem readWord_some_eq_map (tag : BitVec 16) (size : BitVec 3) (v : Int) (s : State) :
    readWord tag size (some v) s =
      if sizeLegal size = false then .error (descriptorError 3 s)
      else if s.nparts ≠ 0#6 then .error (descriptorError 9 s)
      else (emit (readRecord tag size v) s).map State.advance := by
  rw [readWord.eq_def]
  dsimp only
  cases emit (readRecord tag size v) s <;> rfl

theorem readWord_none_eq (tag : BitVec 16) (size : BitVec 3) (s : State) :
    readWord tag size none s =
      if sizeLegal size = false then .error (descriptorError 3 s)
      else if s.nparts ≠ 0#6 then .error (descriptorError 9 s)
      else .error ⟨.outOfBounds, 0, s.dpc⟩ := rfl

section DecodeAlike

variable {s s' t t' : State} (h : DecodeAlike s s')

include h

theorem DecodeAlike.advance : DecodeAlike s.advance s'.advance :=
  { h with dpc := congrArg (· + 1) h.dpc }

theorem DecodeAlike.clearGroup : DecodeAlike s.clearGroup s'.clearGroup :=
  { h with acc := rfl, accw := rfl, nparts := rfl, abs := rfl, oobp := rfl, oobDpc := rfl }

theorem DecodeAlike.setFlag (f : StatusFlag) : DecodeAlike (s.setFlag f) (s'.setFlag f) :=
  { h with
    status := fun b hb => by
      rw [State.setFlag_status, State.setFlag_status, getLsbD_or_flag, getLsbD_or_flag, h.status b hb] }

theorem DecodeAlike.countPart (pw : Nat) : DecodeAlike (countPart pw s) (countPart pw s') :=
  { h with accw := congrArg (· + _) h.accw, nparts := congrArg (· + _) h.nparts }

theorem DecodeAlike.append (r : Record) : DecodeAlike (s.append r) (s'.append r) :=
  { h with
    resCount := congrArg (· + 1) h.resCount
    res := fun i hi => by
      rw [State.append_resCount] at hi
      rw [State.append_res, State.append_res, Memory.get?_set, Memory.get?_set, ← h.resCount]
      split
      · rfl
      · exact h.res i (by bv_omega) }

theorem DecodeAlike.raise (r : Raise) : DecodeAlike (s.raise r) (s'.raise r) :=
  { h with
    phase := rfl
    resCount := rfl
    res := fun i hi => absurd hi (Nat.not_lt_zero i)
    errors := fun _ => ⟨rfl, rfl, rfl⟩ }

theorem DecodeAlike.descriptorError (sub : BitVec 8) :
    EndAlike (.error (descriptorError sub s)) (.error (descriptorError sub s')) := by
  rw [Machine.descriptorError, Machine.descriptorError, h.dpc]
  exact .error _

theorem DecodeAlike.emit (r : Record) : EndAlike (emit r s) (emit r s') := by
  refine .ite (by rw [h.resCount, h.resCap]) ?_ (.ok (h.append r))
  rw [h.dpc]
  exact .error _

/-- Reads of PAY look below PAY_LEN alone. -/
theorem DecodeAlike.readUInt_eq (offset : BitVec 32) (n : Nat) : s.readUInt offset n = s'.readUInt offset n := by
  by_cases hin : offset.toNat + n ≤ s.payLen.toNat
  · rw [State.readUInt_of_inRange hin, State.readUInt_of_inRange (h.payLen ▸ hin),
      leNat_congr fun i hi => h.pay _ (by omega)]
  · have hout := Nat.lt_of_not_le hin
    exact (readUInt_eq_none.mpr hout).trans (readUInt_eq_none.mpr (h.payLen ▸ hout)).symm

theorem DecodeAlike.latchPart (offset : BitVec 32) (mask : BitVec 8) (size : BitVec 3) :
    DecodeAlike (latchPart offset mask size s) (latchPart offset mask size s') := by
  by_cases habsent : s.payLen.toNat ≤ offset.toNat
  · rw [Machine.latchPart, Machine.latchPart, if_pos habsent, if_pos (h.payLen ▸ habsent)]
    exact { h with abs := rfl }
  · have habsent' : ¬s'.payLen.toNat ≤ offset.toNat := h.payLen ▸ habsent
    rw [Machine.latchPart, Machine.latchPart, if_neg habsent, if_neg habsent', h.readUInt_eq]
    cases s'.readUInt offset size.toNat with
    | none => exact { h with oobp := rfl, oobDpc := by simp only [h.oobp, h.oobDpc, h.dpc] }
    | some u => exact { h with acc := by simp only [h.acc, h.accw] }

theorem DecodeAlike.partWord (offset : BitVec 32) (mask : BitVec 8) (size : BitVec 3) :
    EndAlike (partWord offset mask size s) (partWord offset mask size s') :=
  .ite Iff.rfl (h.descriptorError 3) <| .ite Iff.rfl (h.descriptorError 4) <| .ite Iff.rfl (h.descriptorError 5) <|
    .ite (by rw [h.accw]) (h.descriptorError 6) (.ok ((h.latchPart offset mask size).countPart _).advance)

theorem DecodeAlike.fieldWord (tag : BitVec 16) (signed : Bool) (mul div : BitVec 16) :
    EndAlike (fieldWord tag signed mul div s) (fieldWord tag signed mul div s') := by
  rw [fieldWord_eq_map, fieldWord_eq_map, h.oobDpc, h.accw, h.acc]
  exact .ite (by rw [h.nparts]) (h.descriptorError 7) <| .ite Iff.rfl (h.descriptorError 8) <|
    .ite (by rw [h.abs]) ((h.emit _).map fun ht => (ht.setFlag .absent).clearGroup.advance) <|
    .ite (by rw [h.oobp]) (.error _) ((h.emit _).map fun ht => ht.clearGroup.advance)

theorem DecodeAlike.endWord : EndAlike (endWord s) (endWord s') :=
  .ite (by rw [h.nparts]) (h.descriptorError 9) (.ok { h with phase := rfl, errors := nofun })

theorem DecodeAlike.readWord (tag : BitVec 16) (size : BitVec 3) (v : Option Int) :
    EndAlike (readWord tag size v s) (readWord tag size v s') := by
  cases v with
  | none =>
    rw [readWord_none_eq, readWord_none_eq, h.dpc]
    exact .ite Iff.rfl (h.descriptorError 3) <| .ite (by rw [h.nparts]) (h.descriptorError 9) (.error _)
  | some v =>
    rw [readWord_some_eq_map, readWord_some_eq_map]
    exact .ite Iff.rfl (h.descriptorError 3) <| .ite (by rw [h.nparts]) (h.descriptorError 9)
      ((h.emit _).map DecodeAlike.advance)

theorem DecodeAlike.wordEffect (i : Instr) : EndAlike (wordEffect i s) (wordEffect i s') := by
  cases i with
  | part offset mask size => exact h.partWord offset mask size
  | field tag signed mul div => exact h.fieldWord tag signed mul div
  | endList => exact h.endWord
  | rdu tag offset size =>
    rw [Machine.wordEffect, Machine.wordEffect, h.readUInt_eq]
    exact h.readWord tag size _
  | rdi tag offset size =>
    have hread : s.readInt offset size.toNat = s'.readInt offset size.toNat :=
      congrArg (Option.map (readerSign size.toNat)) (h.readUInt_eq offset size.toNat)
    rw [Machine.wordEffect, Machine.wordEffect, hread]
    exact h.readWord tag size _

theorem DecodeAlike.complete {x x' : Except Raise State} (hx : EndAlike x x') :
    ∃ t t', complete s x = .next t ∧ complete s' x' = .next t' ∧ DecodeAlike t t' := by
  cases hx with
  | error r => exact ⟨_, _, rfl, rfl, h.raise r⟩
  | ok ht => exact ⟨_, _, rfl, rfl, ht⟩

/-- A step of the decode loop reads one word of DESC, the word at DPC. -/
theorem DecodeAlike.decodeStep
    (hword : s.dpc.toNat < s.par.descLen → s.descWord s.dpc.toNat = s'.descWord s.dpc.toNat) :
    ∃ t t', decodeStep s = .next t ∧ decodeStep s' = .next t' ∧ DecodeAlike t t' := by
  by_cases hlt : s.dpc.toNat < s.par.descLen
  · have hlt' : s'.dpc.toNat < s'.par.descLen := h.dpc ▸ h.descLen ▸ hlt
    have hsame : s'.descWord s'.dpc.toNat = s.descWord s.dpc.toNat := by rw [← h.dpc, hword hlt]
    cases hi : decodeWord (s.descWord s.dpc.toNat) with
    | error e =>
      rw [decodeStep_of_reject hlt hi, decodeStep_of_reject hlt' (hsame ▸ hi)]
      exact h.complete (h.descriptorError e.sub)
    | ok i =>
      rw [decodeStep_of_decodes hlt hi, decodeStep_of_decodes hlt' (hsame ▸ hi),
        exec_eq_complete, exec_eq_complete]
      exact h.complete (h.wordEffect i)
  · have hover := Nat.le_of_not_lt hlt
    rw [decodeStep_of_overrun hover, decodeStep_of_overrun (h.dpc ▸ h.descLen ▸ hover)]
    exact h.complete (h.descriptorError 10)

end DecodeAlike

theorem dpc_le_of_decodeStep {s t : State} (hpar : s.par.wf = true) (hd : decodeStep s = .next t) :
    s.dpc.toNat ≤ t.dpc.toNat := by
  obtain ⟨-, hdpc⟩ | ⟨-, hdpc⟩ | ⟨-, -, hdpc⟩ := decodeStep_progress hpar hd
  · rw [hdpc]
  · rw [hdpc]
  · omega

/-- DPC does not fall while a DECODE runs. -/
theorem dpc_le_settle (n : Nat) {s : State} (hpar : s.par.wf = true) : s.dpc.toNat ≤ (settle n s).dpc.toNat := by
  induction n generalizing s with
  | zero => exact le_rfl
  | succ n ih =>
    by_cases hbusy : s.phase = .busy
    case neg => rw [settle_of_not_busy _ hbusy]
    obtain ⟨t, hd⟩ := decodeStep_next s
    obtain ⟨hpart, -, -⟩ := decodeStep_keeps hd
    rw [settle_succ_of_decodeStep n hbusy hd]
    exact (dpc_le_of_decodeStep hpar hd).trans (ih (hpart ▸ hpar))

/-- A DECODE that does not fault leaves the error registers alone. -/
theorem settle_errors (n : Nat) {s : State} (h : (settle n s).phase ≠ .fault) :
    (settle n s).errCode = s.errCode ∧ (settle n s).errSub = s.errSub ∧ (settle n s).errInfo = s.errInfo := by
  induction n generalizing s with
  | zero => exact ⟨rfl, rfl, rfl⟩
  | succ n ih =>
    by_cases hbusy : s.phase = .busy
    case neg =>
      rw [settle_of_not_busy _ hbusy]
      exact ⟨rfl, rfl, rfl⟩
    obtain ⟨t, hd⟩ := decodeStep_next s
    rw [settle_succ_of_decodeStep n hbusy hd] at h ⊢
    obtain ⟨-, -, hfault | ⟨hcode, hsub, hinfo⟩⟩ := decodeStep_keeps hd
    · rw [settle_of_not_busy n (by simp [hfault])] at h
      exact absurd hfault h
    · rw [← hcode, ← hsub, ← hinfo]
      exact ih h

/-- Two DECODEs that start alike and find the same words up to where the first ends stay alike. -/
theorem DecodeAlike.settle (n : Nat) {s s' : State} (h : DecodeAlike s s') (hpar : s.par.wf = true)
    (hwords : ∀ i, s.dpc.toNat ≤ i → i ≤ (settle n s).dpc.toNat → i < s.par.descLen →
      s.descWord i = s'.descWord i) : DecodeAlike (settle n s) (settle n s') := by
  induction n generalizing s s' with
  | zero => exact h
  | succ n ih =>
    by_cases hbusy : s.phase = .busy
    case neg =>
      rwa [settle_of_not_busy _ hbusy, settle_of_not_busy _ (h.phase ▸ hbusy)]
    obtain ⟨t, t', hd, hd', ht⟩ := h.decodeStep (hwords _ le_rfl (dpc_le_settle _ hpar))
    obtain ⟨hpart, hdesc, -⟩ := decodeStep_keeps hd
    obtain ⟨-, hdesc', -⟩ := decodeStep_keeps hd'
    have hle := dpc_le_of_decodeStep hpar hd
    rw [settle_succ_of_decodeStep n hbusy hd] at hwords
    rw [settle_succ_of_decodeStep n hbusy hd, settle_succ_of_decodeStep n (h.phase ▸ hbusy) hd']
    refine ih ht (hpart ▸ hpar) fun i hlo hhi hlt => ?_
    rw [State.descWord, State.descWord, hdesc, hdesc']
    exact hwords i (hle.trans hlo) hhi (hpart ▸ hlt)

/-- The initial clear of DECODE leaves two states with one payload alike. -/
theorem startDecode_alike {s s' : State} (hlen : s.par.descLen = s'.par.descLen) (hcap : s.par.resCap = s'.par.resCap)
    (hbase : s.descBase = s'.descBase) (hpayLen : s.payLen = s'.payLen)
    (hpay : ∀ a, a < s.payLen.toNat → s.payByte a = s'.payByte a) : DecodeAlike (startDecode s) (startDecode s') where
  descLen := hlen
  resCap := hcap
  payLen := hpayLen
  phase := rfl
  dpc := hbase
  acc := rfl
  accw := rfl
  nparts := rfl
  abs := rfl
  oobp := rfl
  oobDpc := rfl
  resCount := rfl
  pay := hpay
  res := fun i hi => absurd hi (Nat.not_lt_zero i)
  status := fun b hb => by
    rw [startDecode_getLsbD, startDecode_getLsbD]
    obtain rfl | rfl := hb
    · simp
    · simp
  errors := nofun

/-- Settles O38: both DECODEs start alike, and with the same fuel they stay alike. -/
theorem decodeReadsPayloadAlone : Obligations.DecodeReadsPayloadAlone := by
  unfold Obligations.DecodeReadsPayloadAlone
  intro s s' hlen hcap hpar hbase hpayLen hwords hpay
  have hfuel : decodeFuel s'.par.descLen s'.descBase.toNat = decodeFuel s.par.descLen s.descBase.toNat := by
    rw [hlen, hbase]
  simp only [decodeCommand, hfuel] at hwords ⊢
  generalize decodeFuel s.par.descLen s.descBase.toNat = n at hwords ⊢
  have halike := (startDecode_alike hlen hcap hbase hpayLen hpay).settle n hpar hwords
  refine ⟨halike.phase, halike.dpc, halike.resCount, halike.res, halike.status, halike.errors, fun hne => ?_⟩
  obtain ⟨hcode, hsub, hinfo⟩ := settle_errors n hne
  obtain ⟨hcode', hsub', hinfo'⟩ := settle_errors n (halike.phase ▸ hne)
  exact ⟨hcode, hcode', hsub, hsub', hinfo, hinfo'⟩

end Sys2Proof.Machine

namespace Sys2Proof.Machine

/-! ### A write of CMD (R137 to R142) -/

section CmdWrite

variable {s : State} {c : BitVec 32} {rest : List HostMove}

/-- Outside BUSY a write of register 0 is a CMD write. -/
theorem step_writeCmd (hp : s.phase ≠ .busy) (hhost : s.host = .writeReg 0 c :: rest) :
    step s = cmdWrite c { s with host := rest } :=
  (step_of_host hp hhost).trans (hostMove_of_not_busy _ hp)

theorem cmdWrite_assemble (hp : s.phase ≠ .busy) : cmdWrite 1 s = .next (assemble s) := by
  simp [cmdWrite, hp]

theorem cmdWrite_clear (hp : s.phase ≠ .busy) : cmdWrite 4 s = .next (clear s) := by
  simp [cmdWrite, hp]

theorem cmdWrite_decode (hp : s.phase = .assembled ∨ s.phase = .done) : cmdWrite 2 s = .next (startDecode s) := by
  obtain hp | hp := hp
  · simp [cmdWrite, hp]
  · simp [cmdWrite, hp]

theorem cmdWrite_skip (hp : s.phase = .assembled ∨ s.phase = .done) : cmdWrite 3 s = .next (skip s) := by
  obtain hp | hp := hp
  · simp [cmdWrite, hp]
  · simp [cmdWrite, hp]

/-- In FAULT only ASSEMBLE and CLEAR have an effect. -/
theorem cmdWrite_of_fault (hp : s.phase = .fault) (h1 : c ≠ 1#32) (h4 : c ≠ 4#32) : cmdWrite c s = .next s := by
  simp [cmdWrite, hp, h1, h4]

/-- In IDLE every other value is rejected. -/
theorem cmdWrite_of_idle (hp : s.phase = .idle) (h1 : c ≠ 1#32) (h4 : c ≠ 4#32) :
    cmdWrite c s = .next (s.raise (badCommand c)) := by
  simp [cmdWrite, hp, h1, h4]

/-- DECODE and SKIP in IDLE are in the wrong phase. -/
theorem cmdWrite_wrongPhase (hp : s.phase = .idle) (hc : c = 2#32 ∨ c = 3#32) :
    cmdWrite c s = .next (s.faulted 9 2 c) := by
  obtain rfl | rfl := hc
  · exact cmdWrite_of_idle hp (by decide) (by decide)
  · exact cmdWrite_of_idle hp (by decide) (by decide)

/-- A value that is no command is rejected as unknown. -/
theorem cmdWrite_unknown (hp : s.phase = .idle ∨ s.phase = .assembled ∨ s.phase = .done) (h1 : c ≠ 1#32)
    (h2 : c ≠ 2#32) (h3 : c ≠ 3#32) (h4 : c ≠ 4#32) : cmdWrite c s = .next (s.faulted 9 1 c) := by
  have hout : ¬(1 ≤ c.toNat ∧ c.toNat ≤ 4) := by bv_omega
  have hbad : s.raise (badCommand c) = s.faulted 9 1 c := by
    rw [badCommand, if_neg hout]
    rfl
  rw [← hbad]
  obtain hp | hp | hp := hp
  · exact cmdWrite_of_idle hp h1 h4
  · simp [cmdWrite, hp, h1, h2, h3, h4]
  · simp [cmdWrite, hp, h1, h2, h3, h4]

theorem not_busy_of_ready (hp : s.phase = .assembled ∨ s.phase = .done) : s.phase ≠ .busy := by
  obtain hp | hp := hp
  · simp [hp]
  · simp [hp]

/-- Outside BUSY a CLEAR is one step. -/
theorem step_clear (hp : s.phase ≠ .busy) (hhost : s.host = .writeReg 0 4 :: rest) :
    step s = .next (clear { s with host := rest }) :=
  (step_writeCmd hp hhost).trans (cmdWrite_clear hp)

/-- The initial clear of DECODE is one step. -/
theorem step_decode (hp : s.phase = .assembled ∨ s.phase = .done) (hhost : s.host = .writeReg 0 2 :: rest) :
    step s = .next (startDecode { s with host := rest }) :=
  (step_writeCmd (not_busy_of_ready hp) hhost).trans (cmdWrite_decode hp)

end CmdWrite

/-- Settles O43, from what `cmdWrite` answers to a value that the phase does not accept. -/
theorem rejectedCommands : Obligations.RejectedCommands := by
  unfold Obligations.RejectedCommands
  intro s c rest hhost h1 h4
  refine ⟨fun hp => ?_, fun hp h2 h3 => ?_, fun hp hc => ?_⟩
  · exact (step_writeCmd (by simp [hp]) hhost).trans (cmdWrite_of_fault hp h1 h4)
  · have hbusy : s.phase ≠ .busy := by rcases hp with hp | hp | hp <;> simp [hp]
    exact (step_writeCmd hbusy hhost).trans (cmdWrite_unknown hp h1 h2 h3 h4)
  · exact (step_writeCmd (by simp [hp]) hhost).trans (cmdWrite_wrongPhase hp hc)

/-- Settles O44, from what `cmdWrite` answers to 1, 4 and 2; how ASSEMBLE ends is `assembleWith_phase`. -/
theorem acceptedCommands : Obligations.AcceptedCommands := by
  unfold Obligations.AcceptedCommands
  intro s rest hp
  refine ⟨fun hhost => ?_, fun hhost => ?_, fun hready hhost => ?_⟩
  · exact ⟨(step_writeCmd hp hhost).trans (cmdWrite_assemble hp), assembleWith_phase _ _⟩
  · exact step_clear hp hhost
  · exact ⟨_, step_decode hready hhost, startDecode_getLsbD _, rfl⟩

/-- Settles O45, from what `cmdWrite` answers to 3. -/
theorem skipReportsNotFound : Obligations.SkipReportsNotFound := by
  unfold Obligations.SkipReportsNotFound
  intro s rest hready hhost
  exact ⟨_, (step_writeCmd (not_busy_of_ready hready) hhost).trans (cmdWrite_skip hready), skip_getLsbD _, rfl⟩

/-! ### The host's moves outside a command (R135, R136, R169) -/

/-- No descriptor word takes a move of the host. -/
theorem decodeStep_host {s t : State} (h : decodeStep s = .next t) : t.host = s.host := by
  obtain ⟨r, -, rfl⟩ | ⟨i, hi⟩ := decodeStep_wordEffect h
  · rfl
  · rw [(wordKeeps_of_wordEffect hi).frame]

/-- Settles O49: BUSY runs descriptor words, which leave the moves alone, and every other phase runs a move or holds. -/
theorem hostWaitsForCommands : Obligations.HostWaitsForCommands := by
  unfold Obligations.HostWaitsForCommands
  refine ⟨fun s t hbusy hs => ?_, fun s hp hhost => ?_⟩
  · exact decodeStep_host ((step_of_busy hbusy).symm.trans hs)
  · rw [step_of_not_busy hp, hostStep, hhost]

/-- Outside BUSY the reset event is one step. -/
theorem step_reset {s : State} {rest : List HostMove} (hp : s.phase ≠ .busy) (hhost : s.host = .reset :: rest) :
    step s = .next (applyReset { s with host := rest }) :=
  (step_of_host hp hhost).trans (hostMove_of_not_busy _ hp)

/-- Settles O53: both steps are given by name, and their states by the literals of `applyReset` and `clear`. -/
theorem resetDiffersFromClear : Obligations.ResetDiffersFromClear := by
  unfold Obligations.ResetDiffersFromClear
  intro s t u rest rest' hp ht hu
  have hreset : step { s with host := .reset :: rest } = .next (applyReset { s with host := rest }) :=
    step_reset hp rfl
  have hclear : step { s with host := .writeReg 0 4 :: rest' } = .next (clear { s with host := rest' }) :=
    step_clear hp rfl
  cases hreset.symm.trans ht
  cases hclear.symm.trans hu
  exact ⟨rfl, rfl, rfl, rfl, rfl, rfl, rfl, rfl⟩

/-! ### DECODE as one transition (R118, R136, R139) -/

/-- With fuel for the words left in DESC a DECODE settles in DONE or FAULT. -/
theorem settle_ends {n : Nat} {s : State} (hbusy : s.phase = .busy) (hpar : s.par.wf = true)
    (hn : s.par.descLen - s.dpc.toNat + 1 ≤ n) : (settle n s).phase = .done ∨ (settle n s).phase = .fault := by
  induction n generalizing s with
  | zero => omega
  | succ n ih =>
    obtain ⟨t, hd⟩ := decodeStep_next s
    rw [settle_succ_of_decodeStep n hbusy hd]
    obtain ⟨hfault, -⟩ | ⟨hdone, -⟩ | ⟨hphase, hlt, hdpc⟩ := decodeStep_progress hpar hd
    · rw [settle_of_not_busy n (by simp [hfault])]
      exact .inr hfault
    · rw [settle_of_not_busy n (by simp [hdone])]
      exact .inl hdone
    · obtain ⟨hpart, -, -⟩ := decodeStep_keeps hd
      exact ih (hphase.trans hbusy) (hpart ▸ hpar) (by rw [hpart]; omega)

theorem decodeCommand_ends {s : State} (hpar : s.par.wf = true) :
    (decodeCommand s).phase = .done ∨ (decodeCommand s).phase = .fault :=
  settle_ends rfl hpar le_rfl

/-- Settles O37: the CMD write is the first step of the run, and `settle_is_run` gives the steps after it. -/
theorem atomicDecodeIsRunOfSteps : Obligations.AtomicDecodeIsRunOfSteps := by
  unfold Obligations.AtomicDecodeIsRunOfSteps
  intro s rest hready hpar hhost
  refine ⟨decodeCommand_ends hpar, ?_⟩
  obtain ⟨m, hm, hrun⟩ :=
    settle_is_run (decodeFuel s.par.descLen s.descBase.toNat) (startDecode { s with host := rest })
  exact ⟨m + 1, Nat.succ_le_succ hm, (run_succ_of_step (step_decode hready hhost)).trans hrun⟩

end Sys2Proof.Machine

namespace Sys2Proof.Machine

/-! ### The result list while a DECODE runs (R28, R74, R116, R128) -/

/-- `t` lists the records of `s` and then `r`, STATUS.ABSENT recording whether `r` is absent. -/
structure AppendsRecord (s t : State) (r : Record) : Prop where
  room : s.resCount.toNat ≠ s.par.resCap
  res : t.res = s.res.set s.resCount.toNat r
  count : t.resCount = s.resCount + 1
  absentFlag : t.flag .absent = (s.flag .absent || decide (r.st = .absent))

/-- What a DECODE keeps from its initial clear on, whatever the spaces held before it. -/
structure DecodeOk (s : State) : Prop where
  par : s.par.wf = true
  count : s.resCount.toNat ≤ s.par.resCap
  group : s.DecoderOk
  emptied : s.phase = .fault → s.resCount = 0#17
  result : s.ResultOk

section DecodeOk

variable {s t : State}

theorem appendsRecord_of_readWord {tag : BitVec 16} {size : BitVec 3} {v : Option Int}
    (hv : sizeLegal size = true → ∀ x, v = some x → -(2 ^ 47) ≤ x ∧ x < 2 ^ 48) (hr : readWord tag size v s = .ok t) :
    ∃ r, r.Ok ∧ AppendsRecord s t r := by
  obtain ⟨hsize, -, hroom, x, hx, rfl⟩ := readWord_ok hr
  exact ⟨_, readRecord_ok tag hsize (hv hsize x hx), hroom, rfl, rfl, by simp [State.flag, readRecord]⟩

theorem appendsRecord_of_fieldWord {tag : BitVec 16} {signed : Bool} {mul div : BitVec 16} (hgroup : s.DecoderOk)
    (hf : fieldWord tag signed mul div s = .ok t) : ∃ r, r.Ok ∧ AppendsRecord s t r := by
  obtain ⟨hnparts, hdiv, hroom, ⟨-, rfl⟩ | ⟨-, -, rfl⟩⟩ := fieldWord_ok hf
  · exact ⟨_, absentRecord_ok tag hdiv, hroom, rfl, rfl, getLsbD_or_flag s.status .absent 4⟩
  · have hwidth : 1 ≤ s.accw.toNat := by
      have hle := hgroup.npartsLe
      bv_omega
    exact ⟨_, fieldRecord_ok tag hdiv hwidth hgroup.accwLe hgroup.accLt, hroom, rfl, rfl,
      by simp [State.flag, fieldRecord]⟩

/-- A word leaves the result list alone, or emits one legal record. -/
theorem wordEffect_results {i : Instr} (hgroup : s.DecoderOk) (hi : wordEffect i s = .ok t) :
    (t.res = s.res ∧ t.resCount = s.resCount ∧ t.flag .absent = s.flag .absent) ∨ ∃ r, r.Ok ∧ AppendsRecord s t r := by
  cases i with
  | part offset mask size =>
    obtain ⟨-, -, rfl⟩ := partWord_ok_legal hi
    exact .inl (by simp [State.flag])
  | field tag signed mul div => exact .inr (appendsRecord_of_fieldWord hgroup hi)
  | endList =>
    obtain ⟨-, rfl⟩ := endWord_ok hi
    exact .inl ⟨rfl, rfl, rfl⟩
  | rdu tag offset size => exact .inr (appendsRecord_of_readWord (fun hsize _ => State.readUInt_range hsize) hi)
  | rdi tag offset size => exact .inr (appendsRecord_of_readWord (fun hsize _ => State.readInt_range hsize) hi)

theorem DecodeOk.of_wordEffect {i : Instr} (h : DecodeOk s) (hbusy : s.phase = .busy) (hi : wordEffect i s = .ok t) :
    DecodeOk t := by
  have hkeeps := wordKeeps_of_wordEffect hi
  have hpar : t.par = s.par := by rw [hkeeps.frame]
  have hnofault : s.phase ≠ .fault := by simp [hbusy]
  have hlist : t.resCount.toNat ≤ s.par.resCap ∧ t.ResultOk := by
    obtain ⟨hres, hcount, hflag⟩ | ⟨r, hr, happends⟩ := wordEffect_results h.group hi
    · exact ⟨hcount ▸ h.count, h.result.of_same_results hres hcount hflag hnofault⟩
    · have hlt : s.resCount.toNat < s.par.resCap := Nat.lt_of_le_of_ne h.count happends.room
      have hnext := resCount_add_one_of_lt h.par hlt
      exact ⟨((congrArg BitVec.toNat happends.count).trans hnext).trans_le hlt,
        h.result.of_append hr hnext hnofault happends.res happends.count happends.absentFlag⟩
  exact
    { par := hpar ▸ h.par
      count := hpar ▸ hlist.1
      group := h.group.of_wordEffect hi
      emptied := fun hf => by rcases hkeeps.phase with hp | hp <;> simp [hp, hbusy] at hf
      result := hlist.2 }

theorem DecodeOk.of_decodeStep (h : DecodeOk s) (hbusy : s.phase = .busy) (hd : decodeStep s = .next t) :
    DecodeOk t := by
  obtain ⟨r, -, rfl⟩ | ⟨i, hi⟩ := decodeStep_wordEffect hd
  · exact ⟨h.par, Nat.zero_le _, h.group.of_same_group rfl rfl rfl rfl rfl rfl, fun _ => rfl, raise_resultOk s r⟩
  · exact h.of_wordEffect hbusy hi

theorem DecodeOk.settle (n : Nat) (h : DecodeOk s) : DecodeOk (settle n s) := by
  induction n generalizing s with
  | zero => exact h
  | succ n ih =>
    by_cases hbusy : s.phase = .busy
    case neg => rwa [settle_of_not_busy _ hbusy]
    obtain ⟨t, hd⟩ := decodeStep_next s
    rw [settle_succ_of_decodeStep n hbusy hd]
    exact ih (h.of_decodeStep hbusy hd)

theorem startDecode_decodeOk (hpar : s.par.wf = true) : DecodeOk (startDecode s) where
  par := hpar
  count := Nat.zero_le _
  group := State.groupClosed.decoderOk ⟨rfl, rfl, rfl, rfl, rfl, rfl⟩
  emptied := fun _ => rfl
  result := resultOk_of_empty rfl fun _ => (startDecode_getLsbD s 4).trans (by simp)

theorem decodeCommand_decodeOk (hpar : s.par.wf = true) : DecodeOk (decodeCommand s) :=
  (startDecode_decodeOk hpar).settle _

end DecodeOk

/-! ### RUN (R143, R165) -/

section Records

variable {t : State}

/-- In DONE the records read are those below RES_COUNT. -/
theorem mem_records_of_done (hdone : t.phase = .done) {o : Option Record} :
    o ∈ t.records ↔ ∃ i, i < t.resCount.toNat ∧ t.res.get? i = o := by
  simp only [State.records, List.mem_map, List.mem_range]
  exact exists_congr fun i => and_congr_right fun hi => by rw [hostReadRes_of_readable hdone hi]

/-- A well-formed result list is read as records alone, each legal, and STATUS.ABSENT tells whether one is absent. -/
theorem State.ResultOk.records_present (h : t.ResultOk) (hdone : t.phase = .done) :
    ∃ rs : List Record, t.records = rs.map some ∧ rs.length = t.resCount.toNat ∧ (∀ r ∈ rs, r.Ok) ∧
      (t.status.getLsbD 4 = true ↔ ∃ r ∈ rs, r.st = .absent) := by
  have hpresent : ∀ o ∈ t.records, o.isSome = true := fun o ho => by
    obtain ⟨i, hi, rfl⟩ := (mem_records_of_done hdone).mp ho
    obtain ⟨r, hr, -⟩ := h.records i hi
    rw [hr]
    rfl
  obtain ⟨rs, hrs⟩ : ∃ rs : List Record, rs.map some = t.records :=
    ⟨t.records.pmap Option.get hpresent, by simp [List.map_pmap]⟩
  have hmem : ∀ r, r ∈ rs ↔ ∃ i, i < t.resCount.toNat ∧ t.res.get? i = some r := fun r => by
    rw [← mem_records_of_done hdone, ← hrs, List.mem_map_of_injective (Option.some_injective _)]
  refine ⟨rs, hrs.symm, ?_, fun r hr => ?_, ?_⟩
  · simpa [State.records] using congrArg List.length hrs
  · obtain ⟨i, hi, hget⟩ := (hmem r).mp hr
    obtain ⟨r', hget', hok⟩ := h.records i hi
    cases hget.symm.trans hget'
    exact hok
  · refine (h.absentFlag (by simp [hdone])).trans ⟨?_, ?_⟩
    · rintro ⟨i, r, hi, hget, hst⟩
      exact ⟨r, (hmem r).mpr ⟨i, hi, hget⟩, hst⟩
    · rintro ⟨r, hr, hst⟩
      obtain ⟨i, hi, hget⟩ := (hmem r).mp hr
      exact ⟨i, r, hi, hget, hst⟩

end Records

section Run

variable {registry : BitVec 16 → BitVec 16 → BitVec 16 → Option (BitVec 32)} {a : State}

/-- What RUN returns when the command after the ASSEMBLE that gave `a` has ended in `t` without a fault. -/
def State.success (a t : State) : RunResult :=
  .success a.dst a.src a.pcmd a.nfr a.status a.ferrCount a.ferr t.status t.records

theorem runFrom_of_fault (ha : a.phase = .fault) : runFrom registry a = (a, a.failure) :=
  if_pos ha

theorem runFrom_of_miss (ha : a.phase = .assembled) (hmiss : registry a.dst a.src a.pcmd = none) :
    runFrom registry a = (skip a, a.success (skip a)) := by
  have hne : a.phase ≠ .fault := by simp [ha]
  rw [runFrom, if_neg hne, hmiss, command_skip (.inl ha)]
  rfl

/-- After a registry hit the DECODE from the word index found decides what RUN returns. -/
theorem runFrom_of_hit {base : BitVec 32} {t : State} (ha : a.phase = .assembled)
    (hhit : registry a.dst a.src a.pcmd = some base) (ht : decodeCommand { a with descBase := base } = t) :
    runFrom registry a = if t.phase = .fault then (t, t.failure) else (t, a.success t) := by
  have hne : a.phase ≠ .fault := by simp [ha]
  have hdecode : command 2 { a with descBase := base } = t :=
    (command_decode (s := { a with descBase := base }) (.inl ha)).trans ht
  rw [runFrom, if_neg hne, hhit, ← hdecode]
  rfl

end Run

theorem assembleWith_par (ck : Checks) (s : State) : (assembleWith ck s).par = s.par := by
  obtain ⟨hwindow, hsync, hneed⟩ | ⟨r, hfault, -⟩ | ⟨-, -, -, -, hfault⟩ := assembleWith_cases ck s
  · simp [assembleWith_of_packet hwindow hsync hneed]
  · simp [hfault]
  · simp [hfault]

/-- Settles O51: a fault of ASSEMBLE, a registry miss with its SKIP, and a DECODE that faults or ends in DONE with the
result list that `DecodeOk` describes. -/
theorem runFailsOrSucceedsWhole : Obligations.RunFailsOrSucceedsWhole := by
  unfold Obligations.RunFailsOrSucceedsWhole
  intro ck registry base len s hpar
  have hempty := (assembleWith_faultRecordOk ck { s with rawBase := base, rawLen := len }).emptied
  have hwf : (assembleWith ck { s with rawBase := base, rawLen := len }).par.wf = true := by
    rwa [assembleWith_par]
  have hresult := assembleWith_resultOk ck { s with rawBase := base, rawLen := len }
  have hphase := assembleWith_phase ck { s with rawBase := base, rawLen := len }
  rw [runWith]
  generalize assembleWith ck { s with rawBase := base, rawLen := len } = a at hempty hwf hresult hphase
  obtain ha | ha := hphase.symm
  · exact ⟨a, _, _, rfl, runFrom_of_fault ha, .inl ⟨ha, hempty ha, rfl⟩⟩
  cases hreg : registry a.dst a.src a.pcmd with
  | none =>
    have hskip : (skip a).ResultOk := resultOk_hostInvariant.skip a hresult (.inl ha)
    have hnotFound : (skip a).status.getLsbD 3 = true := (skip_getLsbD a 3).trans (by simp)
    exact ⟨a, _, _, rfl, runFrom_of_miss ha hreg,
      .inr ⟨ha, rfl, rfl, hskip.records_present rfl, fun _ => ⟨rfl, hnotFound⟩⟩⟩
  | some index =>
    obtain ⟨t, ht⟩ : ∃ t, decodeCommand { a with descBase := index } = t := ⟨_, rfl⟩
    have hrun := runFrom_of_hit ha hreg ht
    have hok : DecodeOk t := ht ▸ decodeCommand_decodeOk hwf
    have hends : t.phase = .done ∨ t.phase = .fault := ht ▸ decodeCommand_ends hwf
    obtain hdone | hfault := hends
    · rw [if_neg (by simp [hdone])] at hrun
      exact ⟨a, t, _, rfl, hrun,
        .inr ⟨ha, hdone, rfl, hok.result.records_present hdone, fun hmiss => nomatch hreg.symm.trans hmiss⟩⟩
    · rw [if_pos hfault] at hrun
      exact ⟨a, t, _, rfl, hrun, .inl ⟨hfault, hok.emptied hfault, rfl⟩⟩

end Sys2Proof.Machine

namespace Sys2Proof.Machine

/-! ### Where a fault points (R161, R162) -/

section ErrInfo

variable {s : State} {r : Raise}

theorem partWord_error_info {offset : BitVec 32} {mask : BitVec 8} {size : BitVec 3}
    (h : partWord offset mask size s = .error r) : r.info = s.dpc := by
  unfold partWord at h
  split at h
  · cases h; rfl
  split at h
  · cases h; rfl
  split at h
  · cases h; rfl
  split at h
  · cases h; rfl
  · cases h

/-- A FIELD faults at its own DPC, or by OutOfBounds at the DPC of the straddling PART it has latched (R130). -/
theorem fieldWord_error_info {tag : BitVec 16} {signed : Bool} {mul div : BitVec 16}
    (h : fieldWord tag signed mul div s = .error r) :
    r.info = s.dpc ∨ (r.fatal = .outOfBounds ∧ r.info = s.oobDpc) := by
  cases wordRaise_of_fieldWord h with
  | descriptor sub hlo hhi => exact .inl rfl
  | outOfBounds => exact .inl rfl
  | straddles hoob => exact .inr ⟨rfl, rfl⟩
  | resultOverflow => exact .inl rfl

theorem endWord_error_info (h : endWord s = .error r) : r.info = s.dpc := by
  unfold endWord at h
  split at h
  · cases h; rfl
  · cases h

theorem readWord_error_info {tag : BitVec 16} {size : BitVec 3} {v : Option Int}
    (h : readWord tag size v s = .error r) : r.info = s.dpc := by
  unfold readWord at h
  split at h
  · cases h; rfl
  split at h
  · cases h; rfl
  split at h
  · cases h; rfl
  split at h
  · next hemit =>
    obtain ⟨-, rfl⟩ := emit_error hemit
    cases h; rfl
  · cases h

/-- Only a FIELD can point at another word than its own. -/
theorem wordEffect_error_info {i : Instr} (h : wordEffect i s = .error r) :
    r.info = s.dpc ∨
      (r.fatal = .outOfBounds ∧ r.info = s.oobDpc ∧ ∃ tag signed mul div, i = .field tag signed mul div) := by
  cases i with
  | part offset mask size => exact .inl (partWord_error_info h)
  | field tag signed mul div =>
    obtain hdpc | ⟨hfatal, hoob⟩ := fieldWord_error_info h
    · exact .inl hdpc
    · exact .inr ⟨hfatal, hoob, tag, signed, mul, div, rfl⟩
  | endList => exact .inl (endWord_error_info h)
  | rdu tag offset size => exact .inl (readWord_error_info h)
  | rdi tag offset size => exact .inl (readWord_error_info h)

end ErrInfo

/-- Settles O25: a word that ends in FAULT has raised, since the effect of a word keeps PHASE or ends in DONE. -/
theorem faultsArePrecise : Obligations.FaultsArePrecise := by
  unfold Obligations.FaultsArePrecise
  intro i s t hexec hs ht
  obtain ⟨r, herr, rfl⟩ | hok := exec_cases hexec
  · refine ⟨r.fatal.code, r.sub, r.info, rfl, ?_⟩
    obtain hdpc | ⟨hfatal, hoob, hfield⟩ := wordEffect_error_info herr
    · exact .inl hdpc
    · exact .inr ⟨congrArg Fatal.code hfatal, hoob, hfield⟩
  · obtain hkept | hdone := (wordKeeps_of_wordEffect hok).phase
    · exact absurd (hkept.symm.trans ht) hs
    · cases hdone.symm.trans ht

/-! ### How FAULT is left (R143, R163) -/

section LeaveFault

variable {s t : State}

theorem cmdWrite_leaves_fault {c : BitVec 32} (hs : s.phase = .fault) (h : cmdWrite c s = .next t)
    (ht : t.phase ≠ .fault) : (c = 1#32 ∧ t = assemble s) ∨ (c = 4#32 ∧ t = clear s) := by
  obtain ⟨-, hassemble | hclear | ⟨-, rfl⟩ | ⟨hne, -⟩ | ⟨hready, -⟩ | ⟨hready, -⟩⟩ := cmdWrite_cases h
  · exact .inl hassemble
  · exact .inr hclear
  · exact absurd hs ht
  · exact absurd hs hne
  · simp [hs] at hready
  · simp [hs] at hready

/-- In FAULT the registry step of RUN does nothing (R143). -/
theorem consultWith_of_fault {registry : BitVec 16 → BitVec 16 → BitVec 16 → Option (BitVec 32)}
    (hs : s.phase = .fault) : consultWith registry s = .next s :=
  if_pos hs

theorem hostMove_leaves_fault {m : HostMove} (hs : s.phase = .fault) (h : hostMove m s = .next t)
    (ht : t.phase ≠ .fault) :
    (m = .writeReg 0 1 ∧ t = assemble s) ∨ (m = .writeReg 0 4 ∧ t = clear s) ∨ (m = .reset ∧ t = applyReset s) := by
  rw [hostMove_of_not_busy m (by simp [hs])] at h
  cases m with
  | writeReg number v =>
    simp only [writeReg] at h
    split at h
    · obtain ⟨rfl, hassemble⟩ | ⟨rfl, hclear⟩ := cmdWrite_leaves_fault hs h ht
      · exact .inl ⟨rfl, hassemble⟩
      · exact .inr (.inl ⟨rfl, hclear⟩)
    all_goals
      cases h
      exact absurd hs ht
  | writeRaw a v =>
    dsimp only at h
    split at h
    · cases h; exact absurd hs ht
    · cases h
  | writeDesc i w =>
    dsimp only at h
    split at h
    · cases h; exact absurd hs ht
    · cases h
  | consult =>
    cases (consultWith_of_fault hs).symm.trans h
    exact absurd hs ht
  | reset => cases h; exact .inr (.inr ⟨rfl, rfl⟩)

end LeaveFault

/-- Settles O50: the one host move a step makes in FAULT is an ASSEMBLE that ends without a fault, a CLEAR or a reset. -/
theorem faultIsLeftOnlyByClearing : Obligations.FaultIsLeftOnlyByClearing := by
  unfold Obligations.FaultIsLeftOnlyByClearing
  intro s t hs hstep ht
  obtain ⟨hbusy, -⟩ | ⟨-, -, rfl⟩ | ⟨m, rest, -, hhost, hmove⟩ := step_cases hstep
  · cases hs.symm.trans hbusy
  · exact absurd hs ht
  obtain ⟨rfl, rfl⟩ | ⟨rfl, rfl⟩ | ⟨rfl, rfl⟩ :=
    hostMove_leaves_fault (s := { s with host := rest }) hs hmove ht
  · exact ⟨⟨rest, .inl hhost⟩, (assembleWith_faultRecordOk Config.checks _).quiet ht⟩
  · exact ⟨⟨rest, .inr (.inl hhost)⟩, rfl, rfl, rfl⟩
  · exact ⟨⟨rest, .inr (.inr hhost)⟩, rfl, rfl, rfl⟩

end Sys2Proof.Machine

namespace Sys2Proof.Machine

/-! ### The parameters of the instance (R15) -/

theorem par_hostInvariant (p : Params) : HostInvariant (State.par · = p) where
  inputs _ _ _ _ _ _ _ h := h
  assemble s h := (assembleWith_par Config.checks s).trans h
  clear s h := s.clear_par.trans h
  reject s c h := (s.raise_par (badCommand c)).trans h
  startDecode s h _ := s.startDecode_par.trans h
  skip s h _ := s.skip_par.trans h
  reset s h := s.applyReset_par.trans h

theorem wordEffect_par {i : Instr} {s t : State} (h : wordEffect i s = .ok t) : t.par = s.par :=
  (congrArg State.par (wordKeeps_of_wordEffect h).frame :)

/-- Settles O60: the host's moves keep the parameters, and in BUSY so do fault entry and the effect of a word. -/
theorem stepKeepsParameters : Obligations.StepKeepsParameters := by
  unfold Obligations.StepKeepsParameters
  intro s t hstep
  exact (par_hostInvariant s.par).of_step (fun _ r _ => s.raise_par r) (fun _ _ _ hword => wordEffect_par hword) rfl
    hstep

/-! ### A word placed for the next step (log entry 12) -/

theorem State.fetchIndex_lt {s : State} (h : 0 < s.par.descLen) : s.fetchIndex.toNat < s.par.descLen := by
  unfold State.fetchIndex
  split
  · next hdpc => exact hdpc
  · exact h

@[simp] theorem State.withFetchWord_dpc (s : State) (nbits w : Nat) : (s.withFetchWord nbits w).dpc = s.fetchIndex :=
  rfl

/-- The word is read back whole: 64 bits hold every descriptor word. -/
theorem State.withFetchWord_descWord (s : State) (w : Word) :
    (s.withFetchWord 64 w.toNat).descWord s.fetchIndex.toNat = w := by
  have hwhole : BitVec.ofNat 64 (w.toNat % 2 ^ 64) = w := by
    rw [Nat.mod_eq_of_lt w.isLt, BitVec.ofNat_toNat, BitVec.setWidth_eq]
  simp only [State.descWord, State.withFetchWord, Memory.get?_set_self, Option.getD_some, hwhole]

/-- Settles O9: DPC is inside DESC, and the word there decodes to the instruction it encodes. -/
theorem fetchWordRunsNext : Obligations.FetchWordRunsNext := by
  unfold Obligations.FetchWordRunsNext
  intro s i hlen
  refine stepRunsDecodedWord _ i rfl (State.fetchIndex_lt hlen) ?_
  rw [State.withFetchWord_dpc, State.withFetchWord_descWord]
  exact decodeOfEncode i

end Sys2Proof.Machine
